-- ==== Sys2Proof/Word.lean ====
section
/-! DEFINITION. The machine's word, its byte, and the plainest operations on words. `XLEN` is a parameter (spec 00 rule
R7; `Platform.xlen`), so a word has the room of the greatest `XLEN` the model takes, and an `XLEN`-bit value is a word
whose bits from `XLEN` on are zero (`Word.Fits`). -/

namespace Sys2Proof

/-- The room for a word: the model takes every `XLEN` up to it (00 R7, D1; DESIGN CHOICE, log 1). -/
abbrev WORD_BITS : Nat := 64

/-- The width of `mstatus.MPP` (10 R28; log 1). -/
abbrev PRIV_BITS : Nat := 2

/-- The room of an `XLEN`-bit value: the pc, a general register, a CSR, an address (00 R10). -/
abbrev Word := BitVec WORD_BITS

/-- The smallest addressable unit of memory (20 R60). -/
abbrev Byte := BitVec 8

/-- The value has `n` bits: every bit from `n` on is zero. -/
abbrev Word.Fits (v : Word) (n : Nat) : Prop := v.toNat < 2 ^ n

/-- The low `n` bits: the value modulo `2^n` (00 R10). -/
def Word.low (v : Word) (n : Nat) : Word := (v.setWidth n).setWidth WORD_BITS

/-- The field of `n` bits whose lowest bit is `lo`. -/
def Word.field (v : Word) (lo n : Nat) : Word := (v.extractLsb' lo n).setWidth WORD_BITS

/-- `zext_XLEN(w)` of an instruction word (00 R11). -/
def zext (w : BitVec 32) : Word := w.setWidth WORD_BITS

/-- `a mod n ≠ 0`: the spec's "misaligned" for an access of `n` bytes (20 R62). -/
def Word.misaligned (a : Word) (n : Nat) : Bool := a.toNat % n != 0

/-- `a` with bit 0 cleared (20 R64: what a control transfer does to its target with the "C" extension). -/
def Word.clearBit0 (a : Word) : Word := a &&& ~~~1

end Sys2Proof
end

