-- ==== Sys2Proof/Syntax.lean ====
section
/-! DEFINITION. The instructions of spec/opcode_table.json, one constructor per row (30 rules R81 to R83). -/

namespace Sys2Proof

/-- A general register number, `x0` to `x31` (10 R23). -/
abbrev RegIx := Fin 32

/-- The nine instructions the spec specifies. `csr` is the 12-bit CSR address used as is; `uimm` is the immediate as
written in assembly, 0 to 31 (30 R82, R89). -/
inductive Instr where
  | ecall
  | ebreak
  | mret
  | csrrw (rd : RegIx) (csr : BitVec 12) (rs1 : RegIx)
  | csrrs (rd : RegIx) (csr : BitVec 12) (rs1 : RegIx)
  | csrrc (rd : RegIx) (csr : BitVec 12) (rs1 : RegIx)
  | csrrwi (rd : RegIx) (csr : BitVec 12) (uimm : Nat)
  | csrrsi (rd : RegIx) (csr : BitVec 12) (uimm : Nat)
  | csrrci (rd : RegIx) (csr : BitVec 12) (uimm : Nat)
deriving DecidableEq, Repr

end Sys2Proof
end

