-- ==== Sys2Proof/WellFormed.lean ====
section
/-! DEFINITION. Which terms of `Instr` are instructions: the immediate of the three immediate CSR forms is 0 to 31
(30 rules R82, R89). Register numbers and CSR addresses are in range by their types. -/

namespace Sys2Proof

/-- The operands of `i` fit its encoding. -/
def Instr.WellFormed : Instr → Bool
  | .ecall => true
  | .ebreak => true
  | .mret => true
  | .csrrw _ _ _ => true
  | .csrrs _ _ _ => true
  | .csrrc _ _ _ => true
  | .csrrwi _ _ uimm => decide (uimm < 32)
  | .csrrsi _ _ uimm => decide (uimm < 32)
  | .csrrci _ _ uimm => decide (uimm < 32)

end Sys2Proof
end

