-- ==== Sys2Proof/Decode.lean ====
section
/-! DEFINITION. Decoding, total on any bytes and rejecting by name, and the encoder, both from the encoding tables of
spec 30 rules R80 to R84 (all nine instructions: 32-bit I-type words under the major opcode SYSTEM). -/

namespace Sys2Proof

/-- Why the nine rows of 30 R83 do not claim the bytes. -/
inductive DecodeError where
  /-- Fewer bytes than an instruction has. -/
  | truncated
  /-- A 2-byte parcel: its low two bits are not 11 (30 R80). No 2-byte instruction is specified. -/
  | shortForm (parcel : BitVec 16)
  /-- A 4-byte word that matches none of the nine rows: it belongs to the base instruction set (30 R84). -/
  | noRow (word : BitVec 32)
deriving DecidableEq, Repr

/-- The major opcode SYSTEM (30 R81). -/
abbrev opcodeSystem : BitVec 7 := 0x73

/-- `word[6:0]` (30 R81). -/
def opcodeOf (w : BitVec 32) : BitVec 7 := w.extractLsb' 0 7

/-- `rd = word[11:7]` (30 R82). -/
def rdOf (w : BitVec 32) : RegIx := (w.extractLsb' 7 5).toFin

/-- `funct3 = word[14:12]` (30 R81). -/
def funct3Of (w : BitVec 32) : BitVec 3 := w.extractLsb' 12 3

/-- `rs1 = word[19:15]` (30 R82). -/
def rs1Of (w : BitVec 32) : RegIx := (w.extractLsb' 15 5).toFin

/-- `uimm = word[19:15]`, an unsigned number (30 R82). -/
def uimmOf (w : BitVec 32) : Nat := (w.extractLsb' 15 5).toNat

/-- `csr = word[31:20]` (30 R82). -/
def csrOf (w : BitVec 32) : BitVec 12 := w.extractLsb' 20 12

/-- The row of 30 R83 that a word matches, if any. -/
def decodeWord (w : BitVec 32) : Option Instr :=
  if w = 0x00000073 then some .ecall
  else if w = 0x00100073 then some .ebreak
  else if w = 0x30200073 then some .mret
  else if opcodeOf w = opcodeSystem then
    match (funct3Of w).toNat with
    | 1 => some (.csrrw (rdOf w) (csrOf w) (rs1Of w))
    | 2 => some (.csrrs (rdOf w) (csrOf w) (rs1Of w))
    | 3 => some (.csrrc (rdOf w) (csrOf w) (rs1Of w))
    | 5 => some (.csrrwi (rdOf w) (csrOf w) (uimmOf w))
    | 6 => some (.csrrsi (rdOf w) (csrOf w) (uimmOf w))
    | 7 => some (.csrrci (rdOf w) (csrOf w) (uimmOf w))
    | _ => none
  else none

/-- Whether a first byte begins a 4-byte instruction: the two low bits of the first parcel are 11 (30 R80). -/
def isLong (b0 : Byte) : Bool := b0.extractLsb' 0 2 = 3#2

/-- The number a little-endian byte list stands for, the first byte in bits 7:0 (20 R61). -/
def wordOfBytes : List Byte → BitVec 32
  | [] => 0
  | b :: bs => (wordOfBytes bs <<< 8) ||| b.setWidth 32

/-- The four bytes of a word in memory order (20 R61). -/
def bytesOfWord (w : BitVec 32) : List Byte :=
  [w.extractLsb' 0 8, w.extractLsb' 8 8, w.extractLsb' 16 8, w.extractLsb' 24 8]

/-- Decode the instruction at the head of a byte list; answer it with the bytes after it. -/
def decode : List Byte → Except DecodeError (Instr × List Byte)
  | b0 :: b1 :: rest =>
    if isLong b0 then
      match rest with
      | b2 :: b3 :: rest' =>
        match decodeWord (wordOfBytes [b0, b1, b2, b3]) with
        | some i => .ok (i, rest')
        | none => .error (.noRow (wordOfBytes [b0, b1, b2, b3]))
      | _ => .error .truncated
    else .error (.shortForm ((wordOfBytes [b0, b1]).setWidth 16))
  | _ => .error .truncated

/-- The I-type SYSTEM word of 30 R81. -/
def systemWord (top : BitVec 12) (mid : BitVec 5) (funct3 : BitVec 3) (rd : RegIx) : BitVec 32 :=
  top ++ mid ++ funct3 ++ BitVec.ofFin (w := 5) rd ++ opcodeSystem

/-- The word of an instruction (30 R83). For a well-formed instruction it is the one word that decodes to it. -/
def encode : Instr → BitVec 32
  | .ecall => systemWord 0x000 0 0 0
  | .ebreak => systemWord 0x001 0 0 0
  | .mret => systemWord 0x302 0 0 0
  | .csrrw rd csr rs1 => systemWord csr (BitVec.ofFin rs1) 1 rd
  | .csrrs rd csr rs1 => systemWord csr (BitVec.ofFin rs1) 2 rd
  | .csrrc rd csr rs1 => systemWord csr (BitVec.ofFin rs1) 3 rd
  | .csrrwi rd csr uimm => systemWord csr (BitVec.ofNat 5 uimm) 5 rd
  | .csrrsi rd csr uimm => systemWord csr (BitVec.ofNat 5 uimm) 6 rd
  | .csrrci rd csr uimm => systemWord csr (BitVec.ofNat 5 uimm) 7 rd

/-- The word whose bits the opcode table numbers 0 to `nbits - 1`, every bit above them zero. -/
def tableWord (nbits w : Nat) : BitVec 32 := BitVec.ofNat 32 (w % 2 ^ nbits)

/-- What the decoder reads from an instruction whose bits are `w`, numbered as the opcode table numbers them. -/
def decodeTableWord (nbits w : Nat) : Option Instr :=
  match decode (bytesOfWord (tableWord nbits w)) with
  | .ok (i, _) => some i
  | .error _ => none

end Sys2Proof
end

