-- ==== Sys2Proof/Config.lean ====
section
/-! DEFINITION. What an implementation fixes, and the free values. The spec is an open machine (00 rules R6, R7): its
parameters are the fields of `Platform`, plain data that State carries and no step writes (log 2), and the open
functions and draws are opaque constants, of which no proof can see a value. -/

namespace Sys2Proof

/-- The Privilege Modes (10 R22, 60 R200). -/
inductive Mode where
  | user
  | machine
deriving DecidableEq, Repr, Inhabited

/-- The kinds of memory access (20 R63). -/
inductive AccessKind where
  | fetch
  | load
  | store
  | amo
deriving DecidableEq, Repr, Inhabited

/-- One entry of the platform's `AccessFault` predicate: an access of this kind that starts at an address from `lo` to
`hi` (and, when `width` names one, is that many bytes wide) suffers an access error (20 R63; log 13). -/
structure AccessRule where
  kind  : AccessKind
  lo    : Word
  hi    : Word
  width : Option Nat
deriving DecidableEq, Repr

/-- Where each CSR and each named field lives: parameters of 00 R7, the values of which are in 10 R24 to R34 (log 28). -/
structure CsrLayout where
  /-- The address of each CSR (10 R24). -/
  mstatus : BitVec 12
  mtvec   : BitVec 12
  mepc    : BitVec 12
  mcause  : BitVec 12
  mtval   : BitVec 12
  msubm   : BitVec 12
  /-- The lowest bit of each field: `MIE`, `MPIE`, `MPP` in `mstatus` (10 R26 to R28). -/
  mieAt   : Nat
  mpieAt  : Nat
  mppAt   : Nat
  /-- `TYP` and `PTYP` in `msubm` (10 R29, R30). -/
  typAt   : Nat
  ptypAt  : Nat
  /-- `EXCCODE` and the interrupt flag in `mcause` (10 R34). -/
  exccodeAt : Nat
  intFlagAt : Nat
deriving DecidableEq, Repr

/-- The implementation parameters of 00 rule R7 that are data. No instruction reads them as a register and no step
changes them. -/
structure Platform where
  /-- `XLEN`: the width of the pc, of every CSR, of a general register and of an address. -/
  xlen : Nat
  /-- `EXCCODE_BITS`: the width of `mcause.EXCCODE`. -/
  exccodeBits : Nat
  /-- `SUBM_BITS`: the width of `msubm.TYP` and of `msubm.PTYP`. -/
  submBits : Nat
  /-- `HAS_U`: User Mode is configured. -/
  hasU : Bool
  /-- `HAS_C`: the "C" extension is configured. -/
  hasC : Bool
  /-- `HAS_A`: AMO instructions exist. -/
  hasA : Bool
  /-- `PRIV_U` and `PRIV_M`: the encodings of the modes in `mstatus.MPP` (10 R22, R28). -/
  privU : BitVec PRIV_BITS
  privM : BitVec PRIV_BITS
  /-- `SUBM_EXC`: the encoding of exception handling mode in `msubm.TYP` (10 R29). -/
  submExc : Word
  /-- The CSR addresses and the positions of the fields. -/
  layout : CsrLayout
  /-- `MEPC_MASK`: the bits of `mepc` a software write can set (10 R31). -/
  mepcMask : Word
  /-- `MTVEC_MASK`: the bits of `mtvec` a software write can set (10 R33). -/
  mtvecMask : Word
  /-- `AccessFault(kind, addr, width)`: it holds where some entry matches (20 R63; log 13). -/
  accessFaults : List AccessRule
  /-- `HwBreak(kind, addr)`: it holds for exactly the listed pairs (42 R146; log 14). -/
  hwBreaks : List (AccessKind × Word)
  /-- The SYSTEM words with `funct3` = 000 that `BaseStep` claims (30 R86 (b); log 12). -/
  baseClaims : List (BitVec 32)
  /-- The switch of 42 R140 and decision D27: without "C", raise code 0 also at a jump or branch of the base set whose
  target is misaligned (log 17). -/
  misalignedAtJump : Bool
deriving DecidableEq, Repr

/-- The addresses of the six CSRs. -/
def CsrLayout.addresses (l : CsrLayout) : List (BitVec 12) :=
  [l.mstatus, l.mtvec, l.mepc, l.mcause, l.mtval, l.msubm]

/-- The fields of each CSR lie in its `XLEN` bits and do not overlap. -/
abbrev Platform.FieldsFit (p : Platform) : Prop :=
  (p.layout.mieAt < p.xlen ∧ p.layout.mpieAt < p.xlen ∧ p.layout.mppAt + PRIV_BITS ≤ p.xlen)
  ∧ (p.layout.mieAt ≠ p.layout.mpieAt
    ∧ (p.layout.mieAt < p.layout.mppAt ∨ p.layout.mppAt + PRIV_BITS ≤ p.layout.mieAt)
    ∧ (p.layout.mpieAt < p.layout.mppAt ∨ p.layout.mppAt + PRIV_BITS ≤ p.layout.mpieAt))
  ∧ (p.layout.typAt + p.submBits ≤ p.xlen ∧ p.layout.ptypAt + p.submBits ≤ p.xlen
    ∧ (p.layout.typAt + p.submBits ≤ p.layout.ptypAt ∨ p.layout.ptypAt + p.submBits ≤ p.layout.typAt))
  ∧ (p.layout.exccodeAt + p.exccodeBits ≤ p.xlen ∧ p.layout.intFlagAt < p.xlen
    ∧ (p.layout.intFlagAt < p.layout.exccodeAt ∨ p.layout.exccodeAt + p.exccodeBits ≤ p.layout.intFlagAt))

/-- The widths are ones the rules allow: `XLEN` has room for an instruction word (30 R87) and is at most the model's
room (log 1), the exception codes fit `EXCCODE` (60 R162 to R171), and `SUBM_EXC` fits `TYP` (10 R29). -/
abbrev Platform.WidthsFit (p : Platform) : Prop :=
  32 ≤ p.xlen ∧ p.xlen ≤ WORD_BITS ∧ 4 ≤ p.exccodeBits ∧ p.submExc.Fits p.submBits

/-- What 10 R24 to R35 and 41 R120 say of every layout: the widths and fields fit, the modes have different encodings,
the addresses differ, and each address allows reading and writing in Machine Mode and nothing in User Mode. -/
structure Platform.Valid (p : Platform) : Prop where
  widths    : p.WidthsFit
  fields    : p.FieldsFit
  modes     : p.privU ≠ p.privM
  addresses : p.layout.addresses.Nodup
  rights    : ∀ a ∈ p.layout.addresses, p.privU.toNat < (a.extractLsb' 8 2).toNat
    ∧ (a.extractLsb' 8 2).toNat ≤ p.privM.toNat ∧ a.extractLsb' 10 2 ≠ 3#2

/-- The addresses and positions of 10 R24 to R34, general knowledge. PRESUMED (log 28). -/
def Config.layout : CsrLayout where
  mstatus := 0x300
  mtvec := 0x305
  mepc := 0x341
  mcause := 0x342
  mtval := 0x343
  msubm := 0x7C4
  mieAt := 3
  mpieAt := 7
  mppAt := 11
  typAt := 6
  ptypAt := 8
  exccodeAt := 0
  intFlagAt := 31

/-- The SYSTEM words with `funct3` = 000 that the shipped core's base set claims: open (30 R86 (b); log 12). -/
opaque Config.shippedClaims : List (BitVec 32)

/-- The platform the machine has at reset: the shipped Bumblebee core as the spec's general knowledge gives it, with
User Mode and AMO as that family has them. PRESUMED (log 2). -/
def Config.shipped : Platform where
  xlen := 32
  exccodeBits := 5
  submBits := 2
  hasU := true
  hasC := true
  hasA := true
  privU := 0
  privM := 3
  submExc := 2
  layout := Config.layout
  mepcMask := 0xFFFFFFFE
  mtvecMask := 0xFFFFFFFF
  accessFaults := []
  hwBreaks := []
  baseClaims := Config.shippedClaims
  misalignedAtJump := false

/-- `RESET_PC` (10 R45 gives none): DESIGN CHOICE, log 4. -/
def Config.resetPc : Word := 0

/-- The reset value of `mepc`, `mtval`, `mtvec` and the general registers (10 R45 gives none): DESIGN CHOICE, log 4. -/
def Config.resetWord : Word := 0

/-- A draw: the `n`-th value the rules do not fix. Nothing in Lean can evaluate it (log 6). -/
opaque Config.freeWord : Nat → Word

/-- A draw of memory bytes, as many as an access has (log 6). -/
opaque Config.freeBytes : Nat → BitVec 64

/-- The byte at an address to which nothing has given a value: what the memory of the launch state holds there is free
(10 R45, 70 R221; log 5). -/
opaque Config.launchByte : Nat → Byte

/-- A free natural number of the fault reporter: a number of steps with no bound, or a choice among several faults (60
R175; log 7). -/
opaque Config.freeNat : Nat → Nat

/-- `exc_entry_pc` where the low 6 bits of `mtvec` are not all zero (10 R33, decision D3; log 10). -/
opaque Config.excEntryPcOther : Word → Word

/-- `IsIllegal(word, priv)` beyond the members the spec fixes (30 R86; log 12). -/
opaque Config.isIllegalOther : BitVec 32 → Mode → Bool

end Sys2Proof
end

