-- ==== Sys2Proof/Machine/State.lean ====
section
/-! DEFINITION. The state of the machine as plain data (spec 10 rules R20 to R41), the exception codes, the reasons a
step can stop, and the state after reset (10 R45; log 2 to 5). -/

namespace Sys2Proof.Machine

/-- The exceptions of Table 3-1 (60 R162 to R171); there are no others (60 R160, R172). -/
inductive ExcCode where
  | instrAddrMisaligned
  | instrAccessFault
  | illegalInstruction
  | breakpoint
  | loadAddrMisaligned
  | loadAccessFault
  | storeAddrMisaligned
  | storeAccessFault
  | ecallFromU
  | ecallFromM
deriving DecidableEq, Repr, Inhabited

/-- The two imprecise asynchronous codes, 5 and 7 (60 R167, R169). -/
inductive AsyncCode where
  | load
  | store
deriving DecidableEq, Repr, Inhabited

/-- An element `(code, addr)` of `pending_faults` (10 R37). -/
structure PendingFault where
  code : AsyncCode
  addr : Word
deriving DecidableEq, Repr, Inhabited

/-- A pending fault and how many more instructions the fault reporter lets pass before it must deliver it (60 R175;
log 7). -/
structure PostedFault where
  fault : PendingFault
  wait  : Nat
deriving DecidableEq, Repr, Inhabited

/-- Memory: address and byte pairs in canonical form, addresses strictly rising (`Memory.wf`). An address that is not
listed holds its byte of the launch state, which is free (`Memory.byte`; log 5). -/
abbrev Memory := List Host.Cell

/-- The state of the core. `cfg` is fixed for a machine; the fields after `pending` are the model's own. The pc, the
registers and the CSRs hold `XLEN`-bit values (`Safety.WordsFit`). -/
structure State where
  /-- The implementation parameters (00 R7). -/
  cfg : Platform
  /-- The address of the instruction being executed (10 R21). -/
  pc : Word
  /-- The general registers (10 R23). -/
  x : Vector Word 32
  /-- The Privilege Mode (10 R22). -/
  priv : Mode
  /-- `mstatus.MIE` (10 R26). -/
  mie : Bool
  /-- `mstatus.MPIE` (10 R27). -/
  mpie : Bool
  /-- `mstatus.MPP`, raw: software may leave a value that is no mode (10 R28). -/
  mpp : BitVec PRIV_BITS
  /-- `msubm.TYP`, the live Machine Sub-Mode, `SUBM_BITS` wide (10 R29). -/
  typ : Word
  /-- `msubm.PTYP`, `SUBM_BITS` wide (10 R30). -/
  ptyp : Word
  /-- `mcause.EXCCODE`, `EXCCODE_BITS` wide (10 R34). -/
  exccode : Word
  /-- `mcause[XLEN-1]`, the interrupt flag (10 R34). -/
  intFlag : Bool
  /-- 10 R31. -/
  mepc : Word
  /-- 10 R32. -/
  mtval : Word
  /-- 10 R33. -/
  mtvec : Word
  /-- The one address space (20 R60). -/
  mem : Memory
  /-- `pending_faults`: a set, held as a list with no repeated fault, with the reporter's wait for each (10 R37; log 7,
  8). -/
  pending : List PostedFault
  /-- The addresses a Store or AMO has written: an instruction fetched from one is self-modified code (20 R71; log 20). -/
  written : List Nat
  /-- How many draws have been taken (log 6). -/
  draws : Nat
  /-- How many free numbers the fault reporter has taken (log 7). -/
  reporterDraws : Nat
  /-- How many instructions the base set has run (log 11). -/
  baseRuns : Nat
  /-- Whether something outside the core presents an interrupt at this step (60 R203; log 41). -/
  irqLine : Bool
  /-- Whether something outside the core presents an NMI at this step (60 R204; log 41). -/
  nmiLine : Bool
deriving DecidableEq, Repr

/-- Why the machine stops with a fault. -/
inductive Fault where
  /-- Raised by `mret` in Machine Mode when `mstatus.MPP` holds no configured mode: the spec gives it no meaning (40
  R102, decision D13). Safe. -/
  | mretBadMpp
deriving DecidableEq, Repr

/-- Why the machine refuses to go on. -/
inductive Refusal where
  /-- Raised by `exec`'s arm of an instruction that has no meaning yet. Safe. -/
  | notModelled (mnemonic : String)
  /-- Raised by a CSR instruction that would write `msubm` in Machine Mode: the spec says that the model refuses it
  (41 R129). Safe. -/
  | msubmWrite
  /-- Raised by the step at the 2-byte breakpoint: the spec says that the model refuses it (30 R80; log 21). Safe. -/
  | compressedBreakpoint
  /-- Raised by the fetch of a byte that a Store or AMO wrote: the spec says that the model should refuse it (20 R71;
  log 20). Safe. -/
  | selfModifiedCode
  /-- Raised by the step when an interrupt or an NMI would be taken: the spec describes neither and has every claim
  assume that none is (60 R203 to R205; log 41). Safe. -/
  | interruptTaken
deriving DecidableEq, Repr

/-- The machine right after reset. The spec fixes `priv` and an empty `pending` (10 R45); the other values are named in
log 2 to 5. -/
def State.reset : State where
  cfg := Config.shipped
  pc := Config.resetPc
  x := Vector.replicate 32 Config.resetWord
  priv := .machine
  mie := false
  mpie := false
  mpp := Config.shipped.privM
  typ := 0
  ptyp := 0
  exccode := 0
  intFlag := false
  mepc := Config.resetWord
  mtval := Config.resetWord
  mtvec := Config.resetWord
  mem := []
  pending := []
  written := []
  draws := 0
  reporterDraws := 0
  baseRuns := 0
  irqLine := false
  nmiLine := false

/-- The set `pending_faults` (10 R37). -/
def State.pendingFaults (s : State) : List PendingFault := s.pending.map (·.fault)

end Sys2Proof.Machine
end

