-- ==== Sys2Proof/Machine/Flags.lean ====
section
/-! DEFINITION. The spec names no condition codes (10 rule R39): no instruction reads or writes one. The flags here are
the fields of the status registers: how `mstatus`, `msubm` and `mcause` are put together from their named fields and
taken apart again (10 rules R25 to R30, R34, R36), and the encodings of the modes and the exception codes. Every bit the
rules do not name comes from a draw `d` (log 24). -/

namespace Sys2Proof.Machine

/-- The encoding of a mode in `mstatus.MPP` (10 R22, R28). -/
def modeBits (cfg : Platform) : Mode → BitVec PRIV_BITS
  | .user => cfg.privU
  | .machine => cfg.privM

/-- The configured mode a value of `mstatus.MPP` names, if any (10 R28). -/
def configuredMode (cfg : Platform) (mpp : BitVec PRIV_BITS) : Option Mode :=
  if mpp = cfg.privM then some .machine
  else if cfg.hasU && mpp == cfg.privU then some .user
  else none

/-- What `mret` writes to `mstatus.MPP` (60 R192). -/
def mppAfterReturn (cfg : Platform) : BitVec PRIV_BITS := if cfg.hasU then cfg.privU else cfg.privM

/-- The code of an exception in `mcause.EXCCODE` (60 R162 to R171). -/
def codeBits : ExcCode → Word
  | .instrAddrMisaligned => 0
  | .instrAccessFault => 1
  | .illegalInstruction => 2
  | .breakpoint => 3
  | .loadAddrMisaligned => 4
  | .loadAccessFault => 5
  | .storeAddrMisaligned => 6
  | .storeAccessFault => 7
  | .ecallFromU => 8
  | .ecallFromM => 11

/-- The exception of a pending fault (10 R37). -/
def AsyncCode.exc : AsyncCode → ExcCode
  | .load => .loadAccessFault
  | .store => .storeAccessFault

/-- The exception of an `ecall` in a mode (40 R101). -/
def ecallCode : Mode → ExcCode
  | .user => .ecallFromU
  | .machine => .ecallFromM

/-- `d` with the field `f` in its place, lowest bit at `lo`. -/
def insertField (d : Word) (lo : Nat) {n : Nat} (f : BitVec n) : Word :=
  (d &&& ~~~((BitVec.allOnes n).setWidth WORD_BITS <<< lo)) ||| (f.setWidth WORD_BITS <<< lo)

/-- `mstatus` as read: `MPP`, `MPIE` and `MIE` at their positions, the rest from `d`. -/
def packMstatus (cfg : Platform) (mpp : BitVec PRIV_BITS) (mpie mie : Bool) (d : Word) : Word :=
  insertField (insertField (insertField d cfg.layout.mieAt (BitVec.ofBool mie)) cfg.layout.mpieAt (BitVec.ofBool mpie))
    cfg.layout.mppAt mpp

/-- `msubm` as read: `PTYP` and `TYP` at their positions, the rest from `d`. -/
def packMsubm (cfg : Platform) (ptyp typ d : Word) : Word :=
  insertField (insertField d cfg.layout.typAt (typ.setWidth cfg.submBits)) cfg.layout.ptypAt (ptyp.setWidth cfg.submBits)

/-- `mcause` as read: the interrupt flag and `EXCCODE` at their positions, the rest from `d`. -/
def packMcause (cfg : Platform) (intFlag : Bool) (exccode d : Word) : Word :=
  insertField (insertField d cfg.layout.exccodeAt (exccode.setWidth cfg.exccodeBits)) cfg.layout.intFlagAt
    (BitVec.ofBool intFlag)

/-- `mstatus.MIE` in a word (10 R26). -/
def mieOf (cfg : Platform) (v : Word) : Bool := v.getLsbD cfg.layout.mieAt

/-- `mstatus.MPIE` in a word (10 R27). -/
def mpieOf (cfg : Platform) (v : Word) : Bool := v.getLsbD cfg.layout.mpieAt

/-- `mstatus.MPP` in a word (10 R28). -/
def mppOf (cfg : Platform) (v : Word) : BitVec PRIV_BITS := v.extractLsb' cfg.layout.mppAt PRIV_BITS

/-- `mcause.EXCCODE` in a word (10 R34). -/
def exccodeOf (cfg : Platform) (v : Word) : Word := v.field cfg.layout.exccodeAt cfg.exccodeBits

/-- The interrupt flag of `mcause` in a word (10 R34). -/
def intFlagOf (cfg : Platform) (v : Word) : Bool := v.getLsbD cfg.layout.intFlagAt

end Sys2Proof.Machine
end

