-- ==== Sys2Proof/Machine/Memory.lean ====
section
/-! DEFINITION. Reading and writing the bytes of memory in its canonical form (spec 20 rules R60, R61; log 5), and the
set of bytes that stores have written (20 R71). -/

namespace Sys2Proof.Machine

/-- The canonical form: addresses strictly rising. An unlisted address has been given no value, so an entry never stands
for what an unlisted address holds (log 5). -/
abbrev Memory.wf (m : Memory) : Prop := m.Pairwise fun p q => p.1 < q.1

/-- Every listed address is one of the `2^n` of the address space (20 R60). -/
abbrev Memory.inSpace (m : Memory) (n : Nat) : Prop := ∀ c ∈ m, c.1 < 2 ^ n

/-- The byte at an address, if anything has given it a value. -/
def Memory.read : Memory → Nat → Option Byte
  | [], _ => none
  | (k, b) :: m, a => if a = k then some b else Memory.read m a

/-- Give the byte at an address a value, keeping the canonical form. -/
def Memory.write : Memory → Nat → Byte → Memory
  | [], a, v => [(a, v)]
  | (k, b) :: m, a, v =>
    if a < k then (a, v) :: (k, b) :: m
    else if a = k then (a, v) :: m
    else (k, b) :: Memory.write m a v

/-- The addresses of `n` bytes from `a` on in a space of `2^xlen` bytes, wrapping at its top (00 R10). -/
def byteAddrs (xlen : Nat) (a : Word) : Nat → List Nat
  | 0 => []
  | n + 1 => a.toNat % 2 ^ xlen :: byteAddrs xlen (a + 1) n

/-- The byte an access finds at an address: the one something has given it, else its byte of the launch state (20 R68, 70
R221; log 5). -/
def Memory.byte (m : Memory) (a : Nat) : Byte := (m.read a).getD (Config.launchByte a)

/-- Write bytes at a list of addresses, one after another. -/
def Memory.writeBytes (m : Memory) : List Nat → List Byte → Memory
  | a :: as, b :: bs => Memory.writeBytes (m.write a b) as bs
  | _, _ => m

/-- The low `n` bytes of a value, the least significant first (20 R61). -/
def bytesOf (v : BitVec 64) : Nat → List Byte
  | 0 => []
  | n + 1 => v.setWidth 8 :: bytesOf (v >>> 8) n

/-- The number a byte list stands for, the first byte least significant (20 R61). -/
def valueOf : List Byte → BitVec 64
  | [] => 0
  | b :: bs => (valueOf bs <<< 8) ||| b.setWidth 64

/-- Add addresses to the set of written ones, without repeats. -/
def markWritten (written : List Nat) : List Nat → List Nat
  | [] => written
  | a :: as => if a ∈ written then markWritten written as else markWritten (a :: written) as

end Sys2Proof.Machine
end

