-- ==== Sys2Proof/Machine/Ops.lean ====
section
/-! DEFINITION. The named operations over the state: general registers, draws, control transfer, taking an exception
(spec 60 rules R176 to R186), returning from one (60 rules R190 to R196), and pending imprecise faults (10 rule R37, 60
rule R175). -/

namespace Sys2Proof.Machine

/-- `x[i]` (00 R12); `x0` reads as zero (10 R23). -/
def State.reg (s : State) (i : RegIx) : Word := if i = 0 then 0 else s.x[i]

/-- `x[i] <- v` (00 R12); a write to `x0` is ignored (10 R23). -/
def State.setReg (s : State) (i : RegIx) (v : Word) : State :=
  if i = 0 then s else { s with x := s.x.set i v }

/-- The `k`-th draw not taken yet, an `XLEN`-bit value (log 6). -/
def State.draw (s : State) (k : Nat) : Word := (Config.freeWord (s.draws + k)).low s.cfg.xlen

/-- The `k`-th draw not taken yet, as bytes of memory (log 6). -/
def State.drawBytes (s : State) (k : Nat) : BitVec 64 := Config.freeBytes (s.draws + k)

/-- `k` draws have been taken. -/
def State.drew (s : State) (k : Nat) : State := { s with draws := s.draws + k }

/-- Where a control transfer to `t` goes: with the "C" extension bit 0 of the target is cleared (20 R64; log 16). -/
def State.target (s : State) (t : Word) : Word := if s.cfg.hasC then t.clearBit0 else t

/-- The address of the next 4-byte instruction: `pc + 4` modulo `2^XLEN` (10 R21, 00 R10). -/
def State.nextPc (s : State) : Word := (s.pc + 4).low s.cfg.xlen

/-- `exc_entry_pc(mtvec)`: the identity where the low 6 bits are zero, else open (10 R33, 60 R177; log 10). -/
def excEntryPc (cfg : Platform) (mtvec : Word) : Word :=
  if mtvec.extractLsb' 0 6 = 0 then mtvec else (Config.excEntryPcOther mtvec).low cfg.xlen

/-- `TrapEntry(code, epc, tval)` (60 R184): every right-hand side is read before entry, and nothing else is written
(60 R186). -/
def State.trapEntry (s : State) (e : ExcCode) (epc tval : Word) : State :=
  { s with
    pc := s.target (excEntryPc s.cfg s.mtvec)
    exccode := codeBits e
    intFlag := false
    mepc := epc
    mtval := tval
    mpie := s.mie
    mie := false
    mpp := modeBits s.cfg s.priv
    priv := .machine
    ptyp := s.typ
    typ := s.cfg.submExc }

/-- `raise E(tval)`: trap entry at the current instruction (00 R15, 60 R179). -/
def State.raise (s : State) (e : ExcCode) (tval : Word) : State := s.trapEntry e s.pc tval

/-- `raise E(draw)`: the spec does not fix `mtval` (60 R180, third row). -/
def State.raiseDraw (s : State) (e : ExcCode) : State := (s.drew 1).raise e (s.draw 0)

/-- `TrapReturn()` to the mode `m` that `mstatus.MPP` names (60 R195). `mepc`, `mcause`, `mtval` and `msubm.PTYP` become
draws (60 R196; log 6). -/
def State.trapReturn (s : State) (m : Mode) : State :=
  { s with
    pc := s.target s.mepc
    mie := s.mpie
    mpie := true
    priv := m
    mpp := mppAfterReturn s.cfg
    typ := s.ptyp
    mepc := s.draw 0
    exccode := exccodeOf s.cfg (s.draw 1)
    intFlag := intFlagOf s.cfg (s.draw 1)
    mtval := s.draw 2
    ptyp := (s.draw 3).low s.cfg.submBits
    draws := s.draws + 4 }

/-- Add a fault to `pending_faults` (10 R37). The reporter's wait for it is a free number of steps (60 R175; log 7,
8). -/
def State.post (s : State) (f : PendingFault) : State :=
  if f ∈ s.pendingFaults then s
  else
    { s with
      pending := s.pending ++ [⟨f, Config.freeNat s.reporterDraws⟩]
      reporterDraws := s.reporterDraws + 1 }

/-- The pending faults with the smallest code (60 R174, R175). -/
def dueFaults (p : List PendingFault) : List PendingFault :=
  if p.any (fun f => f.code == .load) then p.filter (fun f => f.code == .load) else p

/-- The pending fault the reporter chooses: any one with the smallest code (60 R175; log 7). -/
def State.chosenFault (s : State) : PendingFault :=
  let due := dueFaults s.pendingFaults
  due.getD (Config.freeNat s.reporterDraws % due.length) default

/-- Whether the reporter delivers at the start of this step: it does while some fault has waited to its end, and since
no instruction runs in such a step, that fault is among those it reaches (60 R161, R175; log 7). -/
def State.reports (s : State) : Bool := s.pending.any fun q => q.wait == 0

/-- `pending_faults` without a fault. -/
def State.unpost (s : State) (f : PendingFault) : State :=
  { s with pending := s.pending.filter (fun q => q.fault != f), reporterDraws := s.reporterDraws + 1 }

/-- One delivery: the chosen fault leaves `pending_faults` and its exception is taken at the instruction not yet
executed (60 R175). -/
def State.deliver (s : State) : State :=
  (s.unpost s.chosenFault).raise s.chosenFault.code.exc s.chosenFault.addr

/-- The reporter lets this step pass: one step less to wait for every pending fault (60 R175; log 7). -/
def State.tick (s : State) : State :=
  { s with pending := s.pending.map fun q => { q with wait := q.wait - 1 } }

/-- Whether the core would take an interrupt or an NMI at this step: an NMI, or an interrupt while `mstatus.MIE` is 1
(10 R26, 60 R203, R204; log 41). -/
def State.interrupted (s : State) : Bool := s.nmiLine || (s.irqLine && s.mie)

/-- `AccessFault(kind, addr, width)` (20 R63; log 13). -/
def State.accessFault (s : State) (k : AccessKind) (a : Word) (n : Nat) : Bool :=
  s.cfg.accessFaults.any fun r =>
    r.kind == k && decide (r.lo.toNat ≤ a.toNat) && decide (a.toNat ≤ r.hi.toNat)
      && (r.width == none || r.width == some n)

/-- `HwBreak(kind, addr)` (42 R146; log 14). -/
def State.hwBreak (s : State) (k : AccessKind) (a : Word) : Bool := s.cfg.hwBreaks.any fun p => p == (k, a)

/-- The addresses of an access of `n` bytes at `a` (20 R60). -/
def State.addrs (s : State) (a : Word) (n : Nat) : List Nat := byteAddrs s.cfg.xlen a n

/-- `MemWrite(a, n, v)` by a Store or AMO (00 R14), remembered for 20 R71. -/
def State.store (s : State) (a : Word) (n : Nat) (v : BitVec 64) : State :=
  { s with mem := s.mem.writeBytes (s.addrs a n) (bytesOf v n), written := markWritten s.written (s.addrs a n) }

/-- The bytes an access of `n` bytes at `a` finds, the one at `a` first (20 R60, R61). -/
def State.bytesAt (s : State) (a : Word) (n : Nat) : List Byte := (s.addrs a n).map s.mem.byte

/-- `MemRead(a, n)` (00 R14). -/
def State.load (s : State) (a : Word) (n : Nat) : BitVec 64 := valueOf (s.bytesAt a n)

end Sys2Proof.Machine
end

