-- ==== Sys2Proof/Machine/MemClasses.lean ====
section
/-! DEFINITION. The Load, Store and AMO classes (spec 42 rules R142 to R144): how an instruction of the base set that
reads or writes memory meets the exception mechanism. The tests stand in the order of the priority rule, 60 R174
(log 30). -/

namespace Sys2Proof.Machine

/-- The widths of an access, in bytes (20 R62). -/
inductive Width where
  | w1
  | w2
  | w4
  | w8
deriving DecidableEq, Repr, Inhabited

/-- The number of bytes of a width. -/
def widthBytes : Width → Nat
  | .w1 => 1
  | .w2 => 2
  | .w4 => 4
  | .w8 => 8

/-- A Load: it reads `width` bytes at `addr` and completes with them: `rd` receives `result v` of the value `v` read, and
the next instruction is at `nextPc`. How the value fills the register is the base set's (20 R65). -/
structure LoadOp where
  addr   : Word
  width  : Width
  rd     : RegIx
  result : BitVec 64 → Word
  nextPc : Word
deriving Inhabited

/-- A Store: it writes the low `width` bytes of `value` at `addr`. -/
structure StoreOp where
  addr   : Word
  width  : Width
  value  : BitVec 64
  nextPc : Word
deriving Inhabited

/-- An AMO: it reads `v`, gives `rd` the value `result v`, and writes `stored v` in its place. -/
structure AmoOp where
  addr   : Word
  width  : Width
  rd     : RegIx
  result : BitVec 64 → Word
  stored : BitVec 64 → BitVec 64
  nextPc : Word
deriving Inhabited

/-- What a faulting access leaves undetermined: a destination register, and bytes of memory (42 R142 to R144). -/
structure Spoilt where
  reg   : Option RegIx
  bytes : Option (Word × Width)
deriving Inhabited

/-- The spoilt register, if any, receives a draw. -/
def State.spoilReg (s : State) : Option RegIx → State
  | some rd => s.setReg rd (s.draw 0)
  | none => s

/-- The spoilt bytes, if any, become draws. -/
def State.spoilBytes (s : State) : Option (Word × Width) → State
  | some (a, w) => s.store a (widthBytes w) (s.drawBytes 1)
  | none => s

/-- The spoilt register and bytes become draws (42 R142 to R144, 20 R65). -/
def State.spoil (s : State) (p : Spoilt) : State := ((s.spoilReg p.reg).spoilBytes p.bytes).drew 2

/-- Go on at `t` (20 R64: a target with bit 0 cleared where "C" is configured). -/
def State.goto (s : State) (t : Word) : State := { s with pc := s.target t }

/-- The kinds of access an access error of which has this code: a Load for code 5, a Store or an AMO, where there are
AMOs, for code 7 (60 R167, R169). -/
def State.faultKinds (s : State) : AsyncCode → List AccessKind
  | .load => [.load]
  | .store => if s.cfg.hasA then [.store, .amo] else [.store]

/-- Whether an access of a kind and width gets as far as its access error: no breakpoint hits it, it is aligned, and
`AccessFault` holds (42 R142 to R144). -/
def State.suffersErrorAs (s : State) (k : AccessKind) (a : Word) (w : Width) : Bool :=
  !s.hwBreak k a && !a.misaligned (widthBytes w) && s.accessFault k a (widthBytes w)

/-- Whether some access at this address suffers an access error of this code: only then can it be added to
`pending_faults` (10 R37, 60 R175). -/
def State.suffersError (s : State) (c : AsyncCode) (a : Word) : Bool :=
  (s.faultKinds c).any fun k => [Width.w1, .w2, .w4, .w8].any (s.suffersErrorAs k a)

/-- An access that suffers an access error (42 R142, R143): a free choice between taking the exception at the access
itself and posting it, the instruction then completing (log 9). -/
def State.accessError (s : State) (c : AsyncCode) (a : Word) (p : Spoilt) (nextPc : Word) : State :=
  if (s.draw 0).getLsbD 0 then ((s.drew 1).spoil p).raise c.exc a
  else (((s.drew 1).spoil p).post ⟨c, a⟩).goto nextPc

/-- The Load class (42 R142). -/
def State.loadClass (s : State) (op : LoadOp) : State :=
  if s.hwBreak .load op.addr then s.raise .breakpoint op.addr
  else if op.addr.misaligned (widthBytes op.width) then s.raise .loadAddrMisaligned op.addr
  else if s.accessFault .load op.addr (widthBytes op.width) then
    s.accessError .load op.addr ⟨some op.rd, none⟩ op.nextPc
  else (s.setReg op.rd (op.result (s.load op.addr (widthBytes op.width)))).goto op.nextPc

/-- The Store class (42 R143). -/
def State.storeClass (s : State) (op : StoreOp) : State :=
  if s.hwBreak .store op.addr then s.raise .breakpoint op.addr
  else if op.addr.misaligned (widthBytes op.width) then s.raise .storeAddrMisaligned op.addr
  else if s.accessFault .store op.addr (widthBytes op.width) then
    s.accessError .store op.addr ⟨none, some (op.addr, op.width)⟩ op.nextPc
  else (s.store op.addr (widthBytes op.width) op.value).goto op.nextPc

/-- The AMO class (42 R144): the Store codes, for the read part as for the write part. The spec does not say with which
kind `HwBreak` is asked for an AMO; it is asked with `amo` alone, so a breakpoint of kind `store` or `load` does not hit
one. DESIGN CHOICE (log 42). -/
def State.amoClass (s : State) (op : AmoOp) : State :=
  if s.hwBreak .amo op.addr then s.raise .breakpoint op.addr
  else if op.addr.misaligned (widthBytes op.width) then s.raise .storeAddrMisaligned op.addr
  else if s.accessFault .amo op.addr (widthBytes op.width) then
    s.accessError .store op.addr ⟨some op.rd, some (op.addr, op.width)⟩ op.nextPc
  else
    ((s.setReg op.rd (op.result (s.load op.addr (widthBytes op.width)))).store op.addr (widthBytes op.width)
      (op.stored (s.load op.addr (widthBytes op.width)))).goto op.nextPc

end Sys2Proof.Machine
end

