-- ==== Sys2Proof/Machine/Base.lean ====
section
/-! DEFINITION. The base instruction set as the spec has it: one open parameter `BaseStep` behind the interface of 00
rule R8, and the predicate `IsIllegal` (spec 30 rules R84, R86, 42 rule R141). -/

namespace Sys2Proof

namespace Machine

/-- The architectural state `BaseStep` is given, and no more: `pending_faults`, the fault reporter and the model's own
fields are not in it (00 R8, 10 R37). -/
structure ArchState where
  pc      : Word
  x       : Vector Word 32
  mie     : Bool
  mpie    : Bool
  mpp     : BitVec PRIV_BITS
  typ     : Word
  ptyp    : Word
  exccode : Word
  intFlag : Bool
  mepc    : Word
  mtval   : Word
  mtvec   : Word
  mem     : Memory
deriving DecidableEq, Repr

/-- The part of the state a program can see. -/
def State.arch (s : State) : ArchState where
  pc := s.pc
  x := s.x
  mie := s.mie
  mpie := s.mpie
  mpp := s.mpp
  typ := s.typ
  ptyp := s.ptyp
  exccode := s.exccode
  intFlag := s.intFlag
  mepc := s.mepc
  mtval := s.mtval
  mtvec := s.mtvec
  mem := s.mem

/-- The exceptions of 60 R162 to R171 as `BaseStep` names them: the environment call is that of the mode it is made in
(60 R170, R171). -/
inductive BaseExc where
  | instrAddrMisaligned
  | instrAccessFault
  | illegalInstruction
  | breakpoint
  | loadAddrMisaligned
  | loadAccessFault
  | storeAddrMisaligned
  | storeAccessFault
  | environmentCall
deriving DecidableEq, Repr, Inhabited

/-- The CSR fields a CSR access can change (10 R20; the sub-mode moves only by trap entry and `mret`, 60 R201). -/
structure CsrFields where
  mie     : Bool
  mpie    : Bool
  mpp     : BitVec PRIV_BITS
  exccode : Word
  intFlag : Bool
  mepc    : Word
  mtval   : Word
  mtvec   : Word
deriving DecidableEq, Repr, Inhabited

/-- A next state of `BaseStep`: the pc, the whole register file, the bytes written in their order, and the CSR fields,
where the instruction is one that can reach them (10 R41; log 11). -/
structure BaseNext where
  pc     : Word
  x      : Vector Word 32
  writes : List (Word × Byte)
  csrs   : Option CsrFields
deriving Inhabited

/-- What `BaseStep` answers for one instruction (00 R8): (a) a next state; (b) one exception; (c) a next state and the
posting of an imprecise fault; or the Load, Store or AMO access through which an instruction of one of those classes
meets the exception mechanism (42 R142 to R144). -/
inductive BaseAnswer where
  | next (n : BaseNext)
  | raise (e : BaseExc) (tval : Word) (spoilt : Spoilt)
  | nextPost (n : BaseNext) (c : AsyncCode) (addr : Word) (spoilt : Spoilt)
  | load (op : LoadOp)
  | store (op : StoreOp)
  | amo (op : AmoOp)
deriving Inhabited

/-! The words of an answer are cut to the machine's widths: every value a step of the base set gives is an `XLEN`-bit
value (00 R7, R10). -/

def CsrFields.fit (cfg : Platform) (c : CsrFields) : CsrFields :=
  { c with
    exccode := c.exccode.low cfg.exccodeBits
    mepc := c.mepc.low cfg.xlen, mtval := c.mtval.low cfg.xlen, mtvec := c.mtvec.low cfg.xlen }

def BaseNext.fit (cfg : Platform) (n : BaseNext) : BaseNext :=
  { n with pc := n.pc.low cfg.xlen, x := n.x.map (·.low cfg.xlen), csrs := n.csrs.map (·.fit cfg) }

def LoadOp.fit (cfg : Platform) (op : LoadOp) : LoadOp :=
  { op with
    addr := op.addr.low cfg.xlen, result := fun v => (op.result v).low cfg.xlen, nextPc := op.nextPc.low cfg.xlen }

def StoreOp.fit (cfg : Platform) (op : StoreOp) : StoreOp :=
  { op with addr := op.addr.low cfg.xlen, nextPc := op.nextPc.low cfg.xlen }

def AmoOp.fit (cfg : Platform) (op : AmoOp) : AmoOp :=
  { op with
    addr := op.addr.low cfg.xlen, result := fun v => (op.result v).low cfg.xlen, nextPc := op.nextPc.low cfg.xlen }

def BaseAnswer.fit (cfg : Platform) : BaseAnswer → BaseAnswer
  | .next n => .next (n.fit cfg)
  | .raise e tval p => .raise e (tval.low cfg.xlen) p
  | .nextPost n c a p => .nextPost (n.fit cfg) c (a.low cfg.xlen) p
  | .load op => .load (op.fit cfg)
  | .store op => .store (op.fit cfg)
  | .amo op => .amo (op.fit cfg)

end Machine

/-- `BaseStep` (00 R8): the answer for an instruction word in a mode and an architectural state, about which nothing is
known. A 2-byte instruction is its parcel zero-extended. The last argument counts the base instructions run, so that two
executions of one instruction may be answered differently (log 11). -/
opaque Config.baseStep : Platform → BitVec 32 → Mode → Machine.ArchState → Nat → Machine.BaseAnswer

namespace Machine

/-- The state with a new register file; `x0` stays zero (10 R23). -/
def State.withRegs (s : State) (x' : Vector Word 32) : State := { s with x := x'.set 0 0 }

/-- The state with bytes written by the program, one after another (20 R68, R71). -/
def State.poke (s : State) : List (Word × Byte) → State
  | [] => s
  | (a, b) :: ws => (s.store a 1 (b.setWidth 64)).poke ws

/-- A CSR access word: SYSTEM with `funct3` neither 000 nor 100 (30 R83). `BaseStep` is only given one whose CSR is none
of the six (41 R120). -/
def isCsrWord (w : BitVec 32) : Bool :=
  opcodeOf w == opcodeSystem && funct3Of w != 0#3 && funct3Of w != 4#3

/-- Whether the instruction `w` can change the fields of the six CSRs: these are reached only by the CSR access
instructions (10 R41) and never from User Mode (10 R35). -/
def State.reachesCsrs (s : State) (w : BitVec 32) : Bool := isCsrWord w && s.priv == .machine

/-- The state with new CSR fields, where there are any. -/
def State.withCsrs (s : State) : Option CsrFields → State
  | none => s
  | some c =>
    { s with
      mie := c.mie, mpie := c.mpie, mpp := c.mpp, exccode := c.exccode, intFlag := c.intFlag
      mepc := c.mepc, mtval := c.mtval, mtvec := c.mtvec }

/-- The effect of a next state that `BaseStep` answers for `w`, but for its pc. CSR fields named by an instruction that
cannot reach them change nothing (log 11). -/
def State.takeNext (s : State) (w : BitVec 32) (n : BaseNext) : State :=
  ((s.withRegs n.x).poke n.writes).withCsrs (if s.reachesCsrs w then n.csrs else none)

/-- Whether a jump to the target raises code 0 itself: the switch of decision D27 is set, there is no "C" extension, and
the target is misaligned (42 R140; log 17). -/
def State.jumpMisaligned (s : State) (target : Word) : Bool :=
  s.cfg.misalignedAtJump && !s.cfg.hasC && target.misaligned 4

/-- Complete a base instruction. With the switch of decision D27 set and no "C" extension a misaligned target raises code
0 here, with `mepc` this instruction's pc and `mtval` the target (42 R140; log 17). -/
def State.completeBase (s : State) (w : BitVec 32) (n : BaseNext) : State :=
  if s.jumpMisaligned n.pc then s.raise .instrAddrMisaligned n.pc
  else (s.takeNext w n).goto n.pc

/-- An exception `BaseStep` raises at the instruction `w` (00 R8 (b)). For the synchronous codes nothing else changes (60
R185); for codes 5 and 7 the spoilt register and bytes are draws (42 R142 to R144). For an illegal instruction `mtval`
is its encoding (30 R87, 60 R164). Code 0 is never raised with "C" (60 R162): an answer that names it there is no answer
`BaseStep` can give, and counts as Illegal instruction (log 11). -/
def State.raiseBase (s : State) (w : BitVec 32) (e : BaseExc) (tval : Word) (p : Spoilt) : State :=
  match e with
  | .instrAddrMisaligned =>
    if s.cfg.hasC then s.raise .illegalInstruction (zext w) else s.raise .instrAddrMisaligned tval
  | .instrAccessFault => s.raise .instrAccessFault tval
  | .illegalInstruction => s.raise .illegalInstruction (zext w)
  | .breakpoint => s.raise .breakpoint tval
  | .loadAddrMisaligned => s.raise .loadAddrMisaligned tval
  | .loadAccessFault => (s.spoil p).raise .loadAccessFault tval
  | .storeAddrMisaligned => s.raise .storeAddrMisaligned tval
  | .storeAccessFault => (s.spoil p).raise .storeAccessFault tval
  | .environmentCall => s.raise (ecallCode s.priv) tval

/-- The effect of an answer of `BaseStep` for the word `w`. An AMO where none exists (`HAS_A` false) is an illegal
instruction (log 22). A fault is posted only where an access at its address suffers an access error of its code (10
R37, 60 R175), and not by a jump that takes code 0 itself, the smaller code (60 R174); an answer that names any other
fault is its next state alone (log 43). An answer that raises code 5 or 7 at the instruction is taken as it is (00 R8
(b)), with no test of `AccessFault`: DESIGN CHOICE (log 43). -/
def State.applyAnswer (s : State) (w : BitVec 32) : BaseAnswer → State
  | .next n => s.completeBase w n
  | .raise e tval p => s.raiseBase w e tval p
  | .nextPost n c a p =>
    if s.suffersError c a && !s.jumpMisaligned n.pc then (((s.takeNext w n).spoil p).post ⟨c, a⟩).goto n.pc
    else s.completeBase w n
  | .load op => s.loadClass op
  | .store op => s.storeClass op
  | .amo op => if s.cfg.hasA then s.amoClass op else s.raise .illegalInstruction (zext w)

/-- One more base instruction has run. -/
def State.countBase (s : State) : State := { s with baseRuns := s.baseRuns + 1 }

/-- What `BaseStep` answers for the word `w` here. -/
def State.baseAnswer (s : State) (w : BitVec 32) : BaseAnswer :=
  (Config.baseStep s.cfg w s.priv s.arch s.baseRuns).fit s.cfg

/-- Run an instruction of the base set. -/
def State.runBase (s : State) (w : BitVec 32) : State := s.countBase.applyAnswer w (s.baseAnswer w)

/-- `IsIllegal(word, priv)` for a word that is none of the nine (30 R86): (a) SYSTEM with `funct3` = 100; (b) SYSTEM with
`funct3` = 000 that `BaseStep` does not claim; (e) the all-zero word or parcel; and the open rest of the predicate
(log 12). Members (c) and (d) are in the meanings of `mret` and the CSR instructions. -/
def isIllegal (cfg : Platform) (w : BitVec 32) (m : Mode) : Bool :=
  (w.extractLsb' 0 7 == 0x73#7 && w.extractLsb' 12 3 == 4#3)
    || (w.extractLsb' 0 7 == 0x73#7 && w.extractLsb' 12 3 == 0#3 && !cfg.baseClaims.contains w)
    || w == 0
    || Config.isIllegalOther w m

/-- A word that is none of the nine: Illegal instruction with the word in `mtval`, or the base set's meaning (30 R84,
R87, 42 R141). -/
def State.runOther (s : State) (w : BitVec 32) : State :=
  if isIllegal s.cfg w s.priv then s.raise .illegalInstruction (zext w) else s.runBase w

/-- The 2-byte breakpoint, which exists with "C" (30 R80; log 21). -/
def isCompressedBreakpoint (cfg : Platform) (w : BitVec 32) : Bool := cfg.hasC && w == 0x9002#32

/-- The step of a word that is none of the nine: the 2-byte breakpoint is refused (30 R80). -/
def stepOther (w : BitVec 32) (s : State) : Host.Outcome State Fault Refusal :=
  if isCompressedBreakpoint s.cfg w then .refused .compressedBreakpoint else .next (s.runOther w)

end Machine
end Sys2Proof
end

