-- ==== Sys2Proof/Machine/Operands.lean ====
section
/-! DEFINITION. The CSR operand: which CSR an address names, the access check, reading and writing (spec 10 rules R24,
R35, 41 rules R120, R128, R129). The addresses and field positions are the spec's configuration values (log 28). -/

namespace Sys2Proof.Machine

/-- The six CSRs the source names (10 R24). -/
inductive Csr where
  | mstatus
  | mtvec
  | mepc
  | mcause
  | mtval
  | msubm
deriving DecidableEq, Repr

/-- The CSR at an address, if it is one of the six (10 R24). -/
def csrAt (l : CsrLayout) (a : BitVec 12) : Option Csr :=
  if a = l.mstatus then some .mstatus
  else if a = l.mtvec then some .mtvec
  else if a = l.mepc then some .mepc
  else if a = l.mcause then some .mcause
  else if a = l.mtval then some .mtval
  else if a = l.msubm then some .msubm
  else none

/-- The access check of 41 R120 for an existing CSR: (a) `csr[9:8]`, the lowest privilege the CSR allows, is not above
`priv`; (b) a CSR with `csr[11:10]` = 11 is not written. -/
def csrAccessOk (cfg : Platform) (a : BitVec 12) (m : Mode) (writes : Bool) : Bool :=
  decide ((a.extractLsb' 8 2).toNat ≤ (modeBits cfg m).toNat) && !(writes && a.extractLsb' 10 2 == 3#2)

/-- `CsrRead(csr)` (41 R128): the register, or its named fields with the draw `d` in every other bit. -/
def State.csrValue (s : State) (c : Csr) (d : Word) : Word :=
  match c with
  | .mstatus => packMstatus s.cfg s.mpp s.mpie s.mie d
  | .mtvec => s.mtvec
  | .mepc => s.mepc
  | .mcause => packMcause s.cfg s.intFlag s.exccode d
  | .mtval => s.mtval
  | .msubm => packMsubm s.cfg s.ptyp s.typ d

/-- `CsrWrite(csr, v)` (41 R129); `none` where the model refuses the write. -/
def State.csrWrite (s : State) (c : Csr) (v : Word) : Option State :=
  match c with
  | .mstatus => some { s with
      mie := mieOf s.cfg v
      mpie := mpieOf s.cfg v
      mpp := mppOf s.cfg v }
  | .mtvec => some { s with mtvec := v &&& s.cfg.mtvecMask }
  | .mepc => some { s with mepc := v &&& s.cfg.mepcMask }
  | .mcause => some { s with
      exccode := exccodeOf s.cfg v
      intFlag := intFlagOf s.cfg v }
  | .mtval => some { s with mtval := v }
  | .msubm => none

end Sys2Proof.Machine
end

