-- ==== Sys2Proof/Machine/CsrAccess.lean ====
section
/-! DEFINITION. The meanings of the six CSR access instructions (spec 41 rules R120 to R127). -/

namespace Sys2Proof.Machine

/-- The shape of all six. `i` is the whole instruction: a CSR that is none of the six hands it to `BaseStep`, and a
failed access check records its word (41 R120). `src` is the operand, read before anything is written; `newValue` the
value written, given the value read. The CSR is read when `reads` holds, and `rd` then receives the value; it is written
when `writes` holds. -/
def State.csrAccess (s : State) (i : Instr) (rd : RegIx) (csr : BitVec 12) (reads writes : Bool)
    (newValue : Word → Word) : Host.Outcome State Fault Refusal :=
  match csrAt s.cfg.layout csr with
  | none => .next (s.runBase (encode i))
  | some c =>
    if csrAccessOk s.cfg csr s.priv writes then
      let t := s.csrValue c (s.draw 0)
      let s1 := if reads then s.drew 1 else s
      match if writes then s1.csrWrite c (newValue t) else some s1 with
      | none => .refused .msubmWrite
      | some s2 =>
        let s3 := if reads then s2.setReg rd t else s2
        .next { s3 with pc := s.nextPc }
    else .next (s.raise .illegalInstruction (zext (encode i)))

/-- A 5-bit immediate zero-extended (30 R82). -/
def uimmWord (uimm : Nat) : Word := BitVec.ofNat WORD_BITS uimm

/-- `csrrw` (41 R121): write `x[rs1]`; the CSR is read only when `rd` is not `x0`. -/
def execCsrrw (rd : RegIx) (csr : BitVec 12) (rs1 : RegIx) (s : State) : Host.Outcome State Fault Refusal :=
  s.csrAccess (.csrrw rd csr rs1) rd csr (rd != 0) true (fun _ => s.reg rs1)

/-- `csrrs` (41 R122): set the bits of `x[rs1]`; with `rs1` = `x0` nothing is written. -/
def execCsrrs (rd : RegIx) (csr : BitVec 12) (rs1 : RegIx) (s : State) : Host.Outcome State Fault Refusal :=
  s.csrAccess (.csrrs rd csr rs1) rd csr true (rs1 != 0) (fun t => t ||| s.reg rs1)

/-- `csrrc` (41 R123): clear the bits of `x[rs1]`; with `rs1` = `x0` nothing is written. -/
def execCsrrc (rd : RegIx) (csr : BitVec 12) (rs1 : RegIx) (s : State) : Host.Outcome State Fault Refusal :=
  s.csrAccess (.csrrc rd csr rs1) rd csr true (rs1 != 0) (fun t => t &&& ~~~(s.reg rs1))

/-- `csrrwi` (41 R124): write `uimm`; the CSR is read only when `rd` is not `x0`. -/
def execCsrrwi (rd : RegIx) (csr : BitVec 12) (uimm : Nat) (s : State) : Host.Outcome State Fault Refusal :=
  s.csrAccess (.csrrwi rd csr uimm) rd csr (rd != 0) true (fun _ => uimmWord uimm)

/-- `csrrsi` (41 R125): set the bits of `uimm`; with `uimm` = 0 nothing is written. -/
def execCsrrsi (rd : RegIx) (csr : BitVec 12) (uimm : Nat) (s : State) : Host.Outcome State Fault Refusal :=
  s.csrAccess (.csrrsi rd csr uimm) rd csr true (uimm != 0) (fun t => t ||| uimmWord uimm)

/-- `csrrci` (41 R126): clear the bits of `uimm`; with `uimm` = 0 nothing is written. -/
def execCsrrci (rd : RegIx) (csr : BitVec 12) (uimm : Nat) (s : State) : Host.Outcome State Fault Refusal :=
  s.csrAccess (.csrrci rd csr uimm) rd csr true (uimm != 0) (fun t => t &&& ~~~(uimmWord uimm))

end Sys2Proof.Machine
end

