-- ==== Sys2Proof/Machine/Fetch.lean ====
section
/-! DEFINITION. Instruction fetch (spec 42 rule R140, 30 rule R80). -/

namespace Sys2Proof.Machine

/-- What a fetch gives. -/
inductive Fetched where
  | trap (e : ExcCode) (tval : Word)
  | bytes (bs : List Byte)
  | modified
deriving DecidableEq, Repr

/-- The length in bytes of the instruction at `pc`: 4 without "C"; with it, told by the low two bits of the first byte
(30 R80; log 15). -/
def State.fetchLen (s : State) : Nat :=
  if s.cfg.hasC && !isLong (s.mem.byte (s.pc.toNat % 2 ^ s.cfg.xlen)) then 2 else 4

/-- Fetch at `pc`: code 0 before code 1 (42 R140, 60 R174), then the bytes, which are refused if a Store or AMO wrote
one of them (20 R71). Code 3, the breakpoint at the pc, stands against the exceptions of the instruction fetched and is
tested when that is known (`State.takesBreakpoint`; log 40). -/
def State.fetch (s : State) : Fetched :=
  if s.pc.misaligned 4 && !s.cfg.hasC then .trap .instrAddrMisaligned s.pc
  else if s.accessFault .fetch s.pc s.fetchLen then .trap .instrAccessFault s.pc
  else if (s.addrs s.pc s.fetchLen).any (fun a => s.written.contains a) then .modified
  else .bytes (s.bytesAt s.pc s.fetchLen)

end Sys2Proof.Machine
end

