-- ==== Sys2Proof/Machine/Breakpoint.lean ====
section
/-! DEFINITION. A hardware breakpoint at a fetch (code 3, spec 42 rules R140, R146) against the exceptions of a smaller
code that the fetched instruction itself meets: the smallest code wins (60 R174, 90 C7, 92 D16; log 40). -/

namespace Sys2Proof.Machine

/-- Whether an exception `BaseStep` raises has a smaller code than Breakpoint. -/
def BaseExc.beforeBreakpoint : BaseExc → Bool
  | .instrAddrMisaligned => true
  | .instrAccessFault => true
  | .illegalInstruction => true
  | .breakpoint => false
  | .loadAddrMisaligned => false
  | .loadAccessFault => false
  | .storeAddrMisaligned => false
  | .storeAccessFault => false
  | .environmentCall => false

/-- Whether an answer of `BaseStep` takes an exception of a smaller code than Breakpoint (`State.applyAnswer`). -/
def State.answerBeforeBreakpoint (s : State) : BaseAnswer → Bool
  | .next n => s.jumpMisaligned n.pc
  | .raise e _ _ => e.beforeBreakpoint
  | .nextPost n _ _ _ => s.jumpMisaligned n.pc
  | .load _ => false
  | .store _ => false
  | .amo _ => !s.cfg.hasA

/-- The same of a word run by `BaseStep`. -/
def State.baseBeforeBreakpoint (s : State) (w : BitVec 32) : Bool := s.answerBeforeBreakpoint (s.baseAnswer w)

/-- The same of a CSR instruction: it fails its access check, or `BaseStep` has its CSR (41 R120). -/
def State.csrBeforeBreakpoint (s : State) (i : Instr) (csr : BitVec 12) (writes : Bool) : Bool :=
  match csrAt s.cfg.layout csr with
  | none => s.baseBeforeBreakpoint (encode i)
  | some _ => !csrAccessOk s.cfg csr s.priv writes

/-- The same of an instruction of the table: it is illegal where it stands (30 R86 (c), (d)), or its word is
`BaseStep`'s. -/
def State.instrBeforeBreakpoint (s : State) (i : Instr) : Bool :=
  match i with
  | .ecall => false
  | .ebreak => false
  | .mret => s.priv == .user
  | .csrrw _ csr _ => s.csrBeforeBreakpoint i csr true
  | .csrrs _ csr rs1 => s.csrBeforeBreakpoint i csr (rs1 != 0)
  | .csrrc _ csr rs1 => s.csrBeforeBreakpoint i csr (rs1 != 0)
  | .csrrwi _ csr _ => s.csrBeforeBreakpoint i csr true
  | .csrrsi _ csr uimm => s.csrBeforeBreakpoint i csr (uimm != 0)
  | .csrrci _ csr uimm => s.csrBeforeBreakpoint i csr (uimm != 0)

/-- The same of a word that is none of the nine. -/
def State.otherBeforeBreakpoint (s : State) (w : BitVec 32) : Bool :=
  !isCompressedBreakpoint s.cfg w && (isIllegal s.cfg w s.priv || s.baseBeforeBreakpoint w)

/-- Whether the instruction of the fetched bytes takes an exception of a smaller code than Breakpoint (60 R174). -/
def State.beforeBreakpoint (s : State) (bs : List Byte) : Bool :=
  match decode bs with
  | .ok (i, _) => s.instrBeforeBreakpoint i
  | .error _ => s.otherBeforeBreakpoint (wordOfBytes bs)

/-- Whether a breakpoint at the fetch of these bytes is taken: one is set at the pc, and the instruction takes no
exception of a smaller code (42 R140, 60 R174). -/
def State.takesBreakpoint (s : State) (bs : List Byte) : Bool := s.hwBreak .fetch s.pc && !s.beforeBreakpoint bs

end Sys2Proof.Machine
end

