-- ==== Sys2Proof/Machine/System.lean ====
section
/-! DEFINITION. The meanings of `ecall`, `ebreak` and `mret` (spec 40 rules R100 to R102). -/

namespace Sys2Proof.Machine

/-- `ecall` (40 R101): code 8 from User Mode, 11 from Machine Mode; `mepc` is its own pc, `mtval` a draw. -/
def execEcall (s : State) : Host.Outcome State Fault Refusal := .next (s.raiseDraw (ecallCode s.priv))

/-- `ebreak` (40 R100): code 3 in either mode; `mepc` is its own pc, `mtval` a draw. -/
def execEbreak (s : State) : Host.Outcome State Fault Refusal := .next (s.raiseDraw .breakpoint)

/-- `mret` (40 R102): outside Machine Mode an illegal instruction; with `mstatus.MPP` no configured mode the model has
no meaning; else `TrapReturn` (60 R195). -/
def execMret (s : State) : Host.Outcome State Fault Refusal :=
  match s.priv with
  | .user => .next (s.raise .illegalInstruction (zext (encode .mret)))
  | .machine =>
    match configuredMode s.cfg s.mpp with
    | none => .fault .mretBadMpp
    | some m => .next (s.trapReturn m)

end Sys2Proof.Machine
end

