-- ==== Sys2Proof/Machine/Step.lean ====
section
/-! DEFINITION. One step of the core (spec 00 rule R16): the fault reporter delivers, or the instruction at the pc is
fetched, decoded and executed. -/

namespace Sys2Proof.Machine

/-- Fetch at the pc, decode, execute, or take the breakpoint at the pc where the instruction meets no exception of a
smaller code (42 R140, R141, 30 R84, 60 R174). -/
def runAt (s : State) : Host.Outcome State Fault Refusal :=
  match s.fetch with
  | .trap e tval => .next (s.raise e tval)
  | .modified => .refused .selfModifiedCode
  | .bytes bs =>
    if s.takesBreakpoint bs then .next (s.raise .breakpoint s.pc)
    else
      match decode bs with
      | .ok (i, _) => exec i s
      | .error _ => stepOther (wordOfBytes bs) s

/-- One step (00 R16, 60 R175). A step at which the core would take an interrupt or an NMI is refused (60 R205; log
41). -/
def step (s : State) : Host.Outcome State Fault Refusal :=
  if s.interrupted then .refused .interruptTaken
  else if s.reports then .next s.deliver else runAt s.tick

/-- `s` with the instruction of these bits, numbered as the opcode table numbers them, at the pc: its four bytes are
loaded, not stored by the program, so the pc's bytes leave `written` (log 32). -/
def State.withFetchWord (s : State) (nbits w : Nat) : State :=
  { s with
    mem := s.mem.writeBytes (s.addrs s.pc 4) (bytesOfWord (tableWord nbits w))
    written := s.written.filter (fun a => !(s.addrs s.pc 4).contains a) }

end Sys2Proof.Machine
end

