-- ==== Sys2Proof/Safety.lean ====
section
/-! DEFINITION. The terms in which claims speak of a run and of two states: the end of a run (spec 70 rule R229), the
premise on interrupts (60 R205), what a step keeps, what it is to have taken an exception (60 R184), and the invariant
of the machine. -/

namespace Sys2Proof.Safety

open Sys2Proof.Machine

/-- `n` steps lead from `s` to `t` with no stop on the way. -/
def Runs (n : Nat) (s t : State) : Prop := Sys2Proof.core.run n s = .next t

/-- The core is at the address `e` with no fault pending (70 R229). -/
def EndsAt (e : Word) (s : State) : Prop := s.pc = e ∧ s.pendingFaults = []

/-- The run from `s` that ends at the address `e` ends after `n` steps, in `t`: the FIRST time the pc is there with no
fault pending (70 R229, decision D26). It says nothing of what the chip does there. -/
def RunEnds (e : Word) (n : Nat) (s t : State) : Prop :=
  Runs n s t ∧ EndsAt e t ∧ ∀ k < n, ∀ u, Runs k s u → ¬ EndsAt e u

/-- The premise `NoInterrupts` of 60 R205 for one step: no interrupt and no NMI is taken at it (log 25, 41). -/
def NoInterrupts (s : State) : Prop := s.interrupted = false

/-- `NoInterrupts` at each of the first `n` steps of the run from `s`. -/
def NoInterruptsDuring (n : Nat) (s : State) : Prop := ∀ k < n, ∀ u, Runs k s u → NoInterrupts u

/-- What discharges the premise: interrupts globally off and no NMI source (60 R203, R205). -/
def InterruptsOff (s : State) : Prop := s.mie = false ∧ s.nmiLine = false

/-- `t` has the control state of `s`: the platform, the Privilege Mode and the six CSRs. -/
structure SameControl (s t : State) : Prop where
  cfg     : t.cfg = s.cfg
  priv    : t.priv = s.priv
  mie     : t.mie = s.mie
  mpie    : t.mpie = s.mpie
  mpp     : t.mpp = s.mpp
  typ     : t.typ = s.typ
  ptyp    : t.ptyp = s.ptyp
  exccode : t.exccode = s.exccode
  intFlag : t.intFlag = s.intFlag
  mepc    : t.mepc = s.mepc
  mtval   : t.mtval = s.mtval
  mtvec   : t.mtvec = s.mtvec

/-- `t` has the memory of `s`, byte by byte, the same pending faults and the same record of stores. -/
structure SameMemory (s t : State) : Prop where
  bytes   : ∀ a, t.mem.read a = s.mem.read a
  pending : t.pending = s.pending
  written : t.written = s.written

/-- What taking an exception and returning from one leave alone (60 R186, R196, R199): the general registers, memory,
`mtvec`, what is pending, and the platform. -/
structure SameContext (s t : State) : Prop where
  regs   : ∀ i, t.reg i = s.reg i
  memory : SameMemory s t
  mtvec  : t.mtvec = s.mtvec
  cfg    : t.cfg = s.cfg

/-- `t` is at the pc a control transfer of `s` to `v` reaches: with "C" bit 0 of the target is cleared (20 R64, log
16), so it is exactly `v` where `v` is even or "C" is absent. -/
def Reaches (s t : State) (v : Word) : Prop :=
  (s.cfg.hasC = true → t.pc = v.clearBit0) ∧ (s.cfg.hasC = false → t.pc = v)
    ∧ (v.getLsbD 0 = false → t.pc = v)

/-- `t` has taken the exception `e` in `s`, reported at `epc`: every update of 60 R184 but the value of `mtval`. -/
structure TookTrap (s t : State) (e : ExcCode) (epc : Word) : Prop where
  pc      : Reaches s t (excEntryPc s.cfg s.mtvec)
  code    : t.exccode = codeBits e
  intFlag : t.intFlag = false
  mepc    : t.mepc = epc
  mpie    : t.mpie = s.mie
  mie     : t.mie = false
  mpp     : t.mpp = modeBits s.cfg s.priv
  priv    : t.priv = .machine
  ptyp    : t.ptyp = s.typ
  typ     : t.typ = s.cfg.submExc

/-- The step from `s` takes the exception `e` at the instruction at the pc, with `v` in `mtval`, and leaves the registers,
memory, `mtvec` and what is pending alone. -/
def StepTakes (s : State) (e : ExcCode) (v : Word) : Prop :=
  ∃ t, step s = .next t ∧ TookTrap s t e s.pc ∧ t.mtval = v ∧ (∀ i, t.reg i = s.reg i)
    ∧ (∀ a, t.mem.read a = s.mem.read a) ∧ t.mtvec = s.mtvec ∧ t.pendingFaults = s.pendingFaults

/-- An access at `a` suffers an access error of the code `c`: a Load for code 5, a Store or an AMO (where there are any)
for code 7, of a width that makes it aligned, that no breakpoint hits and for which `AccessFault` holds (42 R142 to
R144, 60 R167, R169). -/
def ErrorAt (s : State) (c : AsyncCode) (a : Word) : Prop :=
  ∃ (k : AccessKind) (w : Width),
    (c = .load ∧ k = .load ∨ c = .store ∧ (k = .store ∨ k = .amo ∧ s.cfg.hasA = true))
    ∧ s.hwBreak k a = false ∧ a.toNat % widthBytes w = 0 ∧ s.accessFault k a (widthBytes w) = true

/-- The exception that an exception of `BaseStep` is in a mode (60 R162 to R171). -/
def raisedCode (m : Mode) : BaseExc → ExcCode
  | .instrAddrMisaligned => .instrAddrMisaligned
  | .instrAccessFault => .instrAccessFault
  | .illegalInstruction => .illegalInstruction
  | .breakpoint => .breakpoint
  | .loadAddrMisaligned => .loadAddrMisaligned
  | .loadAccessFault => .loadAccessFault
  | .storeAddrMisaligned => .storeAddrMisaligned
  | .storeAccessFault => .storeAccessFault
  | .environmentCall => match m with
    | .user => .ecallFromU
    | .machine => .ecallFromM

/-- The memory of `s` with bytes written to it one after another (20 R68). -/
def memoryAfter (s : State) (writes : List (Word × Byte)) : Memory :=
  writes.foldl (fun m p => m.write (p.1.toNat % 2 ^ s.cfg.xlen) p.2) s.mem

/-- `t` has the CSR fields of `c`. -/
structure HasCsrs (t : State) (c : CsrFields) : Prop where
  mie     : t.mie = c.mie
  mpie    : t.mpie = c.mpie
  mpp     : t.mpp = c.mpp
  exccode : t.exccode = c.exccode
  intFlag : t.intFlag = c.intFlag
  mepc    : t.mepc = c.mepc
  mtval   : t.mtval = c.mtval
  mtvec   : t.mtvec = c.mtvec

/-- The CSR operand of an instruction, if it has one (30 R82). -/
def csrOperand : Instr → Option (BitVec 12)
  | .ecall => none
  | .ebreak => none
  | .mret => none
  | .csrrw _ csr _ => some csr
  | .csrrs _ csr _ => some csr
  | .csrrc _ csr _ => some csr
  | .csrrwi _ csr _ => some csr
  | .csrrsi _ csr _ => some csr
  | .csrrci _ csr _ => some csr

/-- The destination register of an instruction, if it has one (30 R82). -/
def destination : Instr → Option RegIx
  | .ecall => none
  | .ebreak => none
  | .mret => none
  | .csrrw rd _ _ => some rd
  | .csrrs rd _ _ => some rd
  | .csrrc rd _ _ => some rd
  | .csrrwi rd _ _ => some rd
  | .csrrsi rd _ _ => some rd
  | .csrrci rd _ _ => some rd

/-- Whether an instruction writes its CSR (the `writes` of 41 R121 to R126). -/
def writesCsr : Instr → Bool
  | .ecall => false
  | .ebreak => false
  | .mret => false
  | .csrrw _ _ _ => true
  | .csrrs _ _ rs1 => rs1 != 0
  | .csrrc _ _ rs1 => rs1 != 0
  | .csrrwi _ _ _ => true
  | .csrrsi _ _ uimm => uimm != 0
  | .csrrci _ _ uimm => uimm != 0

/-- User Mode is only ever the mode where it is configured (10 R22). -/
def ModeConfigured (s : State) : Prop := s.priv = .user → s.cfg.hasU = true

/-- With the "C" extension no misaligned pc arises: the pc is even (20 R64). -/
def PcEven (s : State) : Prop := s.cfg.hasC = true → s.pc.getLsbD 0 = false

/-- Every value has its width: the pc, the general registers, the CSRs and the pending addresses are `XLEN`-bit values,
`EXCCODE`, `TYP` and `PTYP` have the widths of 00 R7, and memory lies in the address space (10 R20 to R34, 20 R60). -/
structure WordsFit (s : State) : Prop where
  pc      : s.pc.Fits s.cfg.xlen
  x       : ∀ i : RegIx, s.x[i].Fits s.cfg.xlen
  typ     : s.typ.Fits s.cfg.submBits
  ptyp    : s.ptyp.Fits s.cfg.submBits
  exccode : s.exccode.Fits s.cfg.exccodeBits
  mepc    : s.mepc.Fits s.cfg.xlen
  mtval   : s.mtval.Fits s.cfg.xlen
  mtvec   : s.mtvec.Fits s.cfg.xlen
  mem     : s.mem.inSpace s.cfg.xlen
  pending : ∀ f ∈ s.pendingFaults, f.addr.Fits s.cfg.xlen

/-- The invariant of the machine: memory is in canonical form (20 R60), `x0` holds zero (10 R23), the mode is configured
(10 R22), the pc is even with "C" (20 R64), `pending_faults` is a set (10 R37), the widths and the layout of the CSRs are
ones the rules allow (00 R7, 10 R24 to R35), and every value has its width. -/
structure Inv (s : State) : Prop where
  memory : s.mem.wf
  x0     : s.x[0] = 0
  mode   : ModeConfigured s
  pc     : PcEven s
  faults : s.pendingFaults.Nodup
  platform : s.cfg.Valid
  words  : WordsFit s

end Sys2Proof.Safety
end

