-- ==== Sys2Proof/Certificates/Slice0/Obligations.lean ====
section
/-! DEFINITION. The statements for the provers, from the numbered rules of spec/. -/

open Sys2Proof Sys2Proof.Machine Sys2Proof.Safety

/-! ## Reset -/

/-- The one reset value the spec fixes, and the empty set of pending faults (10 R45). -/
def Obligations.ResetInMachineMode : Prop := State.reset.priv = .machine ∧ State.reset.pendingFaults = []

/-- The state after reset has the machine's invariant. Its pc, platform and memory are the model's choices (log 2 to
5, 28). -/
def Obligations.ResetHasInvariant : Prop := Inv State.reset

/-! ## Encoding -/

/-- Words of spec 95's vectors and programs decode to the instructions they stand for there. -/
def Obligations.VectorWordsDecode : Prop :=
  decodeWord 0x00000073 = some .ecall
  ∧ decodeWord 0x00100073 = some .ebreak
  ∧ decodeWord 0x30200073 = some .mret
  ∧ decodeWord 0x34129373 = some (.csrrw 6 0x341 5)
  ∧ decodeWord 0x342022F3 = some (.csrrs 5 0x342 0)
  ∧ decodeWord 0x3002B073 = some (.csrrc 0 0x300 5)
  ∧ decodeWord 0x34305073 = some (.csrrwi 0 0x343 0)
  ∧ decodeWord 0x34126073 = some (.csrrsi 0 0x341 4)
  ∧ decodeWord 0x30047073 = some (.csrrci 0 0x300 8)
  ∧ decodeWord 0x7C4022F3 = some (.csrrs 5 0x7C4 0)
  ∧ decodeWord 0x00004073 = none
  ∧ decodeWord 0x00202283 = none

/-- A word is the instruction of a row exactly when it agrees with the row's match under its mask (30 R83). -/
def Obligations.DecodeMatchesOpcodeTable : Prop :=
  ∀ w : BitVec 32,
    (decodeWord w = some .ecall ↔ w &&& 0xFFFFFFFF#32 = 0x00000073#32)
    ∧ (decodeWord w = some .ebreak ↔ w &&& 0xFFFFFFFF#32 = 0x00100073#32)
    ∧ (decodeWord w = some .mret ↔ w &&& 0xFFFFFFFF#32 = 0x30200073#32)
    ∧ ((∃ rd csr rs1, decodeWord w = some (.csrrw rd csr rs1)) ↔ w &&& 0x0000707F#32 = 0x00001073#32)
    ∧ ((∃ rd csr rs1, decodeWord w = some (.csrrs rd csr rs1)) ↔ w &&& 0x0000707F#32 = 0x00002073#32)
    ∧ ((∃ rd csr rs1, decodeWord w = some (.csrrc rd csr rs1)) ↔ w &&& 0x0000707F#32 = 0x00003073#32)
    ∧ ((∃ rd csr uimm, decodeWord w = some (.csrrwi rd csr uimm)) ↔ w &&& 0x0000707F#32 = 0x00005073#32)
    ∧ ((∃ rd csr uimm, decodeWord w = some (.csrrsi rd csr uimm)) ↔ w &&& 0x0000707F#32 = 0x00006073#32)
    ∧ ((∃ rd csr uimm, decodeWord w = some (.csrrci rd csr uimm)) ↔ w &&& 0x0000707F#32 = 0x00007073#32)

/-- The operands of a decoded instruction are the word's fields, `uimm` a number below 32 that is zero-extended; the
fields `rs1`, `rd` and `funct3` of `ecall`, `ebreak` and `mret` are zero and `funct12` tells them apart (30 R82). -/
def Obligations.OperandsAreFields : Prop :=
  ∀ (w : BitVec 32) (i : Instr), decodeWord w = some i →
    match i with
    | .ecall => w.extractLsb' 20 12 = 0x000#12 ∧ w.extractLsb' 15 5 = 0 ∧ w.extractLsb' 12 3 = 0
        ∧ w.extractLsb' 7 5 = 0
    | .ebreak => w.extractLsb' 20 12 = 0x001#12 ∧ w.extractLsb' 15 5 = 0 ∧ w.extractLsb' 12 3 = 0
        ∧ w.extractLsb' 7 5 = 0
    | .mret => w.extractLsb' 20 12 = 0x302#12 ∧ w.extractLsb' 15 5 = 0 ∧ w.extractLsb' 12 3 = 0
        ∧ w.extractLsb' 7 5 = 0
    | .csrrw rd csr rs1 => csr = w.extractLsb' 20 12 ∧ rd.val = (w.extractLsb' 7 5).toNat
        ∧ rs1.val = (w.extractLsb' 15 5).toNat
    | .csrrs rd csr rs1 => csr = w.extractLsb' 20 12 ∧ rd.val = (w.extractLsb' 7 5).toNat
        ∧ rs1.val = (w.extractLsb' 15 5).toNat
    | .csrrc rd csr rs1 => csr = w.extractLsb' 20 12 ∧ rd.val = (w.extractLsb' 7 5).toNat
        ∧ rs1.val = (w.extractLsb' 15 5).toNat
    | .csrrwi rd csr uimm => csr = w.extractLsb' 20 12 ∧ rd.val = (w.extractLsb' 7 5).toNat
        ∧ uimmWord uimm = (w.extractLsb' 15 5).setWidth WORD_BITS
    | .csrrsi rd csr uimm => csr = w.extractLsb' 20 12 ∧ rd.val = (w.extractLsb' 7 5).toNat
        ∧ uimmWord uimm = (w.extractLsb' 15 5).setWidth WORD_BITS
    | .csrrci rd csr uimm => csr = w.extractLsb' 20 12 ∧ rd.val = (w.extractLsb' 7 5).toNat
        ∧ uimmWord uimm = (w.extractLsb' 15 5).setWidth WORD_BITS

/-- Decoding the bytes of any well-formed instruction gives it back, whatever bytes follow. -/
def Obligations.DecodeOfEncode : Prop :=
  ∀ (i : Instr) (rest : List Byte), i.WellFormed = true → decode (bytesOfWord (encode i) ++ rest) = .ok (i, rest)

/-- Every word the table claims is the encoding of what it decodes to, so an instruction recorded by its encoding is
recorded by the word fetched. -/
def Obligations.EncodeOfDecode : Prop :=
  ∀ (w : BitVec 32) (i : Instr), decodeWord w = some i → encode i = w ∧ i.WellFormed = true

/-! ## General registers -/

/-- `x0` reads zero and ignores writes; a write to another register is read back and changes no other (10 R23). -/
def Obligations.GeneralRegisters : Prop :=
  ∀ (s : State) (i j : RegIx) (v : Word),
    s.reg 0 = 0 ∧ s.setReg 0 v = s ∧ (i ≠ 0 → (s.setReg i v).reg i = v) ∧ (j ≠ i → (s.setReg i v).reg j = s.reg j)

/-! ## Taking an exception and returning -/

/-- The codes of Table 3-1, all different (60 R162 to R171). -/
def Obligations.ExceptionCodeTable : Prop :=
  (codeBits .instrAddrMisaligned).toNat = 0 ∧ (codeBits .instrAccessFault).toNat = 1
  ∧ (codeBits .illegalInstruction).toNat = 2 ∧ (codeBits .breakpoint).toNat = 3
  ∧ (codeBits .loadAddrMisaligned).toNat = 4 ∧ (codeBits .loadAccessFault).toNat = 5
  ∧ (codeBits .storeAddrMisaligned).toNat = 6 ∧ (codeBits .storeAccessFault).toNat = 7
  ∧ (codeBits .ecallFromU).toNat = 8 ∧ (codeBits .ecallFromM).toNat = 11
  ∧ ∀ e f, codeBits e = codeBits f → e = f

/-- What `TrapEntry` writes to `mcause`, `mstatus` and `msubm`, and the mode it goes to, whatever the code and whatever
the mode before (60 R178, R181 to R183). -/
def Obligations.TrapEntryStatus : Prop :=
  ∀ (s : State) (e : ExcCode) (epc tval : Word),
    (s.trapEntry e epc tval).exccode = codeBits e ∧ (s.trapEntry e epc tval).intFlag = false
    ∧ (s.trapEntry e epc tval).mpie = s.mie ∧ (s.trapEntry e epc tval).mie = false
    ∧ (s.trapEntry e epc tval).mpp = modeBits s.cfg s.priv ∧ (s.trapEntry e epc tval).priv = .machine
    ∧ (s.trapEntry e epc tval).ptyp = s.typ ∧ (s.trapEntry e epc tval).typ = s.cfg.submExc

/-- `TrapEntry` (60 R184). The pc is `exc_entry_pc(mtvec)` as a control transfer reaches it (log 16): exactly it where
it is even or "C" is absent, and `mtvec` itself where its low 6 bits are zero (10 R33). -/
def Obligations.TrapEntryUpdates : Prop :=
  ∀ (s : State) (e : ExcCode) (epc tval : Word),
    TookTrap s (s.trapEntry e epc tval) e epc ∧ (s.trapEntry e epc tval).mtval = tval
    ∧ (s.mtvec.extractLsb' 0 6 = 0#6 → (s.trapEntry e epc tval).pc = s.mtvec)

/-- `TrapEntry` writes no general register, no memory and not `mtvec` (60 R186). -/
def Obligations.TrapEntryKeepsContext : Prop :=
  ∀ (s : State) (e : ExcCode) (epc tval : Word), SameContext s (s.trapEntry e epc tval)

/-- `ecall` always takes its exception, code 8 in User Mode and 11 in Machine Mode, with `mepc` its own pc (40 R101).
Nothing is said of `mtval`, a draw. -/
def Obligations.EcallTakesException : Prop :=
  ∀ s : State, ∃ t, exec .ecall s = .next t
    ∧ (s.priv = .user → TookTrap s t .ecallFromU s.pc) ∧ (s.priv = .machine → TookTrap s t .ecallFromM s.pc)
    ∧ SameContext s t

/-- `ebreak` always takes Breakpoint, in either mode, with `mepc` its own pc (40 R100). -/
def Obligations.EbreakTakesException : Prop :=
  ∀ s : State, ∃ t, exec .ebreak s = .next t ∧ TookTrap s t .breakpoint s.pc ∧ SameContext s t

/-- `mret` in Machine Mode with a configured mode in `mstatus.MPP` completes; it restores `mstatus.MIE`, sets `MPIE`,
leaves the least mode in `MPP`, goes to the mode `MPP` named and to the sub-mode `msubm.PTYP` held (60 R192 to R194). -/
def Obligations.MretRestoresStatus : Prop :=
  ∀ s : State, s.priv = .machine → (s.mpp = s.cfg.privM ∨ (s.cfg.hasU = true ∧ s.mpp = s.cfg.privU)) →
    ∃ t, exec .mret s = .next t ∧ t.mie = s.mpie ∧ t.mpie = true ∧ modeBits s.cfg t.priv = s.mpp
      ∧ t.mpp = (if s.cfg.hasU then s.cfg.privU else s.cfg.privM) ∧ t.typ = s.ptyp

/-- The same `mret` goes to `mepc` (60 R191; bit 0 of an odd `mepc` by log 16) and leaves the general registers, memory,
`mtvec` and what is pending alone (60 R196). The values of `mepc`, `mcause`, `mtval` and `msubm.PTYP` afterwards are
draws, of which nothing is said. -/
def Obligations.MretReturnsToMepc : Prop :=
  ∀ s : State, s.priv = .machine → (s.mpp = s.cfg.privM ∨ (s.cfg.hasU = true ∧ s.mpp = s.cfg.privU)) →
    ∃ t, exec .mret s = .next t ∧ Reaches s t s.mepc ∧ SameContext s t

/-- `mret` in User Mode is an illegal instruction with its own encoding in `mtval` (40 R102, decision D12). -/
def Obligations.MretInUserModeIsIllegal : Prop :=
  ∀ s : State, s.priv = .user → ∃ t, exec .mret s = .next t ∧ TookTrap s t .illegalInstruction s.pc
    ∧ t.mtval = zext 0x30200073#32 ∧ SameContext s t

/-- `mret` in Machine Mode stops exactly when `mstatus.MPP` is no configured mode (40 R102, decision D13). -/
def Obligations.MretStopsWithoutMode : Prop :=
  ∀ s : State, s.priv = .machine →
    (exec .mret s = .fault .mretBadMpp ↔ s.mpp ≠ s.cfg.privM ∧ (s.cfg.hasU = true → s.mpp ≠ s.cfg.privU))

/-- From an `ecall` or `ebreak`, an `mret` at once returns to the same instruction, mode, sub-mode and `mstatus.MIE`
(95 S3, S4, S6; 70 R224). -/
def Obligations.TrapThenReturnRestores : Prop :=
  ∀ (s : State) (i : Instr), i = .ecall ∨ i = .ebreak → ModeConfigured s → PcEven s → s.cfg.Valid →
    ∃ t u, exec i s = .next t ∧ exec .mret t = .next u
      ∧ u.pc = s.pc ∧ u.priv = s.priv ∧ u.typ = s.typ ∧ u.mie = s.mie ∧ SameContext s u

/-- A nested exception overwrites the saved state of the outer one: `mepc`, `mcause`, `MPIE`, `MPP` and `PTYP` are then
those of the inner one (60 R197). -/
def Obligations.NestedTrapOverwrites : Prop :=
  ∀ (s : State) (e f : ExcCode) (v w : Word),
    ((s.raise e v).raise f w).mepc = (s.raise e v).pc ∧ ((s.raise e v).raise f w).exccode = codeBits f
    ∧ ((s.raise e v).raise f w).mtval = w ∧ ((s.raise e v).raise f w).mpie = false
    ∧ ((s.raise e v).raise f w).mpp = s.cfg.privM ∧ ((s.raise e v).raise f w).ptyp = s.cfg.submExc

/-! ## The CSRs -/

/-- The widths at reset (00 R7), the addresses of the six CSRs and the positions of their fields (10 R24 to R30, R34),
and the encodings of the modes (10 R22) and of exception handling mode (10 R29), which are a valid layout; the values
are general knowledge (log 1, 28). -/
def Obligations.LayoutOfTheSpec : Prop :=
  Config.shipped.Valid ∧ State.reset.cfg = Config.shipped
  ∧ Config.shipped.xlen = 32 ∧ Config.shipped.exccodeBits = 5 ∧ Config.shipped.submBits = 2
  ∧ Config.shipped.submExc = 2
  ∧ csrAt Config.layout 0x300 = some .mstatus ∧ csrAt Config.layout 0x305 = some .mtvec
  ∧ csrAt Config.layout 0x341 = some .mepc ∧ csrAt Config.layout 0x342 = some .mcause
  ∧ csrAt Config.layout 0x343 = some .mtval ∧ csrAt Config.layout 0x7C4 = some .msubm
  ∧ modeBits Config.shipped .user = 0#2 ∧ modeBits Config.shipped .machine = 3#2
  ∧ packMstatus Config.shipped 3 false false 0 = 0x1800 ∧ packMstatus Config.shipped 0 true false 0 = 0x80
  ∧ packMstatus Config.shipped 0 false true 0 = 0x8
  ∧ packMsubm Config.shipped 0 3 0 = 0xC0 ∧ packMsubm Config.shipped 3 0 0 = 0x300
  ∧ packMcause Config.shipped false 31 0 = 0x1F ∧ packMcause Config.shipped true 0 0 = 0x80000000

/-- `CsrRead` (41 R128): the registers whole, the named fields at their positions, the draw in every other bit. -/
def Obligations.CsrReadValues : Prop :=
  ∀ (s : State) (d : Word), s.cfg.Valid →
    s.csrValue .mepc d = s.mepc ∧ s.csrValue .mtval d = s.mtval ∧ s.csrValue .mtvec d = s.mtvec
    ∧ (s.csrValue .mstatus d).getLsbD s.cfg.layout.mieAt = s.mie
    ∧ (s.csrValue .mstatus d).getLsbD s.cfg.layout.mpieAt = s.mpie
    ∧ (s.csrValue .mstatus d).extractLsb' s.cfg.layout.mppAt PRIV_BITS = s.mpp
    ∧ (∀ i, i ≠ s.cfg.layout.mieAt → i ≠ s.cfg.layout.mpieAt →
        (i < s.cfg.layout.mppAt ∨ s.cfg.layout.mppAt + PRIV_BITS ≤ i) →
        (s.csrValue .mstatus d).getLsbD i = d.getLsbD i)
    ∧ (s.csrValue .msubm d).extractLsb' s.cfg.layout.typAt s.cfg.submBits = s.typ.setWidth s.cfg.submBits
    ∧ (s.csrValue .msubm d).extractLsb' s.cfg.layout.ptypAt s.cfg.submBits = s.ptyp.setWidth s.cfg.submBits
    ∧ (∀ i, (i < s.cfg.layout.typAt ∨ s.cfg.layout.typAt + s.cfg.submBits ≤ i) →
        (i < s.cfg.layout.ptypAt ∨ s.cfg.layout.ptypAt + s.cfg.submBits ≤ i) →
        (s.csrValue .msubm d).getLsbD i = d.getLsbD i)
    ∧ (s.csrValue .mcause d).extractLsb' s.cfg.layout.exccodeAt s.cfg.exccodeBits
        = s.exccode.setWidth s.cfg.exccodeBits
    ∧ (s.csrValue .mcause d).getLsbD s.cfg.layout.intFlagAt = s.intFlag
    ∧ (∀ i, (i < s.cfg.layout.exccodeAt ∨ s.cfg.layout.exccodeAt + s.cfg.exccodeBits ≤ i) →
        i ≠ s.cfg.layout.intFlagAt →
        (s.csrValue .mcause d).getLsbD i = d.getLsbD i)

/-- `CsrWrite` (41 R129): each register with its mask, the named fields from their positions, and nothing else; `msubm`
is refused. -/
def Obligations.CsrWriteEffects : Prop :=
  ∀ (s : State) (v : Word),
    s.csrWrite .mepc v = some { s with mepc := v &&& s.cfg.mepcMask }
    ∧ s.csrWrite .mtvec v = some { s with mtvec := v &&& s.cfg.mtvecMask }
    ∧ s.csrWrite .mtval v = some { s with mtval := v }
    ∧ s.csrWrite .mstatus v = some { s with
        mie := v.getLsbD s.cfg.layout.mieAt
        mpie := v.getLsbD s.cfg.layout.mpieAt
        mpp := v.extractLsb' s.cfg.layout.mppAt PRIV_BITS }
    ∧ s.csrWrite .mcause v = some { s with
        exccode := v.field s.cfg.layout.exccodeAt s.cfg.exccodeBits
        intFlag := v.getLsbD s.cfg.layout.intFlagAt }
    ∧ s.csrWrite .msubm v = none

/-- The access check of the six CSR instructions (41 R120): none of the six CSRs is accessible in User Mode, where the
instruction is illegal and records its own word; none of them is read-only; an instruction whose CSR is none of the six
is handed to `BaseStep` whole. -/
def Obligations.CsrAccessCheck : Prop :=
  ∀ (i : Instr) (csr : BitVec 12) (s : State), csrOperand i = some csr →
    (csrAt s.cfg.layout csr = none → exec i s = .next (s.runBase (encode i)))
    ∧ ∀ c, csrAt s.cfg.layout csr = some c → s.cfg.Valid →
        csr.extractLsb' 10 2 ≠ 3#2
        ∧ (s.priv = .user → ∃ t, exec i s = .next t ∧ TookTrap s t .illegalInstruction s.pc ∧ t.mtval = zext (encode i)
            ∧ SameContext s t)

/-- A write of `msubm` in Machine Mode is refused (41 R129; 95 K18). -/
def Obligations.MsubmWriteRefused : Prop :=
  ∀ (i : Instr) (s : State), csrOperand i = some s.cfg.layout.msubm → writesCsr i = true → s.cfg.Valid →
    s.priv = .machine → exec i s = .refused .msubmWrite

/-- `csrrw` and `csrrwi` in Machine Mode (41 R121, R124): the CSR takes the operand, `rd` the value read before, and the
pc goes on by 4. -/
def Obligations.CsrReadWriteForms : Prop :=
  ∀ (s : State) (rd : RegIx) (csr : BitVec 12) (c : Csr),
    csrAt s.cfg.layout csr = some c → s.cfg.Valid → s.priv = .machine → c ≠ .msubm →
    (∀ rs1, ∃ d w t, s.csrWrite c (s.reg rs1) = some w ∧ exec (.csrrw rd csr rs1) s = .next t ∧ SameControl w t
      ∧ t.pc = (s.pc + 4).low s.cfg.xlen ∧ (rd ≠ 0 → t.reg rd = s.csrValue c d) ∧ (∀ j, j ≠ rd → t.reg j = s.reg j)
      ∧ t.reg 0 = 0 ∧ SameMemory s t)
    ∧ (∀ uimm, uimm < 32 → ∃ d w t, s.csrWrite c (BitVec.ofNat WORD_BITS uimm) = some w
      ∧ exec (.csrrwi rd csr uimm) s = .next t ∧ SameControl w t
      ∧ t.pc = (s.pc + 4).low s.cfg.xlen ∧ (rd ≠ 0 → t.reg rd = s.csrValue c d) ∧ (∀ j, j ≠ rd → t.reg j = s.reg j)
      ∧ t.reg 0 = 0 ∧ SameMemory s t)

/-- `csrrs` and `csrrsi` in Machine Mode (41 R122, R125): the CSR takes the value read with the operand's bits set,
unless the operand is `x0` or 0, when nothing is written; `rd` takes the value read. -/
def Obligations.CsrReadSetForms : Prop :=
  ∀ (s : State) (rd : RegIx) (csr : BitVec 12) (c : Csr),
    csrAt s.cfg.layout csr = some c → s.cfg.Valid → s.priv = .machine →
    (∀ rs1, (rs1 ≠ 0 → c ≠ .msubm) → ∃ d w t,
      (if rs1 = 0 then w = s else s.csrWrite c (s.csrValue c d ||| s.reg rs1) = some w)
      ∧ exec (.csrrs rd csr rs1) s = .next t ∧ SameControl w t
      ∧ t.pc = (s.pc + 4).low s.cfg.xlen ∧ (rd ≠ 0 → t.reg rd = s.csrValue c d) ∧ (∀ j, j ≠ rd → t.reg j = s.reg j)
      ∧ t.reg 0 = 0 ∧ SameMemory s t)
    ∧ (∀ uimm, uimm < 32 → (uimm ≠ 0 → c ≠ .msubm) → ∃ d w t,
      (if uimm = 0 then w = s else s.csrWrite c (s.csrValue c d ||| BitVec.ofNat WORD_BITS uimm) = some w)
      ∧ exec (.csrrsi rd csr uimm) s = .next t ∧ SameControl w t
      ∧ t.pc = (s.pc + 4).low s.cfg.xlen ∧ (rd ≠ 0 → t.reg rd = s.csrValue c d) ∧ (∀ j, j ≠ rd → t.reg j = s.reg j)
      ∧ t.reg 0 = 0 ∧ SameMemory s t)

/-- `csrrc` and `csrrci` in Machine Mode (41 R123, R126): as the set forms, with the operand's bits cleared. -/
def Obligations.CsrReadClearForms : Prop :=
  ∀ (s : State) (rd : RegIx) (csr : BitVec 12) (c : Csr),
    csrAt s.cfg.layout csr = some c → s.cfg.Valid → s.priv = .machine →
    (∀ rs1, (rs1 ≠ 0 → c ≠ .msubm) → ∃ d w t,
      (if rs1 = 0 then w = s else s.csrWrite c (s.csrValue c d &&& ~~~(s.reg rs1)) = some w)
      ∧ exec (.csrrc rd csr rs1) s = .next t ∧ SameControl w t
      ∧ t.pc = (s.pc + 4).low s.cfg.xlen ∧ (rd ≠ 0 → t.reg rd = s.csrValue c d) ∧ (∀ j, j ≠ rd → t.reg j = s.reg j)
      ∧ t.reg 0 = 0 ∧ SameMemory s t)
    ∧ (∀ uimm, uimm < 32 → (uimm ≠ 0 → c ≠ .msubm) → ∃ d w t,
      (if uimm = 0 then w = s else s.csrWrite c (s.csrValue c d &&& ~~~(BitVec.ofNat WORD_BITS uimm)) = some w)
      ∧ exec (.csrrci rd csr uimm) s = .next t ∧ SameControl w t
      ∧ t.pc = (s.pc + 4).low s.cfg.xlen ∧ (rd ≠ 0 → t.reg rd = s.csrValue c d) ∧ (∀ j, j ≠ rd → t.reg j = s.reg j)
      ∧ t.reg 0 = 0 ∧ SameMemory s t)

/-- The frame of the six CSR instructions: with one of the six CSRs, in Machine Mode, a next state differs from the old
one at most in `rd`, the pc, and the fields of that CSR, which is not `msubm` when it is written. -/
def Obligations.CsrInstructionFrame : Prop :=
  ∀ (i : Instr) (s t : State) (csr : BitVec 12) (c : Csr) (rd : RegIx),
    csrOperand i = some csr → csrAt s.cfg.layout csr = some c → destination i = some rd → s.cfg.Valid →
    s.priv = .machine → exec i s = .next t →
    t.cfg = s.cfg ∧ t.priv = s.priv ∧ t.typ = s.typ ∧ t.ptyp = s.ptyp ∧ SameMemory s t
    ∧ (∀ j, j ≠ rd → t.reg j = s.reg j)
    ∧ (c ≠ .mstatus ∨ writesCsr i = false → t.mie = s.mie ∧ t.mpie = s.mpie ∧ t.mpp = s.mpp)
    ∧ (c ≠ .mtvec ∨ writesCsr i = false → t.mtvec = s.mtvec)
    ∧ (c ≠ .mepc ∨ writesCsr i = false → t.mepc = s.mepc)
    ∧ (c ≠ .mcause ∨ writesCsr i = false → t.exccode = s.exccode ∧ t.intFlag = s.intFlag)
    ∧ (c ≠ .mtval ∨ writesCsr i = false → t.mtval = s.mtval)

/-! ## Memory and the classes of the base set -/

/-- The bytes of a store of 1, 2, 4 or 8 bytes read back are the stored value's low bytes (00 R14, 20 R68), also where
they pass the top of the address space and go on at 0 (00 R10; that an access wraps there is log 31). -/
def Obligations.StoreThenLoad : Prop :=
  ∀ (s : State) (a : Word) (w : Width) (v : BitVec 64), s.cfg.WidthsFit →
    ((s.store a (widthBytes w) v).load a (widthBytes w)).toNat = v.toNat % 2 ^ (8 * widthBytes w)

/-- A store lays its value out little-endian (20 R61): the byte at `a + k` is bits `8k + 7` to `8k` of the value. The
addresses wrap at the top of the space (00 R10; log 31). -/
def Obligations.StoreIsLittleEndian : Prop :=
  ∀ (s : State) (a : Word) (w : Width) (v : BitVec 64) (k : Nat), s.cfg.WidthsFit → k < widthBytes w →
    (s.store a (widthBytes w) v).mem.read ((a.toNat + k) % 2 ^ s.cfg.xlen) = some (v.extractLsb' (8 * k) 8)

/-- A store leaves every byte outside the stored ones as it was, and no other state the spec names changes. The stored
bytes are recorded as written, so that a fetch of one is refused (20 R71; log 20). -/
def Obligations.StoreFrame : Prop :=
  ∀ (s : State) (a : Word) (w : Width) (v : BitVec 64),
    (∀ c, c ∉ s.addrs a (widthBytes w) → (s.store a (widthBytes w) v).mem.read c = s.mem.read c)
    ∧ SameControl s (s.store a (widthBytes w) v) ∧ (∀ i, (s.store a (widthBytes w) v).reg i = s.reg i)
    ∧ (s.store a (widthBytes w) v).pc = s.pc ∧ (s.store a (widthBytes w) v).pending = s.pending
    ∧ (∀ c, c ∈ (s.store a (widthBytes w) v).written ↔ c ∈ s.written ∨ c ∈ s.addrs a (widthBytes w))

/-- The Load class (42 R142). -/
def Obligations.LoadClass : Prop :=
  ∀ (s : State) (op : LoadOp),
    (s.hwBreak .load op.addr = true → s.loadClass op = s.raise .breakpoint op.addr)
    ∧ (s.hwBreak .load op.addr = false →
      (op.addr.toNat % widthBytes op.width ≠ 0 → s.loadClass op = s.raise .loadAddrMisaligned op.addr)
      ∧ (op.addr.toNat % widthBytes op.width = 0 →
        (s.accessFault .load op.addr (widthBytes op.width) = true →
          (∀ j, j ≠ op.rd → (s.loadClass op).reg j = s.reg j)
          ∧ (∀ a, (s.loadClass op).mem.read a = s.mem.read a)
          ∧ ((TookTrap s (s.loadClass op) .loadAccessFault s.pc ∧ (s.loadClass op).mtval = op.addr
                ∧ (s.loadClass op).pending = s.pending)
              ∨ (Reaches s (s.loadClass op) op.nextPc ∧ SameControl s (s.loadClass op)
                ∧ ∀ f, f ∈ (s.loadClass op).pendingFaults ↔ f ∈ s.pendingFaults ∨ f = ⟨.load, op.addr⟩)))
        ∧ (s.accessFault .load op.addr (widthBytes op.width) = false →
          Reaches s (s.loadClass op) op.nextPc ∧ SameControl s (s.loadClass op) ∧ SameMemory s (s.loadClass op)
          ∧ (op.rd ≠ 0 → (s.loadClass op).reg op.rd = op.result (s.load op.addr (widthBytes op.width)))
          ∧ (∀ j, j ≠ op.rd → (s.loadClass op).reg j = s.reg j))))

/-- The Store class (42 R143). The addressed bytes are recorded as written (20 R71; log 20). -/
def Obligations.StoreClass : Prop :=
  ∀ (s : State) (op : StoreOp),
    (s.hwBreak .store op.addr = true → s.storeClass op = s.raise .breakpoint op.addr)
    ∧ (s.hwBreak .store op.addr = false →
      (op.addr.toNat % widthBytes op.width ≠ 0 → s.storeClass op = s.raise .storeAddrMisaligned op.addr)
      ∧ (op.addr.toNat % widthBytes op.width = 0 →
        (∀ j, (s.storeClass op).reg j = s.reg j)
        ∧ (∀ a, a ∉ s.addrs op.addr (widthBytes op.width) → (s.storeClass op).mem.read a = s.mem.read a)
        ∧ (∀ a, a ∈ (s.storeClass op).written ↔ a ∈ s.written ∨ a ∈ s.addrs op.addr (widthBytes op.width))
        ∧ (s.accessFault .store op.addr (widthBytes op.width) = true →
          (TookTrap s (s.storeClass op) .storeAccessFault s.pc ∧ (s.storeClass op).mtval = op.addr
              ∧ (s.storeClass op).pending = s.pending)
            ∨ (Reaches s (s.storeClass op) op.nextPc ∧ SameControl s (s.storeClass op)
              ∧ ∀ f, f ∈ (s.storeClass op).pendingFaults ↔ f ∈ s.pendingFaults ∨ f = ⟨.store, op.addr⟩))
        ∧ (s.accessFault .store op.addr (widthBytes op.width) = false →
          Reaches s (s.storeClass op) op.nextPc ∧ SameControl s (s.storeClass op)
          ∧ (s.storeClass op).pending = s.pending
          ∧ (s.storeClass op).mem = (s.store op.addr (widthBytes op.width) op.value).mem)))

/-- The AMO class (42 R144): the codes of a Store, for the read part as for the write part; the destination register and
the bytes are draws after an access error, and the bytes are recorded as written (20 R71; log 20). With which kind
`HwBreak` is asked is not said of an AMO: that it is `amo` alone, as the first two clauses have it, is the model's choice
(DESIGN CHOICE, log 42). -/
def Obligations.AmoClass : Prop :=
  ∀ (s : State) (op : AmoOp),
    (s.hwBreak .amo op.addr = true → s.amoClass op = s.raise .breakpoint op.addr)
    ∧ (s.hwBreak .amo op.addr = false →
      (op.addr.toNat % widthBytes op.width ≠ 0 → s.amoClass op = s.raise .storeAddrMisaligned op.addr)
      ∧ (op.addr.toNat % widthBytes op.width = 0 →
        (∀ j, j ≠ op.rd → (s.amoClass op).reg j = s.reg j)
        ∧ (∀ a, a ∉ s.addrs op.addr (widthBytes op.width) → (s.amoClass op).mem.read a = s.mem.read a)
        ∧ (∀ a, a ∈ (s.amoClass op).written ↔ a ∈ s.written ∨ a ∈ s.addrs op.addr (widthBytes op.width))
        ∧ (s.accessFault .amo op.addr (widthBytes op.width) = true →
          (TookTrap s (s.amoClass op) .storeAccessFault s.pc ∧ (s.amoClass op).mtval = op.addr
              ∧ (s.amoClass op).pending = s.pending)
            ∨ (Reaches s (s.amoClass op) op.nextPc ∧ SameControl s (s.amoClass op)
              ∧ ∀ f, f ∈ (s.amoClass op).pendingFaults ↔ f ∈ s.pendingFaults ∨ f = ⟨.store, op.addr⟩))
        ∧ (s.accessFault .amo op.addr (widthBytes op.width) = false →
          Reaches s (s.amoClass op) op.nextPc ∧ SameControl s (s.amoClass op) ∧ (s.amoClass op).pending = s.pending
          ∧ (op.rd ≠ 0 → (s.amoClass op).reg op.rd = op.result (s.load op.addr (widthBytes op.width)))
          ∧ (s.amoClass op).mem
              = (s.store op.addr (widthBytes op.width) (op.stored (s.load op.addr (widthBytes op.width)))).mem)))

/-- The illegal words the spec fixes are illegal in every mode: SYSTEM with `funct3` = 100, SYSTEM with `funct3` = 000
that is no instruction of the table and that `BaseStep` does not claim, the all-zero word or parcel (30 R86 (a), (b),
(e)); the word goes to `mtval` (30 R87). Which words `BaseStep` claims is a parameter (log 12). -/
def Obligations.FixedIllegalWords : Prop :=
  ∀ (s : State) (w : BitVec 32),
    w = 0#32 ∨ (w.extractLsb' 0 7 = 0x73#7 ∧ w.extractLsb' 12 3 = 4#3)
      ∨ (w.extractLsb' 0 7 = 0x73#7 ∧ w.extractLsb' 12 3 = 0#3 ∧ decodeWord w = none ∧ w ∉ s.cfg.baseClaims) →
    decodeWord w = none ∧ ∃ t, stepOther w s = .next t ∧ TookTrap s t .illegalInstruction s.pc ∧ t.mtval = zext w
      ∧ SameContext s t

/-- Whatever `BaseStep` answers for a word, it completes in the same mode and sub-mode, with every CSR as it was unless
the word is a CSR access in Machine Mode (10 R41, R35), or it takes one exception at its own pc, which is never code 0
with "C" and records the word itself if it is code 2 (00 R8, 30 R87, 60 R164). A synchronous exception, any but 5 and
7, leaves the registers, memory and what is pending as they were (00 R8 (b), R15, 60 R185). That `BaseStep` moves
neither mode nor CSRs otherwise is read from 10 R41, 60 R200 and R201 (log 11). -/
def Obligations.BaseInstructionEffects : Prop :=
  ∀ (s : State) (w : BitVec 32),
    (SameControl s (s.runBase w)
      ∨ (s.priv = .machine ∧ isCsrWord w = true ∧ (s.runBase w).cfg = s.cfg ∧ (s.runBase w).priv = .machine
        ∧ (s.runBase w).typ = s.typ ∧ (s.runBase w).ptyp = s.ptyp))
    ∨ ∃ e, TookTrap s (s.runBase w) e s.pc ∧ (s.runBase w).mtvec = s.mtvec
        ∧ (e = .illegalInstruction → (s.runBase w).mtval = zext w)
        ∧ (e = .instrAddrMisaligned → s.cfg.hasC = false)
        ∧ (e = .ecallFromU → s.priv = .user) ∧ (e = .ecallFromM → s.priv = .machine)
        ∧ (e ≠ .loadAccessFault → e ≠ .storeAccessFault → SameContext s (s.runBase w))

/-- The answer of `BaseStep` takes effect (00 R8). (a) A next state has its pc, its registers but `x0`, the bytes it
writes, which are recorded as written (20 R71), and its CSR fields where a CSR access in Machine Mode names them (log
11), and nothing new is pending; where the switch of decision D27 is set and the jump is misaligned, code 0 is raised at
it (42 R140). (b) An exception is taken at this instruction with the value it names in `mtval`, but for code 2, which
records the word (30 R87), and code 0 with "C", which cannot be (60 R162; log 11). (c) A next state with a fault posts
it, all but the spoilt register and bytes being as the next state has them, where an access at its address suffers an
access error of its code (10 R37, 60 R175) and the jump takes no code 0 (60 R174); a fault that is none of these is not
posted, and the answer is its next state alone (log 43). That no `AccessFault` is asked for codes 5 and 7 taken at the
instruction is the model's choice (log 43). An access goes through its class (42 R142 to R144). -/
def Obligations.BaseAnswerTakesEffect : Prop :=
  ∀ (s : State) (w : BitVec 32),
    s.runBase w = { s with baseRuns := s.baseRuns + 1 }.applyAnswer w (s.baseAnswer w)
    ∧ (∀ n : BaseNext, ¬ (s.cfg.misalignedAtJump = true ∧ s.cfg.hasC = false ∧ n.pc.toNat % 4 ≠ 0) →
        Reaches s (s.applyAnswer w (.next n)) n.pc ∧ (∀ i : RegIx, i ≠ 0 → (s.applyAnswer w (.next n)).reg i = n.x[i])
        ∧ (s.applyAnswer w (.next n)).mem = memoryAfter s n.writes
        ∧ (∀ a, a ∈ (s.applyAnswer w (.next n)).written ↔
            a ∈ s.written ∨ ∃ p ∈ n.writes, p.1.toNat % 2 ^ s.cfg.xlen = a)
        ∧ (s.applyAnswer w (.next n)).pending = s.pending
        ∧ (∀ c, n.csrs = some c → isCsrWord w = true → s.priv = .machine → HasCsrs (s.applyAnswer w (.next n)) c))
    ∧ (∀ n : BaseNext, s.cfg.misalignedAtJump = true ∧ s.cfg.hasC = false ∧ n.pc.toNat % 4 ≠ 0 →
        s.applyAnswer w (.next n) = s.raise .instrAddrMisaligned n.pc)
    ∧ (∀ e v p, e ≠ .illegalInstruction → (e = .instrAddrMisaligned → s.cfg.hasC = false) →
        TookTrap s (s.applyAnswer w (.raise e v p)) (raisedCode s.priv e) s.pc
        ∧ (s.applyAnswer w (.raise e v p)).mtval = v)
    ∧ (∀ v p, s.applyAnswer w (.raise .illegalInstruction v p) = s.raise .illegalInstruction (zext w))
    ∧ (∀ n c a p, ¬ ErrorAt s c a ∨ (s.cfg.misalignedAtJump = true ∧ s.cfg.hasC = false ∧ n.pc.toNat % 4 ≠ 0) →
        s.applyAnswer w (.nextPost n c a p) = s.applyAnswer w (.next n))
    ∧ (∀ n c a p, ErrorAt s c a → ¬ (s.cfg.misalignedAtJump = true ∧ s.cfg.hasC = false ∧ n.pc.toNat % 4 ≠ 0) →
        Reaches s (s.applyAnswer w (.nextPost n c a p)) n.pc
        ∧ (∀ f, f ∈ (s.applyAnswer w (.nextPost n c a p)).pendingFaults ↔ f ∈ s.pendingFaults ∨ f = ⟨c, a⟩)
        ∧ (∀ i : RegIx, i ≠ 0 → p.reg ≠ some i → (s.applyAnswer w (.nextPost n c a p)).reg i = n.x[i])
        ∧ (∀ b, (∀ q, p.bytes = some q → b ∉ s.addrs q.1 (widthBytes q.2)) →
            (s.applyAnswer w (.nextPost n c a p)).mem.read b = (memoryAfter s n.writes).read b)
        ∧ (∀ f, n.csrs = some f → isCsrWord w = true → s.priv = .machine →
            HasCsrs (s.applyAnswer w (.nextPost n c a p)) f))
    ∧ (∀ op, s.applyAnswer w (.load op) = s.loadClass op) ∧ (∀ op, s.applyAnswer w (.store op) = s.storeClass op)
    ∧ (∀ op, s.cfg.hasA = true → s.applyAnswer w (.amo op) = s.amoClass op)

/-! ## Pending faults -/

/-- Posting adds one pair to the set `pending_faults` and changes nothing a program can see (10 R37). A step posts only
a fault of an access that suffers an access error, whatever `BaseStep` answers, so that where none does, nothing is
ever pending and the reporter never delivers (60 R175; 95 I3). -/
def Obligations.PostAddsOneFault : Prop :=
  (∀ (s : State) (f : PendingFault),
    (∀ g, g ∈ (s.post f).pendingFaults ↔ g ∈ s.pendingFaults ∨ g = f)
    ∧ (s.pendingFaults.Nodup → (s.post f).pendingFaults.Nodup)
    ∧ (s.post f).arch = s.arch ∧ (s.post f).priv = s.priv ∧ (s.post f).cfg = s.cfg)
  ∧ (∀ s t : State, NoInterrupts s → step s = .next t → ∀ f ∈ t.pendingFaults,
      f ∈ s.pendingFaults ∨ ErrorAt s f.code f.addr)
  ∧ ∀ (n : Nat) (s t : State), (∀ c a, ¬ ErrorAt s c a) → s.pendingFaults = [] → NoInterruptsDuring n s → Runs n s t →
      t.pendingFaults = [] ∧ t.reports = false

/-- When the reporter delivers, the step takes the exception of a pending fault with the smallest code at the
instruction not yet executed, and that fault is no longer pending (60 R174, R175). -/
def Obligations.ReporterDeliversSmallestCode : Prop :=
  ∀ s : State, NoInterrupts s → s.reports = true →
    ∃ t f, step s = .next t ∧ f ∈ s.pendingFaults
      ∧ (∀ g ∈ s.pendingFaults, (codeBits f.code.exc).toNat ≤ (codeBits g.code.exc).toNat)
      ∧ TookTrap s t f.code.exc s.pc ∧ t.mtval = f.addr
      ∧ (∀ g, g ∈ t.pendingFaults ↔ g ∈ s.pendingFaults ∧ g ≠ f)
      ∧ (∀ i, t.reg i = s.reg i) ∧ (∀ a, t.mem.read a = s.mem.read a) ∧ t.mtvec = s.mtvec

/-- While the reporter waits the step executes the instruction at the pc (60 R175); the waits are the model's own (log
7). -/
def Obligations.ReporterWaits : Prop :=
  ∀ s : State, NoInterrupts s → (∀ q ∈ s.pending, q.wait ≠ 0) →
    step s = runAt { s with pending := s.pending.map fun q => { q with wait := q.wait - 1 } }

/-- Every pending fault is delivered in the end (60 R161, R175): a run from a state where `f` is pending with the wait
`k`, if it goes on for as many steps as there are faults pending and twice `k`, holds a step that takes the exception of
`f` itself, after which `f` is no longer pending. The wait is free (log 7), so no bound is known. -/
def Obligations.PendingFaultIsDelivered : Prop :=
  ∀ (s t : State) (f : PendingFault) (k : Nat), ⟨f, k⟩ ∈ s.pending →
    NoInterruptsDuring (s.pending.length + 2 * k) s → Runs (s.pending.length + 2 * k) s t →
    ∃ n u v, n < s.pending.length + 2 * k ∧ Runs n s u ∧ f ∈ u.pendingFaults ∧ step u = .next v
      ∧ TookTrap u v f.code.exc u.pc ∧ v.mtval = f.addr ∧ f ∉ v.pendingFaults

/-- A program cannot read `pending_faults` (10 R37): two states that differ in nothing else, in neither of which the
reporter delivers, take the same step but for what is pending. -/
def Obligations.PendingFaultsAreInvisible : Prop :=
  ∀ (s t : State) (p : List PostedFault) (r : Nat),
    NoInterrupts s → s.reports = false → { s with pending := p, reporterDraws := r }.reports = false →
    step s = .next t →
    ∃ p' r', step { s with pending := p, reporterDraws := r } = .next { t with pending := p', reporterDraws := r' }

/-! ## The step -/

/-- A step is refused exactly when the core would take an NMI, or an interrupt with `mstatus.MIE` = 1 (10 R26, 60 R203,
R204), and that is exactly where the premise NoInterrupts fails, so that every run of the model meets it (60 R205); with
interrupts off and no NMI source it is met (60 R203). The lines and the refusal are the model's own (log 41). -/
def Obligations.InterruptsRefusedUnlessMasked : Prop :=
  ∀ s : State, (step s = .refused .interruptTaken ↔ s.nmiLine = true ∨ (s.irqLine = true ∧ s.mie = true))
    ∧ (NoInterrupts s ↔ ¬ (s.nmiLine = true ∨ (s.irqLine = true ∧ s.mie = true))) ∧ (InterruptsOff s → NoInterrupts s)

/-- A run is not over while a fault is pending, also where it arrives at its end address (70 R229; 95 I4): a run that
ends has, before its end, taken the exception of every fault that was pending in it, at whatever pc it had reached. -/
def Obligations.RunEndsAfterEveryDelivery : Prop :=
  ∀ (e : Word) (s t : State) (n : Nat) (f : PendingFault), f ∈ s.pendingFaults → NoInterruptsDuring n s →
    RunEnds e n s t →
    ∃ m u v, m < n ∧ Runs m s u ∧ f ∈ u.pendingFaults ∧ step u = .next v ∧ TookTrap u v f.code.exc u.pc
      ∧ v.mtval = f.addr ∧ f ∉ v.pendingFaults

/-- The length of the instruction at the pc is told by the low two bits of its first byte with "C" and is 4 without (30
R80), and the tests of a fetch are made in the order of the priority rule, code 0 before code 1 (42 R140). That the test
for code 1 is given the length told by the byte memory holds at the pc, also where that byte cannot be fetched, is the
model's choice, and unsafe: the spec does not say which length it is given there (DESIGN CHOICE, log 15). Then the bytes
are fetched, the same that a load finds (20 R60, R68): each is the byte given to its address, or its byte of the launch
state, which is free (log 5). The addresses wrap at the top of the space (00 R10; log 31). The test for code 3 is in
`StepTakesFetchException`. -/
def Obligations.FetchTestOrder : Prop :=
  ∀ s : State,
    (s.cfg.hasC = false → s.fetchLen = 4)
    ∧ (s.cfg.hasC = true →
        s.fetchLen = if (s.mem.byte (s.pc.toNat % 2 ^ s.cfg.xlen)).extractLsb' 0 2 = 3#2 then 4 else 2)
    ∧ (∀ a b, s.mem.read a = some b → s.mem.byte a = b)
    ∧ (s.cfg.hasC = false → s.pc.toNat % 4 ≠ 0 → s.fetch = .trap .instrAddrMisaligned s.pc)
    ∧ (s.cfg.hasC = true ∨ s.pc.toNat % 4 = 0 →
      (s.accessFault .fetch s.pc s.fetchLen = true → s.fetch = .trap .instrAccessFault s.pc)
      ∧ (s.accessFault .fetch s.pc s.fetchLen = false → s.cfg.WidthsFit →
        (∀ k < s.fetchLen, (s.pc.toNat + k) % 2 ^ s.cfg.xlen ∉ s.written) →
          ∃ bs, s.fetch = .bytes bs ∧ valueOf bs = s.load s.pc s.fetchLen ∧ bs.length = s.fetchLen
            ∧ ∀ k < s.fetchLen, bs[k]? = some (s.mem.byte ((s.pc.toNat + k) % 2 ^ s.cfg.xlen))))

/-- With "C" no fetch raises code 0 (60 R162). -/
def Obligations.NoCode0WithC : Prop :=
  ∀ s : State, s.cfg.hasC = true → ∀ v, s.fetch ≠ .trap .instrAddrMisaligned v

/-- A fetch that traps is a step that takes the exception with the pc in `mepc` and `mtval` (42 R140). A hardware
breakpoint at the pc is taken, code 3 with the pc in `mepc` and `mtval`, unless the instruction there takes an exception
of a smaller code, which then wins (60 R174, 92 D16; log 40), so that one or the other is taken at any bytes but those a
Store or AMO wrote (20 R71), also at bytes that nothing has given a value (log 5): an illegal word, an `mret` in User Mode and an access to
one of the six CSRs in User Mode record code 2 and their word. `ecall` and `ebreak`, and in Machine Mode `mret` and an
access to one of the six CSRs, take none. -/
def Obligations.StepTakesFetchException : Prop :=
  ∀ s : State, NoInterrupts s → s.reports = false →
    (∀ e v, s.fetch = .trap e v → StepTakes s e s.pc)
    ∧ (s.hwBreak .fetch s.pc = true → (∀ a ∈ s.addrs s.pc s.fetchLen, a ∉ s.written) →
        ∃ e v, (codeBits e).toNat ≤ 3 ∧ StepTakes s e v)
    ∧ (s.hwBreak .fetch s.pc = true → ∀ bs, s.fetch = .bytes bs →
      (s.beforeBreakpoint bs = false → StepTakes s .breakpoint s.pc)
      ∧ (∀ err, decode bs = .error err → (s.cfg.hasC = false ∨ wordOfBytes bs ≠ 0x9002#32) →
          isIllegal s.cfg (wordOfBytes bs) s.priv = true → StepTakes s .illegalInstruction (zext (wordOfBytes bs)))
      ∧ (∀ rest, decode bs = .ok (.mret, rest) → s.priv = .user →
          StepTakes s .illegalInstruction (zext 0x30200073#32))
      ∧ (∀ i rest csr c, decode bs = .ok (i, rest) → csrOperand i = some csr → csrAt s.cfg.layout csr = some c →
          s.cfg.Valid → s.priv = .user → StepTakes s .illegalInstruction (zext (encode i)))
      ∧ (∀ i rest, decode bs = .ok (i, rest) →
          i = .ecall ∨ i = .ebreak
            ∨ (s.priv = .machine ∧ (i = .mret
                ∨ (s.cfg.Valid ∧ ∃ csr c, csrOperand i = some csr ∧ csrAt s.cfg.layout csr = some c))) →
          StepTakes s .breakpoint s.pc))

/-- When the reporter does not deliver, the fetch at the pc gives bytes that decode to `i`, and no breakpoint at the pc
wins over `i`, the step is `exec i`, on the state whose pending faults have one step less to wait (nothing else
differs). -/
def Obligations.StepRunsDecoded : Prop :=
  ∀ (s : State) (bs rest : List Byte) (i : Instr), NoInterrupts s → s.reports = false → s.fetch = .bytes bs →
    decode bs = .ok (i, rest) → (s.hwBreak .fetch s.pc = false ∨ s.beforeBreakpoint bs = true) →
    step s = exec i s.tick ∧ s.tick = { s with pending := s.tick.pending } ∧ s.tick.pendingFaults = s.pendingFaults
      ∧ (s.pending = [] → s.tick = s)

/-- When the fetched bytes are no instruction of the table, and no breakpoint at the pc wins over them, the step raises Illegal instruction with the word in `mtval`
or runs the base set's meaning, but for the 2-byte breakpoint (30 R84, R80; log 21). -/
def Obligations.StepRunsOther : Prop :=
  ∀ (s : State) (bs : List Byte) (e : DecodeError), NoInterrupts s → s.reports = false → s.fetch = .bytes bs →
    decode bs = .error e → (s.hwBreak .fetch s.pc = false ∨ s.beforeBreakpoint bs = true) →
    (s.cfg.hasC = false ∨ wordOfBytes bs ≠ 0x9002#32) →
    (isIllegal s.cfg (wordOfBytes bs) s.priv = true →
        step s = .next (s.tick.raise .illegalInstruction (zext (wordOfBytes bs))))
      ∧ (isIllegal s.cfg (wordOfBytes bs) s.priv = false → step s = .next (s.tick.runBase (wordOfBytes bs)))

/-- Any word of the table placed at the pc of the reset state runs as the first instruction; the bytes come from
outside the machine (log 32), and the reset pc and platform are the model's (log 2, 4). -/
def Obligations.InstructionRunsAfterReset : Prop :=
  ∀ i : Instr, i.WellFormed = true →
    decodeTableWord 32 (encode i).toNat = some i
    ∧ step (State.reset.withFetchWord 32 (encode i).toNat) = exec i (State.reset.withFetchWord 32 (encode i).toNat)

/-- An instruction that a Store or AMO wrote is refused at its fetch (20 R71), also where a breakpoint is set at it, since
the word fetched is not known then (log 20, 40). That stores are recorded is in `StoreFrame`, `StoreClass`, `AmoClass`
and `BaseAnswerTakesEffect`. -/
def Obligations.SelfModifiedCodeRefused : Prop :=
  ∀ (s : State) (a : Nat), NoInterrupts s → s.reports = false →
    s.cfg.hasC = true ∨ s.pc.toNat % 4 = 0 →
    s.accessFault .fetch s.pc s.fetchLen = false → a ∈ s.addrs s.pc s.fetchLen → a ∈ s.written →
    step s = .refused .selfModifiedCode

/-- The 2-byte breakpoint is refused where it is executed, no breakpoint being set at the pc (30 R80). That its parcel is 0x9002 is the family's (log 21). -/
def Obligations.CompressedBreakpointRefused : Prop :=
  ∀ (s : State), NoInterrupts s → s.reports = false → s.cfg.hasC = true → s.fetch = .bytes [0x02#8, 0x90#8] →
    s.hwBreak .fetch s.pc = false → step s = .refused .compressedBreakpoint

/-! ## The whole machine

Each of these carries the premise NoInterrupts of 60 R205, as every claim about a step does. -/

/-- Every step keeps the invariant of the machine, from any state that has it. -/
def Obligations.InvariantKept : Prop := ∀ s t : State, Inv s → NoInterrupts s → step s = .next t → Inv t

/-- No step changes the implementation parameters. -/
def Obligations.PlatformFixed : Prop := ∀ s t : State, NoInterrupts s → step s = .next t → t.cfg = s.cfg

/-- User Mode is left only by trap entry, at the pc of the instruction, and while it lasts no step changes a CSR (60
R200, R182, 10 R35). That no base instruction leaves the mode or changes a CSR there is log 11. -/
def Obligations.UserModeLeftOnlyByTrap : Prop :=
  ∀ s t : State, s.cfg.Valid → s.priv = .user → NoInterrupts s → step s = .next t →
    SameControl s t ∨ ∃ e, TookTrap s t e s.pc ∧ t.mtvec = s.mtvec ∧ t.cfg = s.cfg

/-- The code recorded on leaving User Mode, which only trap entry does (60 R200), is never 11, and never 0 with "C" (60
R162, R171). That no base instruction leaves the mode otherwise, makes an environment call of another mode, or raises
code 0 with "C" is log 11. -/
def Obligations.CodesFromUserMode : Prop :=
  ∀ s t : State, s.priv = .user → NoInterrupts s → step s = .next t → t.priv = .machine →
    t.exccode.toNat ≤ 8 ∧ (s.cfg.hasC = true → t.exccode ≠ 0)

/-- User Mode is entered only by `mret` with `PRIV_U` in `mstatus.MPP`, where it is configured (60 R200). -/
def Obligations.UserModeEnteredOnlyByMret : Prop :=
  ∀ s t : State, s.priv = .machine → NoInterrupts s → step s = .next t → t.priv = .user →
    s.cfg.hasU = true ∧ s.mpp = s.cfg.privU ∧ Reaches s t s.mepc
    ∧ ∃ bs rest, s.fetch = .bytes bs ∧ decode bs = .ok (.mret, rest)

/-- The Machine Sub-Mode moves only by trap entry, to exception handling mode, and by `mret`, to `msubm.PTYP` (60 R201);
and `msubm.PTYP` only takes the old sub-mode at a trap entry, or a draw at an `mret`. That no base instruction moves
them is log 11. -/
def Obligations.SubModeMoves : Prop :=
  ∀ s t : State, NoInterrupts s → step s = .next t →
    (t.typ = s.typ ∧ t.ptyp = s.ptyp)
    ∨ (∃ e, TookTrap s t e s.pc)
    ∨ (t.typ = s.ptyp ∧ ∃ bs rest, s.fetch = .bytes bs ∧ decode bs = .ok (.mret, rest))

/-- Only a CSR instruction run in Machine Mode changes `mtvec`: one that names it and writes, or one whose CSR is none of
the six, which `BaseStep` has (41 R120). The exception mechanism never does (10 R33, 60 R186); that nothing else does is
10 R41 and R35, read for `BaseStep` in log 11. -/
def Obligations.MtvecWrittenOnlyBySoftware : Prop :=
  ∀ s t : State, s.cfg.Valid → NoInterrupts s → step s = .next t → t.mtvec ≠ s.mtvec →
    s.priv = .machine ∧ ∃ bs rest i csr, s.fetch = .bytes bs ∧ decode bs = .ok (i, rest) ∧ csrOperand i = some csr
      ∧ ((csr = s.cfg.layout.mtvec ∧ writesCsr i = true) ∨ csrAt s.cfg.layout csr = none)
end

