-- ==== Sys2Proof/Laws/Memory.lean ====
section
/-! SUPPORT. The laws of memory: read after write, the bytes a write leaves alone, and that every operation keeps the
canonical form. -/

namespace Sys2Proof.Machine

theorem Memory.read_write_same (m : Memory) (a : Nat) (v : Byte) : (m.write a v).read a = some v := by
  induction m with
  | nil => simp [Memory.write, Memory.read]
  | cons c m ih =>
    obtain ⟨k, b⟩ := c
    simp only [Memory.write]
    split
    · simp [Memory.read]
    · split
      · simp [Memory.read]
      · rename_i h
        simpa [Memory.read, h] using ih

theorem Memory.read_write_ne (m : Memory) {a c : Nat} (v : Byte) (h : c ≠ a) : (m.write a v).read c = m.read c := by
  induction m with
  | nil => simp [Memory.write, Memory.read, h]
  | cons e m ih =>
    obtain ⟨k, b⟩ := e
    simp only [Memory.write]
    split
    · simp [Memory.read, h]
    · split
      · rename_i h'
        subst h'
        simp [Memory.read, h]
      · simp [Memory.read, ih]

/-- The addresses a write leaves listed are the old ones and the written one. -/
theorem Memory.mem_write {m : Memory} {a : Nat} {v : Byte} {c : Host.Cell} (h : c ∈ m.write a v) :
    c = (a, v) ∨ c ∈ m := by
  induction m with
  | nil => simpa [Memory.write] using h
  | cons e m ih =>
    obtain ⟨k, b⟩ := e
    simp only [Memory.write] at h
    split at h
    · simpa using h
    · split at h
      · simp only [List.mem_cons] at h ⊢
        exact h.imp_right .inr
      · simp only [List.mem_cons] at h ⊢
        rcases h with h | h
        · exact .inr (.inl h)
        · exact (ih h).imp_right .inr

theorem Memory.write_wf {m : Memory} {a : Nat} {v : Byte} (sorted : Memory.wf m) : Memory.wf (m.write a v) := by
  induction m with
  | nil => simp [Memory.write]
  | cons e m ih =>
    obtain ⟨k, b⟩ := e
    rw [Memory.wf, List.pairwise_cons] at sorted
    simp only [Memory.write]
    split
    · rename_i hlt
      exact .cons (fun c hc => by
        rcases List.mem_cons.mp hc with rfl | hc
        · exact hlt
        · exact Nat.lt_trans hlt (sorted.1 c hc)) (.cons sorted.1 sorted.2)
    · split
      · rename_i heq
        exact .cons (fun c hc => heq ▸ sorted.1 c hc) sorted.2
      · refine .cons (fun c hc => ?_) (ih sorted.2)
        rcases mem_write hc with rfl | hc
        · show k < a
          omega
        · exact sorted.1 c hc

theorem Memory.write_inSpace {m : Memory} {a n : Nat} {v : Byte} (h : m.inSpace n) (ha : a < 2 ^ n) :
    (m.write a v).inSpace n := fun c hc => (mem_write hc).elim (fun e => e ▸ ha) (h c)

theorem Memory.writeBytes_wf {m : Memory} (as : List Nat) (bs : List Byte) (h : Memory.wf m) :
    Memory.wf (m.writeBytes as bs) := by
  induction as generalizing m bs with
  | nil => exact h
  | cons a as ih =>
    cases bs with
    | nil => exact h
    | cons b bs => exact ih bs (write_wf h)

theorem Memory.writeBytes_inSpace {m : Memory} {n : Nat} (as : List Nat) (bs : List Byte) (h : m.inSpace n)
    (ha : ∀ a ∈ as, a < 2 ^ n) : (m.writeBytes as bs).inSpace n := by
  induction as generalizing m bs with
  | nil => exact h
  | cons a as ih =>
    cases bs with
    | nil => exact h
    | cons b bs => exact ih bs (write_inSpace h (ha a (by simp))) fun c hc => ha c (List.mem_cons_of_mem _ hc)

/-- A write leaves every byte outside the written ones alone. -/
theorem Memory.read_writeBytes_ne (m : Memory) (as : List Nat) (bs : List Byte) {c : Nat} (h : c ∉ as) :
    (m.writeBytes as bs).read c = m.read c := by
  induction as generalizing m bs with
  | nil => rfl
  | cons a as ih =>
    simp only [List.mem_cons, not_or] at h
    cases bs with
    | nil => rfl
    | cons b bs => rw [Memory.writeBytes, ih _ _ h.2, Memory.read_write_ne _ _ h.1]

/-- A byte that has been given a value is what an access finds. -/
theorem Memory.byte_of_read {m : Memory} {a : Nat} {b : Byte} (h : m.read a = some b) : m.byte a = b := by
  rw [byte, h, Option.getD_some]

@[simp] theorem bytesOf_length (v : BitVec 64) (n : Nat) : (bytesOf v n).length = n := by
  induction n generalizing v with
  | zero => rfl
  | succ n ih => simp [bytesOf, ih]

@[simp] theorem byteAddrs_length (xlen : Nat) (a : Word) (n : Nat) : (byteAddrs xlen a n).length = n := by
  induction n generalizing a with
  | zero => rfl
  | succ n ih => simp [byteAddrs, ih]

/-- Every address of an access lies in the address space. -/
theorem byteAddrs_lt {xlen : Nat} {a : Word} {n c : Nat} (h : c ∈ byteAddrs xlen a n) : c < 2 ^ xlen := by
  induction n generalizing a with
  | zero => simp [byteAddrs] at h
  | succ n ih =>
    rcases List.mem_cons.mp h with rfl | h
    · exact Nat.mod_lt _ (by positivity)
    · exact ih h

/-- What `markWritten` adds. -/
theorem mem_markWritten {w as : List Nat} {c : Nat} : c ∈ markWritten w as ↔ c ∈ w ∨ c ∈ as := by
  induction as generalizing w with
  | nil => simp [markWritten]
  | cons a as ih =>
    simp only [markWritten]
    split
    · rename_i h
      rw [ih, List.mem_cons]
      constructor
      · exact fun hc => hc.imp_right .inr
      · rintro (hc | rfl | hc)
        exacts [.inl hc, .inl h, .inr hc]
    · rw [ih, List.mem_cons, List.mem_cons]
      tauto

/-- Reset's memory is in canonical form. -/
theorem State.reset_mem_wf : Memory.wf State.reset.mem := by simp [State.reset]

/-- The address `k` bytes on, in the address space. -/
theorem toNat_add_mod {xlen k : Nat} (a : Word) (hx : xlen ≤ WORD_BITS) :
    (a + BitVec.ofNat WORD_BITS k).toNat % 2 ^ xlen = (a.toNat + k) % 2 ^ xlen := by
  have hd : 2 ^ xlen ∣ 2 ^ WORD_BITS := Nat.pow_dvd_pow 2 hx
  rw [BitVec.toNat_add, BitVec.toNat_ofNat, Nat.mod_mod_of_dvd _ hd, Nat.add_mod, Nat.mod_mod_of_dvd _ hd, ← Nat.add_mod]

/-- The addresses of an access, one by one. -/
theorem byteAddrs_eq {xlen : Nat} (a : Word) (n : Nat) (hx : xlen ≤ WORD_BITS) :
    byteAddrs xlen a n = (List.range n).map fun k => (a.toNat + k) % 2 ^ xlen := by
  have go : ∀ m k, byteAddrs xlen (a + BitVec.ofNat WORD_BITS k) m
      = (List.range' k m).map fun k => (a.toNat + k) % 2 ^ xlen := by
    intro m
    induction m with
    | zero => exact fun _ => rfl
    | succ m ih =>
      intro k
      have next : a + BitVec.ofNat WORD_BITS k + 1 = a + BitVec.ofNat WORD_BITS (k + 1) := by
        rw [BitVec.add_assoc, BitVec.ofNat_add]
        rfl
      simp only [byteAddrs, List.range'_succ, List.map_cons, next, ih (k + 1), toNat_add_mod a hx]
  simpa [List.range_eq_range'] using go n 0

/-- An access of at most eight bytes names no byte twice. -/
theorem byteAddrs_nodup {xlen : Nat} (a : Word) {n : Nat} (h3 : 3 ≤ xlen) (hx : xlen ≤ WORD_BITS) (hn : n ≤ 8) :
    (byteAddrs xlen a n).Nodup := by
  rw [byteAddrs_eq a n hx, List.nodup_map_iff_inj_on List.nodup_range]
  intro i hi j hj h
  have room : 2 ^ 3 ≤ 2 ^ xlen := Nat.pow_le_pow_right (by decide) h3
  have same : i % 2 ^ xlen = j % 2 ^ xlen := Nat.ModEq.add_left_cancel' a.toNat h
  rw [List.mem_range] at hi hj
  rwa [Nat.mod_eq_of_lt (by omega), Nat.mod_eq_of_lt (by omega)] at same

end Sys2Proof.Machine
end

