-- ==== Sys2Proof/Laws/State.lean ====
section
/-! SUPPORT. One lemma per field of State for each operation that writes fields unconditionally, true by rfl, so that no
proof unfolds a record update. -/

namespace Sys2Proof.Machine

/-! `State.drew`: only the count of draws moves. -/

@[simp] theorem State.drew_cfg (s : State) (k : Nat) : (s.drew k).cfg = s.cfg := rfl
@[simp] theorem State.drew_pc (s : State) (k : Nat) : (s.drew k).pc = s.pc := rfl
@[simp] theorem State.drew_x (s : State) (k : Nat) : (s.drew k).x = s.x := rfl
@[simp] theorem State.drew_priv (s : State) (k : Nat) : (s.drew k).priv = s.priv := rfl
@[simp] theorem State.drew_mie (s : State) (k : Nat) : (s.drew k).mie = s.mie := rfl
@[simp] theorem State.drew_mpie (s : State) (k : Nat) : (s.drew k).mpie = s.mpie := rfl
@[simp] theorem State.drew_mpp (s : State) (k : Nat) : (s.drew k).mpp = s.mpp := rfl
@[simp] theorem State.drew_typ (s : State) (k : Nat) : (s.drew k).typ = s.typ := rfl
@[simp] theorem State.drew_ptyp (s : State) (k : Nat) : (s.drew k).ptyp = s.ptyp := rfl
@[simp] theorem State.drew_exccode (s : State) (k : Nat) : (s.drew k).exccode = s.exccode := rfl
@[simp] theorem State.drew_intFlag (s : State) (k : Nat) : (s.drew k).intFlag = s.intFlag := rfl
@[simp] theorem State.drew_mepc (s : State) (k : Nat) : (s.drew k).mepc = s.mepc := rfl
@[simp] theorem State.drew_mtval (s : State) (k : Nat) : (s.drew k).mtval = s.mtval := rfl
@[simp] theorem State.drew_mtvec (s : State) (k : Nat) : (s.drew k).mtvec = s.mtvec := rfl
@[simp] theorem State.drew_mem (s : State) (k : Nat) : (s.drew k).mem = s.mem := rfl
@[simp] theorem State.drew_pending (s : State) (k : Nat) : (s.drew k).pending = s.pending := rfl
@[simp] theorem State.drew_written (s : State) (k : Nat) : (s.drew k).written = s.written := rfl
@[simp] theorem State.drew_draws (s : State) (k : Nat) : (s.drew k).draws = s.draws + k := rfl
@[simp] theorem State.drew_reporterDraws (s : State) (k : Nat) : (s.drew k).reporterDraws = s.reporterDraws := rfl
@[simp] theorem State.drew_baseRuns (s : State) (k : Nat) : (s.drew k).baseRuns = s.baseRuns := rfl
@[simp] theorem State.drew_irqLine (s : State) (k : Nat) : (s.drew k).irqLine = s.irqLine := rfl
@[simp] theorem State.drew_nmiLine (s : State) (k : Nat) : (s.drew k).nmiLine = s.nmiLine := rfl

/-! `State.goto`: only the pc moves. -/

@[simp] theorem State.goto_cfg (s : State) (t : Word) : (s.goto t).cfg = s.cfg := rfl
@[simp] theorem State.goto_pc (s : State) (t : Word) : (s.goto t).pc = s.target t := rfl
@[simp] theorem State.goto_x (s : State) (t : Word) : (s.goto t).x = s.x := rfl
@[simp] theorem State.goto_priv (s : State) (t : Word) : (s.goto t).priv = s.priv := rfl
@[simp] theorem State.goto_mie (s : State) (t : Word) : (s.goto t).mie = s.mie := rfl
@[simp] theorem State.goto_mpie (s : State) (t : Word) : (s.goto t).mpie = s.mpie := rfl
@[simp] theorem State.goto_mpp (s : State) (t : Word) : (s.goto t).mpp = s.mpp := rfl
@[simp] theorem State.goto_typ (s : State) (t : Word) : (s.goto t).typ = s.typ := rfl
@[simp] theorem State.goto_ptyp (s : State) (t : Word) : (s.goto t).ptyp = s.ptyp := rfl
@[simp] theorem State.goto_exccode (s : State) (t : Word) : (s.goto t).exccode = s.exccode := rfl
@[simp] theorem State.goto_intFlag (s : State) (t : Word) : (s.goto t).intFlag = s.intFlag := rfl
@[simp] theorem State.goto_mepc (s : State) (t : Word) : (s.goto t).mepc = s.mepc := rfl
@[simp] theorem State.goto_mtval (s : State) (t : Word) : (s.goto t).mtval = s.mtval := rfl
@[simp] theorem State.goto_mtvec (s : State) (t : Word) : (s.goto t).mtvec = s.mtvec := rfl
@[simp] theorem State.goto_mem (s : State) (t : Word) : (s.goto t).mem = s.mem := rfl
@[simp] theorem State.goto_pending (s : State) (t : Word) : (s.goto t).pending = s.pending := rfl
@[simp] theorem State.goto_written (s : State) (t : Word) : (s.goto t).written = s.written := rfl
@[simp] theorem State.goto_draws (s : State) (t : Word) : (s.goto t).draws = s.draws := rfl
@[simp] theorem State.goto_reporterDraws (s : State) (t : Word) : (s.goto t).reporterDraws = s.reporterDraws := rfl
@[simp] theorem State.goto_baseRuns (s : State) (t : Word) : (s.goto t).baseRuns = s.baseRuns := rfl
@[simp] theorem State.goto_irqLine (s : State) (t : Word) : (s.goto t).irqLine = s.irqLine := rfl
@[simp] theorem State.goto_nmiLine (s : State) (t : Word) : (s.goto t).nmiLine = s.nmiLine := rfl

/-! `State.withRegs`: only the register file. -/

@[simp] theorem State.withRegs_cfg (s : State) (r : Vector Word 32) : (s.withRegs r).cfg = s.cfg := rfl
@[simp] theorem State.withRegs_pc (s : State) (r : Vector Word 32) : (s.withRegs r).pc = s.pc := rfl
@[simp] theorem State.withRegs_x (s : State) (r : Vector Word 32) : (s.withRegs r).x = r.set 0 0 := rfl
@[simp] theorem State.withRegs_priv (s : State) (r : Vector Word 32) : (s.withRegs r).priv = s.priv := rfl
@[simp] theorem State.withRegs_mie (s : State) (r : Vector Word 32) : (s.withRegs r).mie = s.mie := rfl
@[simp] theorem State.withRegs_mpie (s : State) (r : Vector Word 32) : (s.withRegs r).mpie = s.mpie := rfl
@[simp] theorem State.withRegs_mpp (s : State) (r : Vector Word 32) : (s.withRegs r).mpp = s.mpp := rfl
@[simp] theorem State.withRegs_typ (s : State) (r : Vector Word 32) : (s.withRegs r).typ = s.typ := rfl
@[simp] theorem State.withRegs_ptyp (s : State) (r : Vector Word 32) : (s.withRegs r).ptyp = s.ptyp := rfl
@[simp] theorem State.withRegs_exccode (s : State) (r : Vector Word 32) : (s.withRegs r).exccode = s.exccode := rfl
@[simp] theorem State.withRegs_intFlag (s : State) (r : Vector Word 32) : (s.withRegs r).intFlag = s.intFlag := rfl
@[simp] theorem State.withRegs_mepc (s : State) (r : Vector Word 32) : (s.withRegs r).mepc = s.mepc := rfl
@[simp] theorem State.withRegs_mtval (s : State) (r : Vector Word 32) : (s.withRegs r).mtval = s.mtval := rfl
@[simp] theorem State.withRegs_mtvec (s : State) (r : Vector Word 32) : (s.withRegs r).mtvec = s.mtvec := rfl
@[simp] theorem State.withRegs_mem (s : State) (r : Vector Word 32) : (s.withRegs r).mem = s.mem := rfl
@[simp] theorem State.withRegs_pending (s : State) (r : Vector Word 32) : (s.withRegs r).pending = s.pending := rfl
@[simp] theorem State.withRegs_written (s : State) (r : Vector Word 32) : (s.withRegs r).written = s.written := rfl
@[simp] theorem State.withRegs_draws (s : State) (r : Vector Word 32) : (s.withRegs r).draws = s.draws := rfl
@[simp] theorem State.withRegs_reporterDraws (s : State) (r : Vector Word 32) :
    (s.withRegs r).reporterDraws = s.reporterDraws := rfl
@[simp] theorem State.withRegs_baseRuns (s : State) (r : Vector Word 32) : (s.withRegs r).baseRuns = s.baseRuns := rfl
@[simp] theorem State.withRegs_irqLine (s : State) (r : Vector Word 32) : (s.withRegs r).irqLine = s.irqLine := rfl
@[simp] theorem State.withRegs_nmiLine (s : State) (r : Vector Word 32) : (s.withRegs r).nmiLine = s.nmiLine := rfl

/-! `State.countBase`: only the count of base instructions. -/

@[simp] theorem State.countBase_cfg (s : State) : s.countBase.cfg = s.cfg := rfl
@[simp] theorem State.countBase_pc (s : State) : s.countBase.pc = s.pc := rfl
@[simp] theorem State.countBase_x (s : State) : s.countBase.x = s.x := rfl
@[simp] theorem State.countBase_priv (s : State) : s.countBase.priv = s.priv := rfl
@[simp] theorem State.countBase_mie (s : State) : s.countBase.mie = s.mie := rfl
@[simp] theorem State.countBase_mpie (s : State) : s.countBase.mpie = s.mpie := rfl
@[simp] theorem State.countBase_mpp (s : State) : s.countBase.mpp = s.mpp := rfl
@[simp] theorem State.countBase_typ (s : State) : s.countBase.typ = s.typ := rfl
@[simp] theorem State.countBase_ptyp (s : State) : s.countBase.ptyp = s.ptyp := rfl
@[simp] theorem State.countBase_exccode (s : State) : s.countBase.exccode = s.exccode := rfl
@[simp] theorem State.countBase_intFlag (s : State) : s.countBase.intFlag = s.intFlag := rfl
@[simp] theorem State.countBase_mepc (s : State) : s.countBase.mepc = s.mepc := rfl
@[simp] theorem State.countBase_mtval (s : State) : s.countBase.mtval = s.mtval := rfl
@[simp] theorem State.countBase_mtvec (s : State) : s.countBase.mtvec = s.mtvec := rfl
@[simp] theorem State.countBase_mem (s : State) : s.countBase.mem = s.mem := rfl
@[simp] theorem State.countBase_pending (s : State) : s.countBase.pending = s.pending := rfl
@[simp] theorem State.countBase_written (s : State) : s.countBase.written = s.written := rfl
@[simp] theorem State.countBase_draws (s : State) : s.countBase.draws = s.draws := rfl
@[simp] theorem State.countBase_reporterDraws (s : State) : s.countBase.reporterDraws = s.reporterDraws := rfl
@[simp] theorem State.countBase_baseRuns (s : State) : s.countBase.baseRuns = s.baseRuns + 1 := rfl
@[simp] theorem State.countBase_irqLine (s : State) : s.countBase.irqLine = s.irqLine := rfl
@[simp] theorem State.countBase_nmiLine (s : State) : s.countBase.nmiLine = s.nmiLine := rfl

/-! `State.store`: memory and the record of written bytes. -/

@[simp] theorem State.store_cfg (s : State) (a : Word) (n : Nat) (v : BitVec 64) : (s.store a n v).cfg = s.cfg := rfl
@[simp] theorem State.store_pc (s : State) (a : Word) (n : Nat) (v : BitVec 64) : (s.store a n v).pc = s.pc := rfl
@[simp] theorem State.store_x (s : State) (a : Word) (n : Nat) (v : BitVec 64) : (s.store a n v).x = s.x := rfl
@[simp] theorem State.store_priv (s : State) (a : Word) (n : Nat) (v : BitVec 64) : (s.store a n v).priv = s.priv := rfl
@[simp] theorem State.store_mie (s : State) (a : Word) (n : Nat) (v : BitVec 64) : (s.store a n v).mie = s.mie := rfl
@[simp] theorem State.store_mpie (s : State) (a : Word) (n : Nat) (v : BitVec 64) : (s.store a n v).mpie = s.mpie := rfl
@[simp] theorem State.store_mpp (s : State) (a : Word) (n : Nat) (v : BitVec 64) : (s.store a n v).mpp = s.mpp := rfl
@[simp] theorem State.store_typ (s : State) (a : Word) (n : Nat) (v : BitVec 64) : (s.store a n v).typ = s.typ := rfl
@[simp] theorem State.store_ptyp (s : State) (a : Word) (n : Nat) (v : BitVec 64) : (s.store a n v).ptyp = s.ptyp := rfl
@[simp] theorem State.store_exccode (s : State) (a : Word) (n : Nat) (v : BitVec 64) :
    (s.store a n v).exccode = s.exccode := rfl
@[simp] theorem State.store_intFlag (s : State) (a : Word) (n : Nat) (v : BitVec 64) :
    (s.store a n v).intFlag = s.intFlag := rfl
@[simp] theorem State.store_mepc (s : State) (a : Word) (n : Nat) (v : BitVec 64) : (s.store a n v).mepc = s.mepc := rfl
@[simp] theorem State.store_mtval (s : State) (a : Word) (n : Nat) (v : BitVec 64) :
    (s.store a n v).mtval = s.mtval := rfl
@[simp] theorem State.store_mtvec (s : State) (a : Word) (n : Nat) (v : BitVec 64) :
    (s.store a n v).mtvec = s.mtvec := rfl
@[simp] theorem State.store_mem (s : State) (a : Word) (n : Nat) (v : BitVec 64) :
    (s.store a n v).mem = s.mem.writeBytes (s.addrs a n) (bytesOf v n) := rfl
@[simp] theorem State.store_pending (s : State) (a : Word) (n : Nat) (v : BitVec 64) :
    (s.store a n v).pending = s.pending := rfl
@[simp] theorem State.store_written (s : State) (a : Word) (n : Nat) (v : BitVec 64) :
    (s.store a n v).written = markWritten s.written (s.addrs a n) := rfl
@[simp] theorem State.store_draws (s : State) (a : Word) (n : Nat) (v : BitVec 64) :
    (s.store a n v).draws = s.draws := rfl
@[simp] theorem State.store_reporterDraws (s : State) (a : Word) (n : Nat) (v : BitVec 64) :
    (s.store a n v).reporterDraws = s.reporterDraws := rfl
@[simp] theorem State.store_baseRuns (s : State) (a : Word) (n : Nat) (v : BitVec 64) :
    (s.store a n v).baseRuns = s.baseRuns := rfl
@[simp] theorem State.store_irqLine (s : State) (a : Word) (n : Nat) (v : BitVec 64) :
    (s.store a n v).irqLine = s.irqLine := rfl
@[simp] theorem State.store_nmiLine (s : State) (a : Word) (n : Nat) (v : BitVec 64) :
    (s.store a n v).nmiLine = s.nmiLine := rfl

/-! `State.trapEntry`: 60 R184, R186. -/

@[simp] theorem State.trapEntry_cfg (s : State) (e : ExcCode) (epc v : Word) : (s.trapEntry e epc v).cfg = s.cfg := rfl
@[simp] theorem State.trapEntry_pc (s : State) (e : ExcCode) (epc v : Word) :
    (s.trapEntry e epc v).pc = s.target (excEntryPc s.cfg s.mtvec) := rfl
@[simp] theorem State.trapEntry_x (s : State) (e : ExcCode) (epc v : Word) : (s.trapEntry e epc v).x = s.x := rfl
@[simp] theorem State.trapEntry_priv (s : State) (e : ExcCode) (epc v : Word) :
    (s.trapEntry e epc v).priv = .machine := rfl
@[simp] theorem State.trapEntry_mie (s : State) (e : ExcCode) (epc v : Word) : (s.trapEntry e epc v).mie = false := rfl
@[simp] theorem State.trapEntry_mpie (s : State) (e : ExcCode) (epc v : Word) :
    (s.trapEntry e epc v).mpie = s.mie := rfl
@[simp] theorem State.trapEntry_mpp (s : State) (e : ExcCode) (epc v : Word) :
    (s.trapEntry e epc v).mpp = modeBits s.cfg s.priv := rfl
@[simp] theorem State.trapEntry_typ (s : State) (e : ExcCode) (epc v : Word) :
    (s.trapEntry e epc v).typ = s.cfg.submExc := rfl
@[simp] theorem State.trapEntry_ptyp (s : State) (e : ExcCode) (epc v : Word) :
    (s.trapEntry e epc v).ptyp = s.typ := rfl
@[simp] theorem State.trapEntry_exccode (s : State) (e : ExcCode) (epc v : Word) :
    (s.trapEntry e epc v).exccode = codeBits e := rfl
@[simp] theorem State.trapEntry_intFlag (s : State) (e : ExcCode) (epc v : Word) :
    (s.trapEntry e epc v).intFlag = false := rfl
@[simp] theorem State.trapEntry_mepc (s : State) (e : ExcCode) (epc v : Word) : (s.trapEntry e epc v).mepc = epc := rfl
@[simp] theorem State.trapEntry_mtval (s : State) (e : ExcCode) (epc v : Word) : (s.trapEntry e epc v).mtval = v := rfl
@[simp] theorem State.trapEntry_mtvec (s : State) (e : ExcCode) (epc v : Word) :
    (s.trapEntry e epc v).mtvec = s.mtvec := rfl
@[simp] theorem State.trapEntry_mem (s : State) (e : ExcCode) (epc v : Word) : (s.trapEntry e epc v).mem = s.mem := rfl
@[simp] theorem State.trapEntry_pending (s : State) (e : ExcCode) (epc v : Word) :
    (s.trapEntry e epc v).pending = s.pending := rfl
@[simp] theorem State.trapEntry_written (s : State) (e : ExcCode) (epc v : Word) :
    (s.trapEntry e epc v).written = s.written := rfl
@[simp] theorem State.trapEntry_draws (s : State) (e : ExcCode) (epc v : Word) :
    (s.trapEntry e epc v).draws = s.draws := rfl
@[simp] theorem State.trapEntry_reporterDraws (s : State) (e : ExcCode) (epc v : Word) :
    (s.trapEntry e epc v).reporterDraws = s.reporterDraws := rfl
@[simp] theorem State.trapEntry_baseRuns (s : State) (e : ExcCode) (epc v : Word) :
    (s.trapEntry e epc v).baseRuns = s.baseRuns := rfl
@[simp] theorem State.trapEntry_irqLine (s : State) (e : ExcCode) (epc v : Word) :
    (s.trapEntry e epc v).irqLine = s.irqLine := rfl
@[simp] theorem State.trapEntry_nmiLine (s : State) (e : ExcCode) (epc v : Word) :
    (s.trapEntry e epc v).nmiLine = s.nmiLine := rfl

/-! `State.raise`: 00 R15. -/

@[simp] theorem State.raise_cfg (s : State) (e : ExcCode) (v : Word) : (s.raise e v).cfg = s.cfg := rfl
@[simp] theorem State.raise_pc (s : State) (e : ExcCode) (v : Word) :
    (s.raise e v).pc = s.target (excEntryPc s.cfg s.mtvec) := rfl
@[simp] theorem State.raise_x (s : State) (e : ExcCode) (v : Word) : (s.raise e v).x = s.x := rfl
@[simp] theorem State.raise_priv (s : State) (e : ExcCode) (v : Word) : (s.raise e v).priv = .machine := rfl
@[simp] theorem State.raise_mie (s : State) (e : ExcCode) (v : Word) : (s.raise e v).mie = false := rfl
@[simp] theorem State.raise_mpie (s : State) (e : ExcCode) (v : Word) : (s.raise e v).mpie = s.mie := rfl
@[simp] theorem State.raise_mpp (s : State) (e : ExcCode) (v : Word) : (s.raise e v).mpp = modeBits s.cfg s.priv := rfl
@[simp] theorem State.raise_typ (s : State) (e : ExcCode) (v : Word) : (s.raise e v).typ = s.cfg.submExc := rfl
@[simp] theorem State.raise_ptyp (s : State) (e : ExcCode) (v : Word) : (s.raise e v).ptyp = s.typ := rfl
@[simp] theorem State.raise_exccode (s : State) (e : ExcCode) (v : Word) : (s.raise e v).exccode = codeBits e := rfl
@[simp] theorem State.raise_intFlag (s : State) (e : ExcCode) (v : Word) : (s.raise e v).intFlag = false := rfl
@[simp] theorem State.raise_mepc (s : State) (e : ExcCode) (v : Word) : (s.raise e v).mepc = s.pc := rfl
@[simp] theorem State.raise_mtval (s : State) (e : ExcCode) (v : Word) : (s.raise e v).mtval = v := rfl
@[simp] theorem State.raise_mtvec (s : State) (e : ExcCode) (v : Word) : (s.raise e v).mtvec = s.mtvec := rfl
@[simp] theorem State.raise_mem (s : State) (e : ExcCode) (v : Word) : (s.raise e v).mem = s.mem := rfl
@[simp] theorem State.raise_pending (s : State) (e : ExcCode) (v : Word) : (s.raise e v).pending = s.pending := rfl
@[simp] theorem State.raise_written (s : State) (e : ExcCode) (v : Word) : (s.raise e v).written = s.written := rfl
@[simp] theorem State.raise_draws (s : State) (e : ExcCode) (v : Word) : (s.raise e v).draws = s.draws := rfl
@[simp] theorem State.raise_reporterDraws (s : State) (e : ExcCode) (v : Word) :
    (s.raise e v).reporterDraws = s.reporterDraws := rfl
@[simp] theorem State.raise_baseRuns (s : State) (e : ExcCode) (v : Word) : (s.raise e v).baseRuns = s.baseRuns := rfl
@[simp] theorem State.raise_irqLine (s : State) (e : ExcCode) (v : Word) : (s.raise e v).irqLine = s.irqLine := rfl
@[simp] theorem State.raise_nmiLine (s : State) (e : ExcCode) (v : Word) : (s.raise e v).nmiLine = s.nmiLine := rfl

/-! `State.raiseDraw`: 60 R180, third row. -/

@[simp] theorem State.raiseDraw_cfg (s : State) (e : ExcCode) : (s.raiseDraw e).cfg = s.cfg := rfl
@[simp] theorem State.raiseDraw_pc (s : State) (e : ExcCode) :
    (s.raiseDraw e).pc = s.target (excEntryPc s.cfg s.mtvec) := rfl
@[simp] theorem State.raiseDraw_x (s : State) (e : ExcCode) : (s.raiseDraw e).x = s.x := rfl
@[simp] theorem State.raiseDraw_priv (s : State) (e : ExcCode) : (s.raiseDraw e).priv = .machine := rfl
@[simp] theorem State.raiseDraw_mie (s : State) (e : ExcCode) : (s.raiseDraw e).mie = false := rfl
@[simp] theorem State.raiseDraw_mpie (s : State) (e : ExcCode) : (s.raiseDraw e).mpie = s.mie := rfl
@[simp] theorem State.raiseDraw_mpp (s : State) (e : ExcCode) : (s.raiseDraw e).mpp = modeBits s.cfg s.priv := rfl
@[simp] theorem State.raiseDraw_typ (s : State) (e : ExcCode) : (s.raiseDraw e).typ = s.cfg.submExc := rfl
@[simp] theorem State.raiseDraw_ptyp (s : State) (e : ExcCode) : (s.raiseDraw e).ptyp = s.typ := rfl
@[simp] theorem State.raiseDraw_exccode (s : State) (e : ExcCode) : (s.raiseDraw e).exccode = codeBits e := rfl
@[simp] theorem State.raiseDraw_intFlag (s : State) (e : ExcCode) : (s.raiseDraw e).intFlag = false := rfl
@[simp] theorem State.raiseDraw_mepc (s : State) (e : ExcCode) : (s.raiseDraw e).mepc = s.pc := rfl
@[simp] theorem State.raiseDraw_mtval (s : State) (e : ExcCode) : (s.raiseDraw e).mtval = s.draw 0 := rfl
@[simp] theorem State.raiseDraw_mtvec (s : State) (e : ExcCode) : (s.raiseDraw e).mtvec = s.mtvec := rfl
@[simp] theorem State.raiseDraw_mem (s : State) (e : ExcCode) : (s.raiseDraw e).mem = s.mem := rfl
@[simp] theorem State.raiseDraw_pending (s : State) (e : ExcCode) : (s.raiseDraw e).pending = s.pending := rfl
@[simp] theorem State.raiseDraw_written (s : State) (e : ExcCode) : (s.raiseDraw e).written = s.written := rfl
@[simp] theorem State.raiseDraw_draws (s : State) (e : ExcCode) : (s.raiseDraw e).draws = s.draws + 1 := rfl
@[simp] theorem State.raiseDraw_reporterDraws (s : State) (e : ExcCode) :
    (s.raiseDraw e).reporterDraws = s.reporterDraws := rfl
@[simp] theorem State.raiseDraw_baseRuns (s : State) (e : ExcCode) : (s.raiseDraw e).baseRuns = s.baseRuns := rfl
@[simp] theorem State.raiseDraw_irqLine (s : State) (e : ExcCode) : (s.raiseDraw e).irqLine = s.irqLine := rfl
@[simp] theorem State.raiseDraw_nmiLine (s : State) (e : ExcCode) : (s.raiseDraw e).nmiLine = s.nmiLine := rfl

/-! `State.trapReturn`: 60 R195, R196. -/

@[simp] theorem State.trapReturn_cfg (s : State) (m : Mode) : (s.trapReturn m).cfg = s.cfg := rfl
@[simp] theorem State.trapReturn_pc (s : State) (m : Mode) : (s.trapReturn m).pc = s.target s.mepc := rfl
@[simp] theorem State.trapReturn_x (s : State) (m : Mode) : (s.trapReturn m).x = s.x := rfl
@[simp] theorem State.trapReturn_priv (s : State) (m : Mode) : (s.trapReturn m).priv = m := rfl
@[simp] theorem State.trapReturn_mie (s : State) (m : Mode) : (s.trapReturn m).mie = s.mpie := rfl
@[simp] theorem State.trapReturn_mpie (s : State) (m : Mode) : (s.trapReturn m).mpie = true := rfl
@[simp] theorem State.trapReturn_mpp (s : State) (m : Mode) : (s.trapReturn m).mpp = mppAfterReturn s.cfg := rfl
@[simp] theorem State.trapReturn_typ (s : State) (m : Mode) : (s.trapReturn m).typ = s.ptyp := rfl
@[simp] theorem State.trapReturn_ptyp (s : State) (m : Mode) :
    (s.trapReturn m).ptyp = (s.draw 3).low s.cfg.submBits := rfl
@[simp] theorem State.trapReturn_exccode (s : State) (m : Mode) :
    (s.trapReturn m).exccode = exccodeOf s.cfg (s.draw 1) := rfl
@[simp] theorem State.trapReturn_intFlag (s : State) (m : Mode) :
    (s.trapReturn m).intFlag = intFlagOf s.cfg (s.draw 1) := rfl
@[simp] theorem State.trapReturn_mepc (s : State) (m : Mode) : (s.trapReturn m).mepc = s.draw 0 := rfl
@[simp] theorem State.trapReturn_mtval (s : State) (m : Mode) : (s.trapReturn m).mtval = s.draw 2 := rfl
@[simp] theorem State.trapReturn_mtvec (s : State) (m : Mode) : (s.trapReturn m).mtvec = s.mtvec := rfl
@[simp] theorem State.trapReturn_mem (s : State) (m : Mode) : (s.trapReturn m).mem = s.mem := rfl
@[simp] theorem State.trapReturn_pending (s : State) (m : Mode) : (s.trapReturn m).pending = s.pending := rfl
@[simp] theorem State.trapReturn_written (s : State) (m : Mode) : (s.trapReturn m).written = s.written := rfl
@[simp] theorem State.trapReturn_draws (s : State) (m : Mode) : (s.trapReturn m).draws = s.draws + 4 := rfl
@[simp] theorem State.trapReturn_reporterDraws (s : State) (m : Mode) :
    (s.trapReturn m).reporterDraws = s.reporterDraws := rfl
@[simp] theorem State.trapReturn_baseRuns (s : State) (m : Mode) : (s.trapReturn m).baseRuns = s.baseRuns := rfl
@[simp] theorem State.trapReturn_irqLine (s : State) (m : Mode) : (s.trapReturn m).irqLine = s.irqLine := rfl
@[simp] theorem State.trapReturn_nmiLine (s : State) (m : Mode) : (s.trapReturn m).nmiLine = s.nmiLine := rfl

/-! `State.tick`: only the reporter's waits. -/

@[simp] theorem State.tick_cfg (s : State) : s.tick.cfg = s.cfg := rfl
@[simp] theorem State.tick_pc (s : State) : s.tick.pc = s.pc := rfl
@[simp] theorem State.tick_x (s : State) : s.tick.x = s.x := rfl
@[simp] theorem State.tick_priv (s : State) : s.tick.priv = s.priv := rfl
@[simp] theorem State.tick_mie (s : State) : s.tick.mie = s.mie := rfl
@[simp] theorem State.tick_mpie (s : State) : s.tick.mpie = s.mpie := rfl
@[simp] theorem State.tick_mpp (s : State) : s.tick.mpp = s.mpp := rfl
@[simp] theorem State.tick_typ (s : State) : s.tick.typ = s.typ := rfl
@[simp] theorem State.tick_ptyp (s : State) : s.tick.ptyp = s.ptyp := rfl
@[simp] theorem State.tick_exccode (s : State) : s.tick.exccode = s.exccode := rfl
@[simp] theorem State.tick_intFlag (s : State) : s.tick.intFlag = s.intFlag := rfl
@[simp] theorem State.tick_mepc (s : State) : s.tick.mepc = s.mepc := rfl
@[simp] theorem State.tick_mtval (s : State) : s.tick.mtval = s.mtval := rfl
@[simp] theorem State.tick_mtvec (s : State) : s.tick.mtvec = s.mtvec := rfl
@[simp] theorem State.tick_mem (s : State) : s.tick.mem = s.mem := rfl
@[simp] theorem State.tick_pending (s : State) :
    s.tick.pending = s.pending.map fun q => { q with wait := q.wait - 1 } := rfl
@[simp] theorem State.tick_written (s : State) : s.tick.written = s.written := rfl
@[simp] theorem State.tick_draws (s : State) : s.tick.draws = s.draws := rfl
@[simp] theorem State.tick_reporterDraws (s : State) : s.tick.reporterDraws = s.reporterDraws := rfl
@[simp] theorem State.tick_baseRuns (s : State) : s.tick.baseRuns = s.baseRuns := rfl
@[simp] theorem State.tick_irqLine (s : State) : s.tick.irqLine = s.irqLine := rfl
@[simp] theorem State.tick_nmiLine (s : State) : s.tick.nmiLine = s.nmiLine := rfl

/-! `State.unpost`: only what is pending. -/

@[simp] theorem State.unpost_cfg (s : State) (f : PendingFault) : (s.unpost f).cfg = s.cfg := rfl
@[simp] theorem State.unpost_pc (s : State) (f : PendingFault) : (s.unpost f).pc = s.pc := rfl
@[simp] theorem State.unpost_x (s : State) (f : PendingFault) : (s.unpost f).x = s.x := rfl
@[simp] theorem State.unpost_priv (s : State) (f : PendingFault) : (s.unpost f).priv = s.priv := rfl
@[simp] theorem State.unpost_mie (s : State) (f : PendingFault) : (s.unpost f).mie = s.mie := rfl
@[simp] theorem State.unpost_mpie (s : State) (f : PendingFault) : (s.unpost f).mpie = s.mpie := rfl
@[simp] theorem State.unpost_mpp (s : State) (f : PendingFault) : (s.unpost f).mpp = s.mpp := rfl
@[simp] theorem State.unpost_typ (s : State) (f : PendingFault) : (s.unpost f).typ = s.typ := rfl
@[simp] theorem State.unpost_ptyp (s : State) (f : PendingFault) : (s.unpost f).ptyp = s.ptyp := rfl
@[simp] theorem State.unpost_exccode (s : State) (f : PendingFault) : (s.unpost f).exccode = s.exccode := rfl
@[simp] theorem State.unpost_intFlag (s : State) (f : PendingFault) : (s.unpost f).intFlag = s.intFlag := rfl
@[simp] theorem State.unpost_mepc (s : State) (f : PendingFault) : (s.unpost f).mepc = s.mepc := rfl
@[simp] theorem State.unpost_mtval (s : State) (f : PendingFault) : (s.unpost f).mtval = s.mtval := rfl
@[simp] theorem State.unpost_mtvec (s : State) (f : PendingFault) : (s.unpost f).mtvec = s.mtvec := rfl
@[simp] theorem State.unpost_mem (s : State) (f : PendingFault) : (s.unpost f).mem = s.mem := rfl
@[simp] theorem State.unpost_pending (s : State) (f : PendingFault) :
    (s.unpost f).pending = s.pending.filter (fun q => q.fault != f) := rfl
@[simp] theorem State.unpost_written (s : State) (f : PendingFault) : (s.unpost f).written = s.written := rfl
@[simp] theorem State.unpost_draws (s : State) (f : PendingFault) : (s.unpost f).draws = s.draws := rfl
@[simp] theorem State.unpost_reporterDraws (s : State) (f : PendingFault) :
    (s.unpost f).reporterDraws = s.reporterDraws + 1 := rfl
@[simp] theorem State.unpost_baseRuns (s : State) (f : PendingFault) : (s.unpost f).baseRuns = s.baseRuns := rfl
@[simp] theorem State.unpost_irqLine (s : State) (f : PendingFault) : (s.unpost f).irqLine = s.irqLine := rfl
@[simp] theorem State.unpost_nmiLine (s : State) (f : PendingFault) : (s.unpost f).nmiLine = s.nmiLine := rfl

/-! `State.deliver`: 60 R175. -/

@[simp] theorem State.deliver_cfg (s : State) : s.deliver.cfg = s.cfg := rfl
@[simp] theorem State.deliver_pc (s : State) : s.deliver.pc = s.target (excEntryPc s.cfg s.mtvec) := rfl
@[simp] theorem State.deliver_x (s : State) : s.deliver.x = s.x := rfl
@[simp] theorem State.deliver_priv (s : State) : s.deliver.priv = .machine := rfl
@[simp] theorem State.deliver_mie (s : State) : s.deliver.mie = false := rfl
@[simp] theorem State.deliver_mpie (s : State) : s.deliver.mpie = s.mie := rfl
@[simp] theorem State.deliver_mpp (s : State) : s.deliver.mpp = modeBits s.cfg s.priv := rfl
@[simp] theorem State.deliver_typ (s : State) : s.deliver.typ = s.cfg.submExc := rfl
@[simp] theorem State.deliver_ptyp (s : State) : s.deliver.ptyp = s.typ := rfl
@[simp] theorem State.deliver_exccode (s : State) : s.deliver.exccode = codeBits s.chosenFault.code.exc := rfl
@[simp] theorem State.deliver_intFlag (s : State) : s.deliver.intFlag = false := rfl
@[simp] theorem State.deliver_mepc (s : State) : s.deliver.mepc = s.pc := rfl
@[simp] theorem State.deliver_mtval (s : State) : s.deliver.mtval = s.chosenFault.addr := rfl
@[simp] theorem State.deliver_mtvec (s : State) : s.deliver.mtvec = s.mtvec := rfl
@[simp] theorem State.deliver_mem (s : State) : s.deliver.mem = s.mem := rfl
@[simp] theorem State.deliver_pending (s : State) :
    s.deliver.pending = s.pending.filter (fun q => q.fault != s.chosenFault) := rfl
@[simp] theorem State.deliver_written (s : State) : s.deliver.written = s.written := rfl
@[simp] theorem State.deliver_draws (s : State) : s.deliver.draws = s.draws := rfl
@[simp] theorem State.deliver_reporterDraws (s : State) : s.deliver.reporterDraws = s.reporterDraws + 1 := rfl
@[simp] theorem State.deliver_baseRuns (s : State) : s.deliver.baseRuns = s.baseRuns := rfl
@[simp] theorem State.deliver_irqLine (s : State) : s.deliver.irqLine = s.irqLine := rfl
@[simp] theorem State.deliver_nmiLine (s : State) : s.deliver.nmiLine = s.nmiLine := rfl

end Sys2Proof.Machine
end

