-- ==== Sys2Proof/Laws/Ops.lean ====
section
/-! SUPPORT. What each shared operation can do, said once: general registers, control transfer, pending faults, and the
memory classes. -/

namespace Sys2Proof.Safety

open Sys2Proof.Machine

theorem SameControl.refl (s : State) : SameControl s s := by constructor <;> rfl

theorem SameMemory.refl (s : State) : SameMemory s s := ⟨fun _ => rfl, rfl, rfl⟩

theorem SameMemory.trans {s t u : State} (h : SameMemory s t) (k : SameMemory t u) : SameMemory s u :=
  ⟨fun a => (k.bytes a).trans (h.bytes a), k.pending.trans h.pending, k.written.trans h.written⟩

theorem SameContext.refl (s : State) : SameContext s s := ⟨fun _ => rfl, .refl s, rfl, rfl⟩

theorem SameContext.trans {s t u : State} (h : SameContext s t) (k : SameContext t u) : SameContext s u :=
  ⟨fun i => (k.regs i).trans (h.regs i), h.memory.trans k.memory, k.mtvec.trans h.mtvec, k.cfg.trans h.cfg⟩

theorem SameControl.trans {s t u : State} (h : SameControl s t) (k : SameControl t u) : SameControl s u := by
  constructor
  exacts [k.cfg.trans h.cfg, k.priv.trans h.priv, k.mie.trans h.mie, k.mpie.trans h.mpie, k.mpp.trans h.mpp,
    k.typ.trans h.typ, k.ptyp.trans h.ptyp, k.exccode.trans h.exccode, k.intFlag.trans h.intFlag,
    k.mepc.trans h.mepc, k.mtval.trans h.mtval, k.mtvec.trans h.mtvec]

/-- Accesses lie at the same addresses. -/
theorem SameControl.addrs {s t : State} (h : SameControl s t) (a : Word) (n : Nat) : t.addrs a n = s.addrs a n := by
  rw [State.addrs, State.addrs, h.cfg]

end Sys2Proof.Safety

namespace Sys2Proof.Machine

open Sys2Proof.Safety

/-! Registers (10 R23). -/

@[simp] theorem State.reg_zero (s : State) : s.reg 0 = 0 := rfl

@[simp] theorem State.setReg_zero (s : State) (v : Word) : s.setReg 0 v = s := rfl

theorem State.reg_setReg_same (s : State) {i : RegIx} (v : Word) (h : i ≠ 0) : (s.setReg i v).reg i = v := by
  simp [State.setReg, State.reg, h]

theorem State.reg_setReg_ne (s : State) {i j : RegIx} (v : Word) (h : j ≠ i) : (s.setReg i v).reg j = s.reg j := by
  have hv : (i : Nat) ≠ j := fun e => h (Fin.ext e.symm)
  simp only [State.setReg]
  split
  · rfl
  · simp [State.reg, Vector.getElem_set_ne, hv]

/-- A register write changes the register file and nothing else. -/
theorem State.setReg_eq (s : State) (i : RegIx) (v : Word) : s.setReg i v = { s with x := (s.setReg i v).x } := by
  simp only [State.setReg]
  split <;> rfl

/-- `x0` stays zero. -/
theorem State.setReg_x0 (s : State) (i : RegIx) (v : Word) (h : s.x[0] = 0) : (s.setReg i v).x[0] = 0 := by
  simp only [State.setReg]
  split
  · exact h
  · rename_i hi
    have hv : (i : Nat) ≠ 0 := fun e => hi (Fin.ext e)
    simpa [Vector.getElem_set_ne, hv] using h

/-! Control transfer (20 R64). -/

theorem Word.clearBit0_even (t : Word) : t.clearBit0.getLsbD 0 = false := by
  simp only [Word.clearBit0, BitVec.getLsbD_and]
  rw [show (~~~(1 : Word)).getLsbD 0 = false from by decide, Bool.and_false]

/-- Clearing bit 0 of an even address changes nothing. -/
theorem Word.clearBit0_of_even {t : Word} (h : t.getLsbD 0 = false) : t.clearBit0 = t := by
  apply BitVec.eq_of_getLsbD_eq
  intro i hi
  rw [Word.clearBit0, BitVec.getLsbD_and]
  have hm : ∀ k : Fin WORD_BITS, (~~~(1 : Word)).getLsbD k = decide (k ≠ 0) := by decide
  rw [hm ⟨i, hi⟩]
  by_cases h0 : i = 0
  · subst h0
    rw [h]
    rfl
  · simp [h0, Fin.ext_iff]

/-- With "C" a control transfer's target is even. -/
theorem State.target_even (s : State) (t : Word) (h : s.cfg.hasC = true) : (s.target t).getLsbD 0 = false := by
  simp only [State.target, h, if_true]
  exact Word.clearBit0_even t

/-- A control transfer to an address that the configuration allows goes exactly there. -/
theorem State.target_of_even (s : State) {t : Word} (h : s.cfg.hasC = true → t.getLsbD 0 = false) :
    s.target t = t := by
  simp only [State.target]
  split
  · rename_i hc
    exact Word.clearBit0_of_even (h hc)
  · rfl

/-! Pending faults (10 R37, 60 R175). -/

/-- Posting changes only what is pending and what the model keeps for the reporter. -/
theorem State.post_eq (s : State) (f : PendingFault) :
    s.post f = { s with pending := (s.post f).pending, reporterDraws := (s.post f).reporterDraws } := by
  simp only [State.post]
  split <;> rfl

/-- Posting adds nothing, or one fault that was not pending. -/
theorem State.post_pending (s : State) (f : PendingFault) :
    (s.post f).pending = s.pending ∨ ∃ n, f ∉ s.pendingFaults ∧ (s.post f).pending = s.pending ++ [⟨f, n⟩] := by
  simp only [State.post]
  split
  · exact .inl rfl
  · rename_i h
    exact .inr ⟨_, h, rfl⟩

theorem State.mem_post {s : State} {f g : PendingFault} :
    g ∈ (s.post f).pendingFaults ↔ g ∈ s.pendingFaults ∨ g = f := by
  simp only [State.post]
  split
  · rename_i h
    exact ⟨.inl, fun hg => hg.elim id (· ▸ h)⟩
  · simp [State.pendingFaults]

theorem State.post_nodup {s : State} {f : PendingFault} (h : s.pendingFaults.Nodup) :
    (s.post f).pendingFaults.Nodup := by
  simp only [State.post]
  split
  · exact h
  · rename_i hf
    simp only [State.pendingFaults, List.map_append, List.map_cons, List.map_nil, List.nodup_append]
    exact ⟨h, by simp, fun a ha b hb e => hf (by simp only [List.mem_singleton] at hb; subst hb; exact e ▸ ha)⟩

/-- A step the reporter lets pass keeps the set of faults. -/
@[simp] theorem State.tick_pendingFaults (s : State) : s.tick.pendingFaults = s.pendingFaults := by
  simp [State.pendingFaults, Function.comp_def]

/-- A delivered fault leaves the set, and no other does. -/
theorem State.mem_unpost {s : State} {f g : PendingFault} :
    g ∈ (s.unpost f).pendingFaults ↔ g ∈ s.pendingFaults ∧ g ≠ f := by
  simp only [State.pendingFaults, unpost_pending, List.mem_map, List.mem_filter, bne_iff_ne]
  constructor
  · rintro ⟨q, ⟨hq, hne⟩, rfl⟩
    exact ⟨⟨q, hq, rfl⟩, hne⟩
  · rintro ⟨⟨q, hq, rfl⟩, hne⟩
    exact ⟨q, ⟨hq, hne⟩, rfl⟩

theorem State.unpost_nodup {s : State} (f : PendingFault) (h : s.pendingFaults.Nodup) :
    (s.unpost f).pendingFaults.Nodup := h.sublist (List.filter_sublist.map _)

/-- The faults the reporter may choose are pending. -/
theorem mem_of_mem_dueFaults {p : List PendingFault} {f : PendingFault} (h : f ∈ dueFaults p) : f ∈ p := by
  simp only [dueFaults] at h
  split at h
  · exact List.mem_of_mem_filter h
  · exact h

/-- While a Load fault is pending, every fault the reporter may choose is one (60 R174). -/
theorem dueFaults_smallest {p : List PendingFault} {f g : PendingFault} (hf : f ∈ dueFaults p) (hg : g ∈ p)
    (hc : g.code = .load) : f.code = .load := by
  have hany : (p.any fun f => f.code == .load) = true := List.any_eq_true.mpr ⟨g, hg, by simp [hc]⟩
  simp only [dueFaults, hany, if_true, List.mem_filter, beq_iff_eq] at hf
  exact hf.2

theorem dueFaults_ne_nil {p : List PendingFault} (h : p ≠ []) : dueFaults p ≠ [] := by
  simp only [dueFaults]
  split
  · rename_i ha
    obtain ⟨f, hf, hc⟩ := List.any_eq_true.mp ha
    exact List.ne_nil_of_mem (List.mem_filter.mpr ⟨hf, hc⟩)
  · exact h

/-- The chosen fault is one of the due ones. -/
theorem State.chosenFault_mem_due {s : State} (h : s.pendingFaults ≠ []) :
    s.chosenFault ∈ dueFaults s.pendingFaults := by
  have hlen : 0 < (dueFaults s.pendingFaults).length := List.length_pos_of_ne_nil (dueFaults_ne_nil h)
  have hlt := Nat.mod_lt (Config.freeNat s.reporterDraws) hlen
  simp [State.chosenFault, List.getD_eq_getElem?_getD, List.getElem?_eq_getElem hlt]

theorem State.chosenFault_mem {s : State} (h : s.pendingFaults ≠ []) : s.chosenFault ∈ s.pendingFaults :=
  mem_of_mem_dueFaults (chosenFault_mem_due h)

/-- The reporter delivers exactly while some fault has waited to its end. -/
theorem State.reports_iff (s : State) : s.reports = true ↔ ∃ q ∈ s.pending, q.wait = 0 := by
  simp [State.reports]

/-- When the reporter delivers, something is pending. -/
theorem State.pendingFaults_ne_nil_of_reports {s : State} (h : s.reports = true) : s.pendingFaults ≠ [] := by
  obtain ⟨q, hq, _⟩ := s.reports_iff.mp h
  exact List.ne_nil_of_mem (List.mem_map_of_mem hq)

theorem State.tick_of_nil {s : State} (h : s.pending = []) : s.tick = s := by
  obtain ⟨cfg, pc, x, priv, mie, mpie, mpp, typ, ptyp, exccode, intFlag, mepc, mtval, mtvec, mem, pending⟩ := s
  subst h
  rfl

/-! What a step of the base set and the memory classes leaves alone. -/

theorem State.drew_sameControl (s : State) (k : Nat) : SameControl s (s.drew k) := by constructor <;> rfl

theorem State.goto_sameControl (s : State) (t : Word) : SameControl s (s.goto t) := by constructor <;> rfl

theorem State.withRegs_sameControl (s : State) (x' : Vector Word 32) : SameControl s (s.withRegs x') := by
  constructor <;> rfl

theorem State.store_sameControl (s : State) (a : Word) (n : Nat) (v : BitVec 64) : SameControl s (s.store a n v) := by
  constructor <;> rfl

theorem State.setReg_sameControl (s : State) (i : RegIx) (v : Word) : SameControl s (s.setReg i v) := by
  rw [State.setReg_eq]
  constructor <;> rfl

theorem State.post_sameControl (s : State) (f : PendingFault) : SameControl s (s.post f) := by
  rw [State.post_eq]
  constructor <;> rfl

theorem State.tick_sameControl (s : State) : SameControl s s.tick := by constructor <;> rfl

theorem State.spoilReg_sameControl (s : State) (r : Option RegIx) : SameControl s (s.spoilReg r) := by
  cases r with
  | none => exact .refl s
  | some rd => exact setReg_sameControl _ _ _

theorem State.spoilBytes_sameControl (s : State) (b : Option (Word × Width)) : SameControl s (s.spoilBytes b) := by
  cases b with
  | none => exact .refl s
  | some aw => exact store_sameControl _ _ _ _

theorem State.spoil_sameControl (s : State) (p : Spoilt) : SameControl s (s.spoil p) :=
  (spoilReg_sameControl s _).trans ((spoilBytes_sameControl _ _).trans (drew_sameControl _ _))

theorem State.poke_sameControl (s : State) (ws : List (Word × Byte)) : SameControl s (s.poke ws) := by
  induction ws generalizing s with
  | nil => exact .refl s
  | cons w ws ih => exact (store_sameControl s _ _ _).trans (ih _)

/-! The pc is moved by control transfer and trap entry alone. -/

@[simp] theorem State.setReg_pc (s : State) (i : RegIx) (v : Word) : (s.setReg i v).pc = s.pc := by
  rw [State.setReg_eq]

@[simp] theorem State.post_pc (s : State) (f : PendingFault) : (s.post f).pc = s.pc := by rw [State.post_eq]

@[simp] theorem State.spoil_pc (s : State) (p : Spoilt) : (s.spoil p).pc = s.pc := by
  obtain ⟨r, b⟩ := p
  cases r <;> cases b <;> simp [State.spoil, State.spoilReg, State.spoilBytes]

end Sys2Proof.Machine
end

