-- ==== Sys2Proof/Laws/Base.lean ====
section
/-! SUPPORT. What a step of the base set can do, said once: it completes, leaving the control state alone but for the CSRs
a CSR access may reach, or it takes one exception. -/

namespace Sys2Proof.Machine

open Sys2Proof.Safety

/-- `t` keeps what the invariant says of the data of `s`, and what is pending in `s` is still pending. -/
structure DataKept (s t : State) : Prop where
  mem     : Memory.wf s.mem → Memory.wf t.mem
  x0      : s.x[0] = 0 → t.x[0] = 0
  nodup   : s.pendingFaults.Nodup → t.pendingFaults.Nodup
  pending : ∀ q ∈ s.pending, q ∈ t.pending

theorem DataKept.refl (s : State) : DataKept s s := ⟨id, id, id, fun _ h => h⟩

theorem DataKept.trans {s t u : State} (h : DataKept s t) (k : DataKept t u) : DataKept s u where
  mem := k.mem ∘ h.mem
  x0 := k.x0 ∘ h.x0
  nodup := k.nodup ∘ h.nodup
  pending := fun f hf => k.pending f (h.pending f hf)

/-- A state that differs only outside the data keeps it. -/
theorem DataKept.of_eq {s t : State} (hm : t.mem = s.mem) (hx : t.x = s.x) (hp : t.pending = s.pending) :
    DataKept s t := by
  refine ⟨?_, ?_, ?_, ?_⟩ <;> simp [hm, hx, hp, State.pendingFaults]

theorem State.drew_dataKept (s : State) (k : Nat) : DataKept s (s.drew k) := .of_eq rfl rfl rfl

theorem State.goto_dataKept (s : State) (t : Word) : DataKept s (s.goto t) := .of_eq rfl rfl rfl

theorem State.countBase_dataKept (s : State) : DataKept s s.countBase := .of_eq rfl rfl rfl

theorem State.countBase_sameContext (s : State) : SameContext s s.countBase :=
  ⟨fun _ => rfl, ⟨fun _ => rfl, rfl, rfl⟩, rfl, rfl⟩

theorem State.raise_dataKept (s : State) (e : ExcCode) (v : Word) : DataKept s (s.raise e v) := .of_eq rfl rfl rfl

theorem State.withRegs_dataKept (s : State) (x' : Vector Word 32) : DataKept s (s.withRegs x') :=
  ⟨id, fun _ => by simp, id, fun _ h => h⟩

theorem State.store_dataKept (s : State) (a : Word) (n : Nat) (v : BitVec 64) : DataKept s (s.store a n v) :=
  ⟨fun h => Memory.writeBytes_wf _ _ h, id, id, fun _ h => h⟩

theorem State.poke_dataKept (s : State) (ws : List (Word × Byte)) : DataKept s (s.poke ws) := by
  induction ws generalizing s with
  | nil => exact .refl s
  | cons w ws ih => exact (store_dataKept s _ _ _).trans (ih _)

theorem State.withCsrs_dataKept (s : State) (c : Option CsrFields) : DataKept s (s.withCsrs c) := by
  cases c <;> exact .of_eq rfl rfl rfl

theorem State.setReg_dataKept (s : State) (i : RegIx) (v : Word) : DataKept s (s.setReg i v) := by
  refine ⟨?_, setReg_x0 s i v, ?_, ?_⟩ <;> rw [setReg_eq]
  exacts [id, id, fun _ h => h]

theorem State.post_dataKept (s : State) (f : PendingFault) : DataKept s (s.post f) := by
  refine ⟨?_, ?_, post_nodup, fun q hq => ?_⟩
  · rw [post_eq]
    exact id
  · rw [post_eq]
    exact id
  · obtain h | ⟨n, _, h⟩ := s.post_pending f
    · exact h ▸ hq
    · exact h ▸ List.mem_append_left _ hq

theorem State.spoil_dataKept (s : State) (p : Spoilt) : DataKept s (s.spoil p) := by
  obtain ⟨r, b⟩ := p
  have h1 : DataKept s (s.spoilReg r) := by
    cases r with
    | none => exact .refl s
    | some rd => exact setReg_dataKept _ _ _
  refine h1.trans (.trans ?_ (drew_dataKept _ 2))
  cases b with
  | none => exact .refl _
  | some aw => exact store_dataKept _ _ _ _

/-! What is pending after a base instruction. -/

@[simp] theorem State.setReg_pending (s : State) (i : RegIx) (v : Word) : (s.setReg i v).pending = s.pending := by
  rw [setReg_eq]

@[simp] theorem State.poke_pending (s : State) (ws : List (Word × Byte)) : (s.poke ws).pending = s.pending := by
  induction ws generalizing s with
  | nil => rfl
  | cons w ws ih => rw [poke, ih, store_pending]

@[simp] theorem State.spoil_pending (s : State) (p : Spoilt) : (s.spoil p).pending = s.pending := by
  obtain ⟨r, b⟩ := p
  cases r <;> cases b <;> simp [spoil, spoilReg, spoilBytes]

@[simp] theorem State.takeNext_pending (s : State) (w : BitVec 32) (n : BaseNext) :
    (s.takeNext w n).pending = s.pending := by
  simp only [takeNext]
  split
  · cases n.csrs <;> simp [withCsrs]
  · simp [withCsrs]

/-- A list of bytes is written in its order (20 R68). -/
theorem State.poke_mem (s : State) (ws : List (Word × Byte)) : (s.poke ws).mem = memoryAfter s ws := by
  induction ws generalizing s with
  | nil => rfl
  | cons w ws ih =>
    rw [poke, ih]
    simp [memoryAfter, addrs, byteAddrs, bytesOf, Memory.writeBytes]

/-- The bytes of a list of writes are recorded as written (20 R71). -/
theorem State.mem_poke_written {s : State} {ws : List (Word × Byte)} {c : Nat} :
    c ∈ (s.poke ws).written ↔ c ∈ s.written ∨ ∃ p ∈ ws, p.1.toNat % 2 ^ s.cfg.xlen = c := by
  induction ws generalizing s with
  | nil => simp [poke]
  | cons w ws ih =>
    rw [poke, ih, store_written, mem_markWritten]
    simp [addrs, byteAddrs, or_assoc, eq_comm]

/-- What is pending after an instruction: what was, with at most one fault added, of an access that suffers an access
error (10 R37). -/
def State.Posts (s : State) (q : List PostedFault) : Prop :=
  q = s.pending ∨ ∃ f, s.suffersError f.fault.code f.fault.addr = true ∧ q = s.pending ++ [f]

theorem State.post_posts {s u : State} {f : PendingFault} (error : s.suffersError f.code f.addr = true)
    (h : u.pending = s.pending) : s.Posts (u.post f).pending := by
  obtain e | ⟨n, _, e⟩ := u.post_pending f
  · exact .inl (e.trans h)
  · exact .inr ⟨_, error, h ▸ e⟩

/-- One access that gets as far as its access error is enough. -/
theorem State.suffersError_of {s : State} {c : AsyncCode} {k : AccessKind} {a : Word} {w : Width}
    (kind : k ∈ s.faultKinds c) (clear : ¬ s.hwBreak k a = true) (aligned : ¬ a.misaligned (widthBytes w) = true)
    (error : s.accessFault k a (widthBytes w) = true) : s.suffersError c a = true := by
  refine List.any_eq_true.mpr ⟨k, kind, List.any_eq_true.mpr ⟨w, by cases w <;> simp, ?_⟩⟩
  simp [suffersErrorAs, clear, aligned, error]

/-- What the test for posting says (42 R142 to R144). -/
theorem State.suffersError_iff {s : State} {c : AsyncCode} {a : Word} : s.suffersError c a = true ↔ ErrorAt s c a := by
  constructor
  · intro h
    obtain ⟨k, kind, h⟩ := List.any_eq_true.mp h
    obtain ⟨w, _, h⟩ := List.any_eq_true.mp h
    simp only [suffersErrorAs, Word.misaligned, Bool.and_eq_true, Bool.not_eq_true'] at h
    refine ⟨k, w, ?_, h.1.1, by simpa using h.1.2, h.2⟩
    cases c
    · exact .inl ⟨rfl, by simpa [faultKinds] using kind⟩
    · refine .inr ⟨rfl, ?_⟩
      simp only [faultKinds] at kind
      split at kind <;> simp_all
  · rintro ⟨k, w, kind, clear, aligned, error⟩
    refine suffersError_of (k := k) (w := w) ?_ (by simp [clear]) (by simp [Word.misaligned, aligned]) error
    obtain ⟨rfl, rfl⟩ | ⟨rfl, rfl | ⟨rfl, hasA⟩⟩ := kind
    · simp [faultKinds]
    · simp only [faultKinds]; split <;> simp
    · simp [faultKinds, hasA]

theorem State.accessError_pending {s : State} {c : AsyncCode} {a : Word} (error : s.suffersError c a = true)
    (p : Spoilt) (nextPc : Word) : s.Posts (s.accessError c a p nextPc).pending := by
  simp only [accessError]
  split
  · exact .inl (by simp)
  · exact post_posts (u := (s.drew 1).spoil p) error (by simp)

theorem State.loadClass_pending (s : State) (op : LoadOp) : s.Posts (s.loadClass op).pending := by
  simp only [loadClass]
  repeat' split
  exacts [.inl rfl, .inl rfl, accessError_pending (suffersError_of (k := .load) (by simp [faultKinds]) ‹_› ‹_› ‹_›) _ _,
    .inl (by simp)]

theorem State.storeClass_pending (s : State) (op : StoreOp) : s.Posts (s.storeClass op).pending := by
  simp only [storeClass]
  repeat' split
  exacts [.inl rfl, .inl rfl,
    accessError_pending (suffersError_of (k := .store) (by simp only [faultKinds]; split <;> simp) ‹_› ‹_› ‹_›) _ _,
    .inl rfl]

theorem State.amoClass_pending (s : State) (hasA : s.cfg.hasA = true) (op : AmoOp) :
    s.Posts (s.amoClass op).pending := by
  simp only [amoClass]
  repeat' split
  exacts [.inl rfl, .inl rfl,
    accessError_pending (suffersError_of (k := .amo) (by simp [faultKinds, hasA]) ‹_› ‹_› ‹_›) _ _, .inl (by simp)]

theorem State.completeBase_pending (s : State) (w : BitVec 32) (n : BaseNext) :
    (s.completeBase w n).pending = s.pending := by
  simp only [completeBase]
  split
  · rfl
  · simp

theorem State.raiseBase_pending (s : State) (w : BitVec 32) (e : BaseExc) (v : Word) (p : Spoilt) :
    (s.raiseBase w e v p).pending = s.pending := by
  cases e <;> simp only [raiseBase, raise_pending, spoil_pending]
  split <;> rfl

theorem State.applyAnswer_pending (s : State) (w : BitVec 32) (a : BaseAnswer) :
    s.Posts (s.applyAnswer w a).pending := by
  cases a with
  | next n => exact .inl (completeBase_pending s w n)
  | raise e v p => exact .inl (raiseBase_pending s w e v p)
  | nextPost n c a p =>
    simp only [applyAnswer]
    split
    · rename_i h
      exact post_posts (u := (s.takeNext w n).spoil p) (f := ⟨c, a⟩) (Bool.and_eq_true _ _ ▸ h).1 (by simp)
    · exact .inl (completeBase_pending s w n)
  | load op => exact loadClass_pending s op
  | store op => exact storeClass_pending s op
  | amo op =>
    simp only [applyAnswer]
    split
    · exact amoClass_pending s ‹_› op
    · exact .inl rfl

/-- A base instruction posts at most one fault. -/
theorem State.runBase_pending (s : State) (w : BitVec 32) : s.Posts (s.runBase w).pending :=
  applyAnswer_pending s.countBase w _

/-- The same of a word that is none of the nine. -/
theorem State.runOther_pending (s : State) (w : BitVec 32) : s.Posts (s.runOther w).pending := by
  simp only [runOther]
  split
  · exact .inl rfl
  · exact runBase_pending s w

/-! What a base instruction does to the control state. -/

/-- The exceptions an instruction can raise in a state: code 0 not with "C" (60 R162), codes 8 and 11 in their modes (60
R170, R171). -/
def State.mayRaise (s : State) : ExcCode → Bool
  | .instrAddrMisaligned => !s.cfg.hasC
  | .ecallFromU => s.priv == .user
  | .ecallFromM => s.priv == .machine
  | .instrAccessFault => true
  | .illegalInstruction => true
  | .breakpoint => true
  | .loadAddrMisaligned => true
  | .loadAccessFault => true
  | .storeAddrMisaligned => true
  | .storeAccessFault => true

theorem State.mayRaise_congr {s t : State} (h : SameControl s t) (e : ExcCode) : t.mayRaise e = s.mayRaise e := by
  cases e <;> simp only [mayRaise, h.cfg, h.priv]

theorem State.mayRaise_ecall (s : State) : s.mayRaise (ecallCode s.priv) = true := by
  cases hp : s.priv <;> simp [ecallCode, mayRaise, hp]

/-! Which words are CSR accesses. -/

/-- A word of which a row is decoded by its `funct3` is decoded (30 R83). -/
theorem isCsrWord_of_decodeWord {w : BitVec 32} (h : decodeWord w = none) : isCsrWord w = false := by
  rw [Bool.eq_false_iff]
  intro hw
  simp only [isCsrWord, Bool.and_eq_true, beq_iff_eq, bne_iff_ne] at hw
  simp only [decodeWord, hw.1.1, if_true] at h
  repeat' split at h
  all_goals try cases h
  rename_i h1 h2 h3 h5 h6 h7
  have cases : ∀ f : BitVec 3, f = 0 ∨ f = 4 ∨ f.toNat ∈ [1, 2, 3, 5, 6, 7] := by decide
  obtain h0 | h4 | hf := cases (funct3Of w)
  · exact hw.1.2 h0
  · exact hw.2 h4
  · simp only [List.mem_cons, List.not_mem_nil, or_false] at hf
    tauto

/-- A word the low two bits of which are not 11 is no SYSTEM word (30 R80). -/
theorem isCsrWord_of_short {b : Byte} (bs : List Byte) (h : isLong b = false) :
    isCsrWord (wordOfBytes (b :: bs)) = false := by
  rw [Bool.eq_false_iff]
  intro hw
  simp only [isCsrWord, Bool.and_eq_true, beq_iff_eq] at hw
  refine Bool.eq_false_iff.mp h ?_
  have low : b.extractLsb' 0 2 = (opcodeOf (wordOfBytes (b :: bs))).extractLsb' 0 2 := by
    apply BitVec.eq_of_getLsbD_eq
    intro i hi
    simp [wordOfBytes, opcodeOf, hi, show i < 8 by omega, show i < 32 by omega]
  rw [isLong, low, hw.1.1]
  decide

/-- `t` has the control state of `s`, or differs in CSR fields that the instruction `w` may reach. -/
def ControlKept (w : BitVec 32) (s t : State) : Prop :=
  SameControl s t
    ∨ (s.reachesCsrs w = true ∧ t.cfg = s.cfg ∧ t.priv = s.priv ∧ t.typ = s.typ ∧ t.ptyp = s.ptyp)

/-- What a base instruction `w` that starts in `s` can do: complete somewhere, or take one exception at its own pc in a
state `u` that differs from `s` in data only, and in nothing for a synchronous exception (60 R185). -/
inductive BaseEffect (w : BitVec 32) (s t : State) : Prop where
  | done (v : Word) (control : ControlKept w s t) (data : DataKept s t) (pc : t.pc = s.target v)
  | trap (u : State) (e : ExcCode) (v : Word) (control : SameControl s u) (data : DataKept s u) (pc : u.pc = s.pc)
      (code : s.mayRaise e = true) (illegal : e = .illegalInstruction → v = zext w)
      (sync : e ≠ .loadAccessFault → e ≠ .storeAccessFault → SameContext s u) (eq : t = u.raise e v)

/-- Raising at the instruction itself is one of the effects. -/
theorem State.raise_effect (s : State) {w : BitVec 32} {e : ExcCode} (v : Word) (h : s.mayRaise e = true)
    (hw : e = .illegalInstruction → v = zext w) : BaseEffect w s (s.raise e v) :=
  .trap s e v (.refl s) (.refl s) rfl h hw (fun _ _ => .refl s) rfl

/-- Completing in a state that differs from `s` in data only is one of the effects. -/
theorem State.goto_effect {s u : State} {w : BitVec 32} (v : Word) (hc : SameControl s u) (hd : DataKept s u) :
    BaseEffect w s (u.goto v) :=
  .done v (.inl (hc.trans (goto_sameControl _ _))) (hd.trans (goto_dataKept _ _))
    (by rw [goto_pc, target, target, hc.cfg])

theorem State.accessError_effect (s : State) (w : BitVec 32) (c : AsyncCode) (a : Word) (p : Spoilt) (nextPc : Word) :
    BaseEffect w s (s.accessError c a p nextPc) := by
  have hc : SameControl s ((s.drew 1).spoil p) := (drew_sameControl s 1).trans (spoil_sameControl _ p)
  have hd : DataKept s ((s.drew 1).spoil p) := (drew_dataKept s 1).trans (spoil_dataKept _ p)
  simp only [accessError]
  split
  · exact .trap _ _ _ hc hd (by simp) (by cases c <;> rfl) (by cases c <;> simp [AsyncCode.exc])
      (by cases c <;> simp [AsyncCode.exc]) rfl
  · exact goto_effect _ (hc.trans (post_sameControl _ _)) (hd.trans (post_dataKept _ _))

theorem State.loadClass_effect (s : State) (w : BitVec 32) (op : LoadOp) : BaseEffect w s (s.loadClass op) := by
  simp only [loadClass]
  repeat' split
  · exact raise_effect s _ rfl (by simp)
  · exact raise_effect s _ rfl (by simp)
  · exact accessError_effect s w _ _ _ _
  · exact goto_effect _ (setReg_sameControl s _ _) (setReg_dataKept s _ _)

theorem State.storeClass_effect (s : State) (w : BitVec 32) (op : StoreOp) : BaseEffect w s (s.storeClass op) := by
  simp only [storeClass]
  repeat' split
  · exact raise_effect s _ rfl (by simp)
  · exact raise_effect s _ rfl (by simp)
  · exact accessError_effect s w _ _ _ _
  · exact goto_effect _ (store_sameControl s _ _ _) (store_dataKept s _ _ _)

theorem State.amoClass_effect (s : State) (w : BitVec 32) (op : AmoOp) : BaseEffect w s (s.amoClass op) := by
  simp only [amoClass]
  repeat' split
  · exact raise_effect s _ rfl (by simp)
  · exact raise_effect s _ rfl (by simp)
  · exact accessError_effect s w _ _ _ _
  · exact goto_effect _ ((setReg_sameControl s _ _).trans (store_sameControl _ _ _ _))
      ((setReg_dataKept s _ _).trans (store_dataKept _ _ _ _))

theorem State.takeNext_dataKept (s : State) (w : BitVec 32) (n : BaseNext) : DataKept s (s.takeNext w n) :=
  ((withRegs_dataKept s _).trans (poke_dataKept _ _)).trans (withCsrs_dataKept _ _)

/-- A next state keeps the control state but for the CSR fields its instruction may reach. -/
theorem State.takeNext_controlKept (s : State) (w : BitVec 32) (n : BaseNext) : ControlKept w s (s.takeNext w n) := by
  have h : SameControl s ((s.withRegs n.x).poke n.writes) :=
    (withRegs_sameControl s _).trans (poke_sameControl _ _)
  simp only [takeNext]
  split
  · rename_i hr
    cases n.csrs with
    | none => exact .inl h
    | some c => exact .inr ⟨hr, h.cfg, h.priv, h.typ, h.ptyp⟩
  · exact .inl h

theorem ControlKept.trans {w : BitVec 32} {s t u : State} (h : ControlKept w s t) (k : SameControl t u) :
    ControlKept w s u := by
  obtain h | ⟨hr, h1, h2, h3, h4⟩ := h
  · exact .inl (h.trans k)
  · exact .inr ⟨hr, k.cfg.trans h1, k.priv.trans h2, k.typ.trans h3, k.ptyp.trans h4⟩

theorem ControlKept.cfg {w : BitVec 32} {s t : State} (h : ControlKept w s t) : t.cfg = s.cfg :=
  h.elim (·.cfg) (·.2.1)

theorem State.completeBase_effect (s : State) (w : BitVec 32) (n : BaseNext) :
    BaseEffect w s (s.completeBase w n) := by
  simp only [completeBase]
  split
  · rename_i h
    simp only [jumpMisaligned, Bool.and_eq_true] at h
    exact raise_effect s _ h.1.2 (by simp)
  · exact .done n.pc ((takeNext_controlKept s w n).trans (goto_sameControl _ _))
      ((takeNext_dataKept s w n).trans (goto_dataKept _ _))
      (by rw [goto_pc, target, target, (takeNext_controlKept s w n).cfg])

theorem State.raiseBase_effect (s : State) (w : BitVec 32) (e : BaseExc) (v : Word) (p : Spoilt) :
    BaseEffect w s (s.raiseBase w e v p) := by
  have spoilt : ∀ c : ExcCode, s.mayRaise c = true → c = .loadAccessFault ∨ c = .storeAccessFault →
      BaseEffect w s ((s.spoil p).raise c v) := fun c hc h =>
    .trap _ c v (spoil_sameControl s p) (spoil_dataKept s p) (by simp) hc (by rintro rfl; simp at h)
      (fun h1 h2 => absurd h (by simp [h1, h2])) rfl
  cases e with
  | instrAddrMisaligned =>
    simp only [raiseBase]
    split
    · exact raise_effect s _ rfl (fun _ => rfl)
    · rename_i h
      exact raise_effect s _ (by simpa [mayRaise] using h) (by simp)
  | loadAccessFault => exact spoilt _ rfl (by simp)
  | storeAccessFault => exact spoilt _ rfl (by simp)
  | illegalInstruction => exact raise_effect s _ rfl (fun _ => rfl)
  | environmentCall => exact raise_effect s _ (mayRaise_ecall s) (by cases s.priv <;> simp [ecallCode])
  | instrAccessFault => exact raise_effect s _ rfl (by simp)
  | breakpoint => exact raise_effect s _ rfl (by simp)
  | loadAddrMisaligned => exact raise_effect s _ rfl (by simp)
  | storeAddrMisaligned => exact raise_effect s _ rfl (by simp)

theorem State.applyAnswer_effect (s : State) (w : BitVec 32) (a : BaseAnswer) : BaseEffect w s (s.applyAnswer w a) := by
  cases a with
  | next n => exact completeBase_effect s w n
  | raise e v p => exact raiseBase_effect s w e v p
  | nextPost n c a p =>
    have hc : ControlKept w s (((s.takeNext w n).spoil p).post ⟨c, a⟩) :=
      ((takeNext_controlKept s w n).trans (spoil_sameControl _ p)).trans (post_sameControl _ _)
    simp only [applyAnswer]
    split
    · exact .done n.pc (hc.trans (goto_sameControl _ _))
        ((((takeNext_dataKept s w n).trans (spoil_dataKept _ p)).trans (post_dataKept _ _)).trans (goto_dataKept _ _))
        (by rw [goto_pc, target, target, hc.cfg])
    · exact completeBase_effect s w n
  | load op => exact loadClass_effect s w op
  | store op => exact storeClass_effect s w op
  | amo op =>
    simp only [applyAnswer]
    split
    · exact amoClass_effect s w op
    · exact raise_effect s _ rfl (fun _ => rfl)

/-- An effect from the state that counts the instruction is an effect from the state before. -/
theorem BaseEffect.of_countBase {w : BitVec 32} {s t : State} (h : BaseEffect w s.countBase t) : BaseEffect w s t := by
  have c : SameControl s s.countBase := by constructor <;> rfl
  have d := s.countBase_dataKept
  cases h with
  | done v control data pc =>
    refine .done v ?_ (d.trans data) pc
    obtain h | h := control
    exacts [.inl (c.trans h), .inr h]
  | trap u e v control data pc code illegal sync eq =>
    exact .trap u e v (c.trans control) (d.trans data) pc (State.mayRaise_congr c e ▸ code) illegal
      (fun h1 h2 => s.countBase_sameContext.trans (sync h1 h2)) eq

/-- Whatever `BaseStep` answers, the instruction completes or takes one exception. -/
theorem State.runBase_effect (s : State) (w : BitVec 32) : BaseEffect w s (s.runBase w) :=
  .of_countBase (applyAnswer_effect _ _ _)

/-- A word that is none of the nine completes or takes one exception. -/
theorem State.runOther_effect (s : State) (w : BitVec 32) : BaseEffect w s (s.runOther w) := by
  simp only [runOther]
  split
  · exact raise_effect s _ rfl (fun _ => rfl)
  · exact runBase_effect s w

end Sys2Proof.Machine
end

