-- ==== Sys2Proof/Laws/Csr.lean ====
section
/-! SUPPORT. The laws of the CSR operands and of the one operation behind the six CSR access instructions. -/

namespace Sys2Proof.Machine

open Sys2Proof.Safety

/-! Reading: the named fields stand at their positions (41 R128, 10 R36). -/

/-- A field inserted in a word is there, and every other bit is the word's. -/
theorem getLsbD_insertField (d : Word) (lo : Nat) {n : Nat} (f : BitVec n) (h : lo + n ≤ WORD_BITS) (i : Nat) :
    (insertField d lo f).getLsbD i = if lo ≤ i ∧ i < lo + n then f.getLsbD (i - lo) else d.getLsbD i := by
  simp only [insertField, BitVec.getLsbD_or, BitVec.getLsbD_and, BitVec.getLsbD_not, BitVec.getLsbD_shiftLeft,
    BitVec.getLsbD_setWidth, BitVec.getLsbD_allOnes]
  by_cases hi : i < WORD_BITS
  · have hj : i - lo < WORD_BITS := by omega
    by_cases h1 : lo ≤ i
    · by_cases h2 : i < lo + n
      · have h3 : i - lo < n := by omega
        simp [hi, hj, h1, h2, h3, Nat.not_lt.mpr h1]
      · have h3 : ¬ i - lo < n := by omega
        have h4 : f.getLsbD (i - lo) = false := BitVec.getLsbD_of_ge _ _ (by omega)
        simp [hi, hj, h1, h2, h3, h4]
    · simp [hi, h1, Nat.lt_of_not_le h1]
  · have h5 : ¬ i < lo + n := by omega
    simp [hi, h5, BitVec.getLsbD_of_ge d i (Nat.le_of_not_lt hi)]

/-- A one-bit field inserted in a word is there, and every other bit is the word's. -/
theorem getLsbD_insertFlag (d : Word) (lo : Nat) (b : Bool) (h : lo < WORD_BITS) (i : Nat) :
    (insertField d lo (BitVec.ofBool b)).getLsbD i = if i = lo then b else d.getLsbD i := by
  rw [getLsbD_insertField _ _ _ (by omega)]
  by_cases hi : i = lo
  · simp [hi]
  · rw [if_neg (by omega), if_neg hi]

/-- A field inserted in a word is read back. -/
theorem extract_insertField (d : Word) (lo : Nat) {n : Nat} (f : BitVec n) (h : lo + n ≤ WORD_BITS) :
    (insertField d lo f).extractLsb' lo n = f := by
  apply BitVec.eq_of_getLsbD_eq
  intro i hi
  simp only [BitVec.getLsbD_extractLsb', hi, decide_true, Bool.true_and]
  rw [getLsbD_insertField _ _ _ h, if_pos (by omega), Nat.add_sub_cancel_left]

/-- A field that does not overlap the one inserted is the word's. -/
theorem extract_insertField_of_disjoint (d : Word) (lo : Nat) {n : Nat} (f : BitVec n) (h : lo + n ≤ WORD_BITS)
    {at' m : Nat} (disjoint : at' + m ≤ lo ∨ lo + n ≤ at') :
    (insertField d lo f).extractLsb' at' m = d.extractLsb' at' m := by
  apply BitVec.eq_of_getLsbD_eq
  intro i hi
  simp only [BitVec.getLsbD_extractLsb', hi, decide_true, Bool.true_and]
  rw [getLsbD_insertField _ _ _ h, if_neg (by omega)]

section Layout

variable {cfg : Platform} (valid : cfg.Valid) (d : Word)

include valid

theorem getLsbD_packMstatus (mpp : BitVec PRIV_BITS) (mpie mie : Bool) (i : Nat) :
    (packMstatus cfg mpp mpie mie d).getLsbD i
      = if cfg.layout.mppAt ≤ i ∧ i < cfg.layout.mppAt + PRIV_BITS then mpp.getLsbD (i - cfg.layout.mppAt)
        else if i = cfg.layout.mpieAt then mpie else if i = cfg.layout.mieAt then mie else d.getLsbD i := by
  obtain ⟨h1, h2, h3⟩ := valid.fields.1
  have hx := valid.widths.2.1
  rw [packMstatus, getLsbD_insertField _ _ _ (by omega), getLsbD_insertFlag _ _ _ (by omega),
    getLsbD_insertFlag _ _ _ (by omega)]

theorem getLsbD_packMsubm (ptyp typ : Word) (i : Nat) :
    (packMsubm cfg ptyp typ d).getLsbD i
      = if cfg.layout.ptypAt ≤ i ∧ i < cfg.layout.ptypAt + cfg.submBits then
          (ptyp.setWidth cfg.submBits).getLsbD (i - cfg.layout.ptypAt)
        else if cfg.layout.typAt ≤ i ∧ i < cfg.layout.typAt + cfg.submBits then
          (typ.setWidth cfg.submBits).getLsbD (i - cfg.layout.typAt)
        else d.getLsbD i := by
  obtain ⟨h1, h2, _⟩ := valid.fields.2.2.1
  have hx := valid.widths.2.1
  rw [packMsubm, getLsbD_insertField _ _ _ (by omega), getLsbD_insertField _ _ _ (by omega)]

theorem getLsbD_packMcause (f : Bool) (c : Word) (i : Nat) :
    (packMcause cfg f c d).getLsbD i
      = if i = cfg.layout.intFlagAt then f
        else if cfg.layout.exccodeAt ≤ i ∧ i < cfg.layout.exccodeAt + cfg.exccodeBits then
          (c.setWidth cfg.exccodeBits).getLsbD (i - cfg.layout.exccodeAt)
        else d.getLsbD i := by
  obtain ⟨h1, h2, _⟩ := valid.fields.2.2.2
  have hx := valid.widths.2.1
  rw [packMcause, getLsbD_insertFlag _ _ _ (by omega), getLsbD_insertField _ _ _ (by omega)]

theorem mieOf_packMstatus (mpp : BitVec PRIV_BITS) (mpie mie : Bool) :
    mieOf cfg (packMstatus cfg mpp mpie mie d) = mie := by
  rw [mieOf, getLsbD_packMstatus valid]
  obtain ⟨h1, h2, h3⟩ := valid.fields.2.1
  rw [if_neg (by omega), if_neg h1, if_pos rfl]

theorem mpieOf_packMstatus (mpp : BitVec PRIV_BITS) (mpie mie : Bool) :
    mpieOf cfg (packMstatus cfg mpp mpie mie d) = mpie := by
  rw [mpieOf, getLsbD_packMstatus valid]
  obtain ⟨h1, h2, h3⟩ := valid.fields.2.1
  rw [if_neg (by omega), if_pos rfl]

theorem mppOf_packMstatus (mpp : BitVec PRIV_BITS) (mpie mie : Bool) :
    mppOf cfg (packMstatus cfg mpp mpie mie d) = mpp := by
  obtain ⟨h1, h2, h3⟩ := valid.fields.1
  have hx := valid.widths.2.1
  exact extract_insertField _ _ _ (by omega)

theorem typ_packMsubm (ptyp typ : Word) :
    (packMsubm cfg ptyp typ d).extractLsb' cfg.layout.typAt cfg.submBits = typ.setWidth cfg.submBits := by
  obtain ⟨h1, h2, h3⟩ := valid.fields.2.2.1
  have hx := valid.widths.2.1
  rw [packMsubm, extract_insertField_of_disjoint _ _ _ (by omega) (by omega), extract_insertField _ _ _ (by omega)]

theorem ptyp_packMsubm (ptyp typ : Word) :
    (packMsubm cfg ptyp typ d).extractLsb' cfg.layout.ptypAt cfg.submBits = ptyp.setWidth cfg.submBits := by
  obtain ⟨h1, h2, h3⟩ := valid.fields.2.2.1
  have hx := valid.widths.2.1
  exact extract_insertField _ _ _ (by omega)

theorem exccode_packMcause (f : Bool) (c : Word) :
    (packMcause cfg f c d).extractLsb' cfg.layout.exccodeAt cfg.exccodeBits = c.setWidth cfg.exccodeBits := by
  obtain ⟨h1, h2, h3⟩ := valid.fields.2.2.2
  have hx := valid.widths.2.1
  rw [packMcause, extract_insertField_of_disjoint _ _ _ (by omega) (by omega), extract_insertField _ _ _ (by omega)]

theorem intFlagOf_packMcause (f : Bool) (c : Word) : intFlagOf cfg (packMcause cfg f c d) = f := by
  rw [intFlagOf, getLsbD_packMcause valid, if_pos rfl]

end Layout

/-! Writing (41 R129). -/

theorem next_inj {s t : State} (h : (Host.Outcome.next s : Host.Outcome State Fault Refusal) = .next t) : s = t := by
  injection h

/-- Only a write of `msubm` is refused. -/
theorem State.csrWrite_eq_none (s : State) (c : Csr) (v : Word) : s.csrWrite c v = none ↔ c = .msubm := by
  cases c <;> simp [csrWrite]

/-- What a CSR write leaves alone. -/
structure CsrWriteFrame (s t : State) : Prop where
  cfg           : t.cfg = s.cfg
  pc            : t.pc = s.pc
  x             : t.x = s.x
  priv          : t.priv = s.priv
  typ           : t.typ = s.typ
  ptyp          : t.ptyp = s.ptyp
  mem           : t.mem = s.mem
  pending       : t.pending = s.pending
  written       : t.written = s.written
  draws         : t.draws = s.draws
  reporterDraws : t.reporterDraws = s.reporterDraws
  baseRuns      : t.baseRuns = s.baseRuns
  irqLine       : t.irqLine = s.irqLine
  nmiLine       : t.nmiLine = s.nmiLine

theorem State.csrWrite_frame {s t : State} {c : Csr} {v : Word} (h : s.csrWrite c v = some t) : CsrWriteFrame s t := by
  cases c <;> simp only [csrWrite, Option.some.injEq, reduceCtorEq] at h <;> subst h <;> constructor <;> rfl

/-! The access check (41 R120). -/

/-- An address that names a CSR is one of the six. -/
theorem csrAt_mem {l : CsrLayout} {a : BitVec 12} {c : Csr} (h : csrAt l a = some c) : a ∈ l.addresses := by
  simp only [csrAt] at h
  simp only [CsrLayout.addresses, List.mem_cons]
  grind

/-- The six CSRs are accessible in Machine Mode, to read and to write. -/
theorem csrAccessOk_machine {cfg : Platform} (valid : cfg.Valid) {a : BitVec 12} {c : Csr}
    (h : csrAt cfg.layout a = some c) (w : Bool) : csrAccessOk cfg a .machine w = true := by
  obtain ⟨_, h2, h3⟩ := valid.rights a (csrAt_mem h)
  simp only [csrAccessOk, modeBits, beq_false_of_ne h3, Bool.and_false, Bool.not_false, Bool.and_true]
  exact decide_eq_true h2

/-- None of the six is accessible in User Mode. -/
theorem csrAccessOk_user {cfg : Platform} (valid : cfg.Valid) {a : BitVec 12} {c : Csr}
    (h : csrAt cfg.layout a = some c) (w : Bool) : csrAccessOk cfg a .user w = false := by
  obtain ⟨h1, _, _⟩ := valid.rights a (csrAt_mem h)
  simp only [csrAccessOk, modeBits, Bool.and_eq_false_iff]
  exact .inl (decide_eq_false (Nat.not_le.mpr h1))

/-! The operation behind all six instructions. -/

/-- The state before the write: the draw of a read has been taken. -/
def State.afterRead (s : State) (reads : Bool) : State := if reads then s.drew 1 else s

/-- What a CSR access that answers a next state has done. -/
inductive CsrEffect (s : State) (i : Instr) (rd : RegIx) (csr : BitVec 12) (reads writes : Bool)
    (newValue : Word → Word) (t : State) : Prop where
  /-- The CSR is none of the six. -/
  | base (absent : csrAt s.cfg.layout csr = none) (eq : t = s.runBase (encode i))
  /-- The access check fails. -/
  | illegal (c : Csr) (at' : csrAt s.cfg.layout csr = some c) (denied : csrAccessOk s.cfg csr s.priv writes = false)
      (eq : t = s.raise .illegalInstruction (zext (encode i)))
  /-- The access is made. -/
  | done (c : Csr) (w : State) (at' : csrAt s.cfg.layout csr = some c)
      (allowed : csrAccessOk s.cfg csr s.priv writes = true)
      (write : (if writes then (s.afterRead reads).csrWrite c (newValue (s.csrValue c (s.draw 0)))
        else some (s.afterRead reads)) = some w)
      (eq : t = { (if reads then w.setReg rd (s.csrValue c (s.draw 0)) else w) with pc := s.nextPc })

/-- With a layout the rules allow, an access that is made is made in Machine Mode. -/
theorem machine_of_allowed {cfg : Platform} (valid : cfg.Valid) {a : BitVec 12} {c : Csr} {m : Mode} {w : Bool}
    (h : csrAt cfg.layout a = some c) (ok : csrAccessOk cfg a m w = true) : m = .machine := by
  cases m with
  | machine => rfl
  | user => rw [csrAccessOk_user valid h] at ok; cases ok

theorem State.csrAccess_next {s t : State} {i : Instr} {rd : RegIx} {csr : BitVec 12} {reads writes : Bool}
    {f : Word → Word} (h : s.csrAccess i rd csr reads writes f = .next t) :
    CsrEffect s i rd csr reads writes f t := by
  simp only [csrAccess] at h
  split at h
  · rename_i hc
    exact .base hc (by simpa using h.symm)
  · rename_i c hc
    split at h
    · rename_i ok
      split at h
      · cases h
      · rename_i w hw
        exact .done c w hc ok hw (next_inj h).symm
    · rename_i ok
      exact .illegal c hc (by simpa using ok) (by simpa using h.symm)

/-- In Machine Mode an access to one of the six CSRs that does not write `msubm` completes. -/
theorem State.csrAccess_completes {s : State} {i : Instr} {rd : RegIx} {csr : BitVec 12} {reads writes : Bool}
    {f : Word → Word} {c : Csr} (valid : s.cfg.Valid) (hc : csrAt s.cfg.layout csr = some c) (hm : s.priv = .machine)
    (hw : writes = true → c ≠ .msubm) : ∃ t, s.csrAccess i rd csr reads writes f = .next t := by
  simp only [csrAccess, hc, hm, csrAccessOk_machine valid hc, if_true]
  split
  · rename_i h
    split at h
    · rename_i hwr
      exact absurd ((csrWrite_eq_none _ _ _).mp h) (hw hwr)
    · cases h
  · exact ⟨_, rfl⟩

end Sys2Proof.Machine
end

