-- ==== Sys2Proof/Laws/Decode.lean ====
section
/-! SUPPORT. The fields of an I-type SYSTEM word (spec 30 rules R81, R82). -/

namespace Sys2Proof

/-- Every bit of a SYSTEM word, by the field it lies in. -/
theorem getLsbD_systemWord (top : BitVec 12) (mid : BitVec 5) (f : BitVec 3) (rd : RegIx) (i : Nat) :
    (systemWord top mid f rd).getLsbD i =
      if i < 7 then opcodeSystem.getLsbD i
      else if i < 12 then (BitVec.ofFin (w := 5) rd).getLsbD (i - 7)
      else if i < 15 then f.getLsbD (i - 12)
      else if i < 20 then mid.getLsbD (i - 15)
      else top.getLsbD (i - 20) := by
  show BitVec.getLsbD (w := 12 + 5 + 3 + 5 + 7) (top ++ mid ++ f ++ BitVec.ofFin (w := 5) rd ++ opcodeSystem) i = _
  simp only [BitVec.getLsbD_append]
  repeat' split
  all_goals first | rfl | omega

theorem opcodeOf_systemWord (top : BitVec 12) (mid : BitVec 5) (f : BitVec 3) (rd : RegIx) :
    opcodeOf (systemWord top mid f rd) = opcodeSystem := by
  apply BitVec.eq_of_getLsbD_eq
  intro i hi
  simp only [opcodeOf, BitVec.getLsbD_extractLsb', getLsbD_systemWord, Nat.zero_add, hi, if_true, decide_true,
    Bool.true_and]

theorem rdOf_systemWord (top : BitVec 12) (mid : BitVec 5) (f : BitVec 3) (rd : RegIx) :
    rdOf (systemWord top mid f rd) = rd := by
  have h : (systemWord top mid f rd).extractLsb' 7 5 = BitVec.ofFin (w := 5) rd := by
    apply BitVec.eq_of_getLsbD_eq
    intro i hi
    simp only [BitVec.getLsbD_extractLsb', getLsbD_systemWord, hi, decide_true, Bool.true_and]
    rw [if_neg (by omega), if_pos (by omega), Nat.add_sub_cancel_left]
  simp only [rdOf, h]

theorem funct3Of_systemWord (top : BitVec 12) (mid : BitVec 5) (f : BitVec 3) (rd : RegIx) :
    funct3Of (systemWord top mid f rd) = f := by
  apply BitVec.eq_of_getLsbD_eq
  intro i hi
  simp only [funct3Of, BitVec.getLsbD_extractLsb', getLsbD_systemWord, hi, decide_true, Bool.true_and]
  rw [if_neg (by omega), if_neg (by omega), if_pos (by omega), Nat.add_sub_cancel_left]

theorem mid_systemWord (top : BitVec 12) (mid : BitVec 5) (f : BitVec 3) (rd : RegIx) :
    (systemWord top mid f rd).extractLsb' 15 5 = mid := by
  apply BitVec.eq_of_getLsbD_eq
  intro i hi
  simp only [BitVec.getLsbD_extractLsb', getLsbD_systemWord, hi, decide_true, Bool.true_and]
  rw [if_neg (by omega), if_neg (by omega), if_neg (by omega), if_pos (by omega), Nat.add_sub_cancel_left]

theorem csrOf_systemWord (top : BitVec 12) (mid : BitVec 5) (f : BitVec 3) (rd : RegIx) :
    csrOf (systemWord top mid f rd) = top := by
  apply BitVec.eq_of_getLsbD_eq
  intro i hi
  simp only [csrOf, BitVec.getLsbD_extractLsb', getLsbD_systemWord, hi, decide_true, Bool.true_and]
  rw [if_neg (by omega), if_neg (by omega), if_neg (by omega), if_neg (by omega), Nat.add_sub_cancel_left]

/-- The fields of a word determine it. -/
theorem systemWord_of_fields (w : BitVec 32) (h : opcodeOf w = opcodeSystem) :
    systemWord (csrOf w) (w.extractLsb' 15 5) (funct3Of w) (rdOf w) = w := by
  apply BitVec.eq_of_getLsbD_eq
  intro i hi
  rw [getLsbD_systemWord, ← h]
  have hrd : BitVec.ofFin (w := 5) (rdOf w) = w.extractLsb' 7 5 := rfl
  rw [hrd]
  simp only [opcodeOf, csrOf, funct3Of, BitVec.getLsbD_extractLsb']
  repeat' split
  · simp [*]
  · rw [decide_eq_true (by omega), Bool.true_and, Nat.add_sub_of_le (by omega)]
  · rw [decide_eq_true (by omega), Bool.true_and, Nat.add_sub_of_le (by omega)]
  · rw [decide_eq_true (by omega), Bool.true_and, Nat.add_sub_of_le (by omega)]
  · rw [decide_eq_true (by omega), Bool.true_and, Nat.add_sub_of_le (by omega)]

/-- The bytes of a word stand for it (20 R61). -/
theorem wordOfBytes_bytesOfWord (w : BitVec 32) : wordOfBytes (bytesOfWord w) = w := by
  apply BitVec.eq_of_getLsbD_eq
  intro i hi
  simp only [bytesOfWord, wordOfBytes, BitVec.getLsbD_or, BitVec.getLsbD_shiftLeft, BitVec.getLsbD_setWidth,
    BitVec.getLsbD_extractLsb']
  by_cases h1 : i < 8
  · simp [h1, hi]
  · by_cases h2 : i < 16
    · have : i - 8 < 8 := by omega
      have e : 8 + (i - 8) = i := by omega
      simp [h1, hi, this, e, show i - 8 < 32 by omega]
    · by_cases h3 : i < 24
      · have a1 : ¬ i - 8 < 8 := by omega
        have a2 : i - 8 - 8 < 8 := by omega
        have e : 16 + (i - 8 - 8) = i := by omega
        simp [h1, hi, a1, a2, e, show i - 8 < 32 by omega, show i - 8 - 8 < 32 by omega]
      · have a1 : ¬ i - 8 < 8 := by omega
        have a2 : ¬ i - 8 - 8 < 8 := by omega
        have a3 : i - 8 - 8 - 8 < 8 := by omega
        have e : 24 + (i - 8 - 8 - 8) = i := by omega
        simp [h1, hi, a1, a2, a3, e, show i - 8 < 32 by omega, show i - 8 - 8 < 32 by omega,
          show i - 8 - 8 - 8 < 32 by omega]

end Sys2Proof
end

