-- ==== Sys2Proof/Laws/PerInstr.lean ====
section
/-! SUPPORT. Statements for all instructions, one lemma per constructor. -/

namespace Sys2Proof.Laws

/-- Every encoding lies under the major opcode SYSTEM (30 R81, R83). -/
def SystemWord.Statement (i : Instr) : Prop := opcodeOf (encode i) = opcodeSystem

theorem SystemWord.ecall : SystemWord.Statement .ecall := opcodeOf_systemWord _ _ _ _

theorem SystemWord.ebreak : SystemWord.Statement .ebreak := opcodeOf_systemWord _ _ _ _

theorem SystemWord.mret : SystemWord.Statement .mret := opcodeOf_systemWord _ _ _ _

theorem SystemWord.csrrw (rd : RegIx) (csr : BitVec 12) (rs1 : RegIx) : SystemWord.Statement (.csrrw rd csr rs1) :=
  opcodeOf_systemWord _ _ _ _

theorem SystemWord.csrrs (rd : RegIx) (csr : BitVec 12) (rs1 : RegIx) : SystemWord.Statement (.csrrs rd csr rs1) :=
  opcodeOf_systemWord _ _ _ _

theorem SystemWord.csrrc (rd : RegIx) (csr : BitVec 12) (rs1 : RegIx) : SystemWord.Statement (.csrrc rd csr rs1) :=
  opcodeOf_systemWord _ _ _ _

theorem SystemWord.csrrwi (rd : RegIx) (csr : BitVec 12) (uimm : Nat) : SystemWord.Statement (.csrrwi rd csr uimm) :=
  opcodeOf_systemWord _ _ _ _

theorem SystemWord.csrrsi (rd : RegIx) (csr : BitVec 12) (uimm : Nat) : SystemWord.Statement (.csrrsi rd csr uimm) :=
  opcodeOf_systemWord _ _ _ _

theorem SystemWord.csrrci (rd : RegIx) (csr : BitVec 12) (uimm : Nat) : SystemWord.Statement (.csrrci rd csr uimm) :=
  opcodeOf_systemWord _ _ _ _

end Sys2Proof.Laws
end

