-- ==== Sys2Proof/Laws/Word.lean ====
section
/-! SUPPORT. The values that have a width (spec 00 rules R7, R10): cutting a word to a width, and the operations that
keep one. -/

namespace Sys2Proof

@[simp] theorem Word.toNat_low (v : Word) (n : Nat) : (v.low n).toNat = v.toNat % 2 ^ n := by
  rw [low, BitVec.toNat_setWidth, BitVec.toNat_setWidth,
    Nat.mod_eq_of_lt (Nat.lt_of_le_of_lt (Nat.mod_le _ _) v.isLt)]

/-- A cut word has the width it is cut to. -/
theorem Word.low_fits (v : Word) (n : Nat) : (v.low n).Fits n := by
  rw [Fits, toNat_low]
  exact Nat.mod_lt _ (by positivity)

/-- Cutting a value to the width it has changes nothing. -/
theorem Word.low_of_fits {v : Word} {n : Nat} (h : v.Fits n) : v.low n = v := by
  apply BitVec.eq_of_toNat_eq
  rw [toNat_low, Nat.mod_eq_of_lt h]

/-- A value has a width exactly when its bits from there on are zero. -/
theorem Word.fits_iff {v : Word} {n : Nat} : v.Fits n ↔ ∀ i, n ≤ i → v.getLsbD i = false := by
  constructor
  · intro h i hi
    exact Nat.testBit_lt_two_pow (Nat.lt_of_lt_of_le h (Nat.pow_le_pow_right (by decide) hi))
  · intro h
    exact Nat.lt_pow_two_of_testBit _ fun i hi => h i hi

theorem Word.Fits.mono {v : Word} {n m : Nat} (h : v.Fits n) (hnm : n ≤ m) : v.Fits m :=
  Nat.lt_of_lt_of_le h (Nat.pow_le_pow_right (by decide) hnm)

theorem Word.Fits.and_right {v : Word} {n : Nat} (h : v.Fits n) (w : Word) : Word.Fits (v &&& w) n :=
  fits_iff.mpr fun i hi => by rw [BitVec.getLsbD_and, fits_iff.mp h i hi, Bool.false_and]

theorem Word.Fits.or {v w : Word} {n : Nat} (h : v.Fits n) (k : w.Fits n) : Word.Fits (v ||| w) n :=
  fits_iff.mpr fun i hi => by rw [BitVec.getLsbD_or, fits_iff.mp h i hi, fits_iff.mp k i hi, Bool.or_false]

theorem Word.Fits.clearBit0 {v : Word} {n : Nat} (h : v.Fits n) : v.clearBit0.Fits n := h.and_right _

theorem Word.zero_fits (n : Nat) : Word.Fits 0 n := by simp [Fits]

/-- A field has its width. -/
theorem Word.field_fits (v : Word) (lo n : Nat) : (v.field lo n).Fits n := by
  rw [Fits, field, BitVec.toNat_setWidth]
  exact Nat.lt_of_le_of_lt (Nat.mod_le _ _) (v.extractLsb' lo n).isLt

/-- An instruction word has 32 bits. -/
theorem zext_fits (w : BitVec 32) : (zext w).Fits 32 := by
  rw [Word.Fits, zext, BitVec.toNat_setWidth]
  exact Nat.lt_of_le_of_lt (Nat.mod_le _ _) w.isLt

end Sys2Proof
end

