-- ==== Sys2Proof/Laws/Words.lean ====
section
/-! SUPPORT. Every operation keeps the widths of the values the state holds (spec 00 rules R7, R10). -/

namespace Sys2Proof.Machine

open Sys2Proof.Safety

/-! Values. -/

theorem State.draw_fits (s : State) (k : Nat) : (s.draw k).Fits s.cfg.xlen := Word.low_fits _ _

theorem State.nextPc_fits (s : State) : s.nextPc.Fits s.cfg.xlen := Word.low_fits _ _

theorem State.target_fits {s : State} {t : Word} (h : t.Fits s.cfg.xlen) : (s.target t).Fits s.cfg.xlen := by
  rw [target]
  split
  exacts [h.clearBit0, h]

theorem excEntryPc_fits {cfg : Platform} {v : Word} (h : v.Fits cfg.xlen) : (excEntryPc cfg v).Fits cfg.xlen := by
  rw [excEntryPc]
  split
  exacts [h, Word.low_fits _ _]

/-- Every code of Table 3-1 has four bits (60 R162 to R171). -/
theorem codeBits_fits (e : ExcCode) : (codeBits e).Fits 4 := by cases e <;> decide

/-- An instruction word fits a CSR. -/
theorem zext_fits_xlen {cfg : Platform} (h : cfg.WidthsFit) (w : BitVec 32) : (zext w).Fits cfg.xlen :=
  (zext_fits w).mono h.1

theorem insertField_fits {d : Word} {lo n m : Nat} (f : BitVec n) (h : d.Fits m) (hn : lo + n ≤ m)
    (hm : m ≤ WORD_BITS) : (insertField d lo f).Fits m :=
  Word.fits_iff.mpr fun i hi => by
    rw [getLsbD_insertField _ _ _ (by omega), if_neg (by omega), Word.fits_iff.mp h i hi]

/-- A CSR reads as an `XLEN`-bit value. -/
theorem State.csrValue_fits {s : State} (valid : s.cfg.Valid) (h : WordsFit s) (c : Csr) {d : Word}
    (hd : d.Fits s.cfg.xlen) : (s.csrValue c d).Fits s.cfg.xlen := by
  obtain ⟨⟨a1, a2, a3⟩, _, ⟨b1, b2, _⟩, c1, c2, _⟩ := valid.fields
  have hx := valid.widths.2.1
  cases c with
  | mstatus =>
    exact insertField_fits _ (insertField_fits _ (insertField_fits _ hd (by omega) hx) (by omega) hx) (by omega) hx
  | mtvec => exact h.mtvec
  | mepc => exact h.mepc
  | mcause => exact insertField_fits _ (insertField_fits _ hd (by omega) hx) (by omega) hx
  | mtval => exact h.mtval
  | msubm => exact insertField_fits _ (insertField_fits _ hd (by omega) hx) (by omega) hx

theorem State.reg_fits {s : State} (h : WordsFit s) (i : RegIx) : (s.reg i).Fits s.cfg.xlen := by
  rw [reg]
  split
  exacts [Word.zero_fits _, h.x i]

/-- An immediate has five bits (30 R82). -/
theorem uimmWord_fits {uimm n : Nat} (h : uimm < 32) (hn : 5 ≤ n) : (uimmWord uimm).Fits n := by
  refine Word.Fits.mono (n := 5) ?_ hn
  rw [Word.Fits, uimmWord, BitVec.toNat_ofNat]
  exact Nat.lt_of_le_of_lt (Nat.mod_le _ _) h

/-! Operations. -/

theorem State.drew_wordsFit {s : State} (h : WordsFit s) (k : Nat) : WordsFit (s.drew k) := { h with }

theorem State.tick_wordsFit {s : State} (h : WordsFit s) : WordsFit s.tick :=
  { h with pending := fun f hf => h.pending f (s.tick_pendingFaults ▸ hf) }

theorem State.countBase_wordsFit {s : State} (h : WordsFit s) : WordsFit s.countBase := { h with }

theorem State.goto_wordsFit {s : State} {t : Word} (h : WordsFit s) (ht : t.Fits s.cfg.xlen) : WordsFit (s.goto t) :=
  { h with pc := target_fits ht }

theorem State.setReg_wordsFit {s : State} {v : Word} (h : WordsFit s) (i : RegIx) (hv : v.Fits s.cfg.xlen) :
    WordsFit (s.setReg i v) := by
  rw [setReg]
  split
  · exact h
  · refine { h with x := fun j => ?_ }
    show ((s.x.set i v)[(j : Nat)]).Fits s.cfg.xlen
    rw [Vector.getElem_set]
    split
    exacts [hv, h.x j]

theorem State.withRegs_wordsFit {s : State} {x' : Vector Word 32} (h : WordsFit s)
    (hx : ∀ i : RegIx, x'[i].Fits s.cfg.xlen) : WordsFit (s.withRegs x') := by
  refine { h with x := fun j => ?_ }
  show ((x'.set 0 0)[(j : Nat)]).Fits s.cfg.xlen
  rw [Vector.getElem_set]
  split
  exacts [Word.zero_fits _, hx j]

theorem State.store_wordsFit {s : State} (h : WordsFit s) (a : Word) (n : Nat) (v : BitVec 64) :
    WordsFit (s.store a n v) :=
  { h with mem := Memory.writeBytes_inSpace _ _ h.mem fun _ => byteAddrs_lt }

theorem State.poke_wordsFit {s : State} (h : WordsFit s) (ws : List (Word × Byte)) : WordsFit (s.poke ws) := by
  induction ws generalizing s with
  | nil => exact h
  | cons w ws ih => exact ih (store_wordsFit h _ _ _)

theorem State.post_wordsFit {s : State} {f : PendingFault} (h : WordsFit s) (hf : f.addr.Fits s.cfg.xlen) :
    WordsFit (s.post f) := by
  have faults : ∀ g ∈ (s.post f).pendingFaults, g.addr.Fits s.cfg.xlen := fun g hg =>
    (mem_post.mp hg).elim (h.pending g) (· ▸ hf)
  rw [post_eq] at faults ⊢
  exact { h with pending := faults }

theorem State.unpost_wordsFit {s : State} (h : WordsFit s) (f : PendingFault) : WordsFit (s.unpost f) :=
  { h with pending := fun g hg => h.pending g (mem_unpost.mp hg).1 }

/-- Taking an exception (60 R184). -/
theorem State.trapEntry_wordsFit {s : State} {epc tval : Word} (widths : s.cfg.WidthsFit) (h : WordsFit s) (e : ExcCode)
    (he : epc.Fits s.cfg.xlen) (ht : tval.Fits s.cfg.xlen) : WordsFit (s.trapEntry e epc tval) :=
  { h with
    pc := target_fits (excEntryPc_fits h.mtvec)
    exccode := (codeBits_fits e).mono widths.2.2.1
    mepc := he
    mtval := ht
    ptyp := h.typ
    typ := widths.2.2.2 }

theorem State.raise_wordsFit {s : State} {v : Word} (widths : s.cfg.WidthsFit) (h : WordsFit s) (e : ExcCode)
    (hv : v.Fits s.cfg.xlen) : WordsFit (s.raise e v) := trapEntry_wordsFit widths h e h.pc hv

theorem State.raiseDraw_wordsFit {s : State} (widths : s.cfg.WidthsFit) (h : WordsFit s) (e : ExcCode) :
    WordsFit (s.raiseDraw e) := raise_wordsFit (s := s.drew 1) widths (drew_wordsFit h 1) e (s.draw_fits 0)

/-- Returning from one (60 R195). -/
theorem State.trapReturn_wordsFit {s : State} (h : WordsFit s) (m : Mode) : WordsFit (s.trapReturn m) :=
  { h with
    pc := target_fits h.mepc
    typ := h.ptyp
    ptyp := Word.low_fits _ _
    exccode := Word.field_fits _ _ _
    mepc := s.draw_fits 0
    mtval := s.draw_fits 2 }

theorem State.deliver_wordsFit {s : State} (widths : s.cfg.WidthsFit) (h : WordsFit s) (some : s.pendingFaults ≠ []) :
    WordsFit s.deliver :=
  raise_wordsFit (s := s.unpost s.chosenFault) widths (unpost_wordsFit h _) _ (h.pending _ (chosenFault_mem some))

theorem State.spoil_wordsFit {s : State} (h : WordsFit s) (p : Spoilt) : WordsFit (s.spoil p) := by
  have reg : WordsFit (s.spoilReg p.reg) := by
    cases p.reg with
    | none => exact h
    | some rd => exact setReg_wordsFit h rd (s.draw_fits 0)
  refine drew_wordsFit ?_ 2
  cases p.bytes with
  | none => exact reg
  | some aw => exact store_wordsFit reg _ _ _

/-- A write of an `XLEN`-bit value to a CSR (41 R129). -/
theorem State.csrWrite_wordsFit {s t : State} {c : Csr} {v : Word} (h : WordsFit s) (hv : v.Fits s.cfg.xlen)
    (hw : s.csrWrite c v = some t) : WordsFit t := by
  cases c <;> simp only [csrWrite, Option.some.injEq, reduceCtorEq] at hw <;> subst hw
  · exact { h with }
  · exact { h with mtvec := hv.and_right _ }
  · exact { h with mepc := hv.and_right _ }
  · exact { h with exccode := Word.field_fits _ _ _ }
  · exact { h with mtval := hv }

/-! The memory classes. -/

theorem State.accessError_wordsFit {s : State} {a nextPc : Word} (widths : s.cfg.WidthsFit) (h : WordsFit s)
    (c : AsyncCode) (p : Spoilt) (ha : a.Fits s.cfg.xlen) (hn : nextPc.Fits s.cfg.xlen) :
    WordsFit (s.accessError c a p nextPc) := by
  have hs : WordsFit ((s.drew 1).spoil p) := spoil_wordsFit (drew_wordsFit h 1) p
  have hc : ((s.drew 1).spoil p).cfg = s.cfg := (spoil_sameControl (s.drew 1) p).cfg
  have hp : (((s.drew 1).spoil p).post ⟨c, a⟩).cfg = s.cfg := (post_sameControl _ _).cfg.trans hc
  rw [accessError]
  split
  · exact raise_wordsFit (hc ▸ widths) hs _ (hc ▸ ha)
  · exact goto_wordsFit (post_wordsFit hs (hc ▸ ha)) (hp ▸ hn)

theorem State.loadClass_wordsFit {s : State} {op : LoadOp} (widths : s.cfg.WidthsFit) (h : WordsFit s)
    (ha : op.addr.Fits s.cfg.xlen) (hr : ∀ v, (op.result v).Fits s.cfg.xlen) (hn : op.nextPc.Fits s.cfg.xlen) :
    WordsFit (s.loadClass op) := by
  simp only [loadClass]
  repeat' split
  · exact raise_wordsFit widths h _ ha
  · exact raise_wordsFit widths h _ ha
  · exact accessError_wordsFit widths h _ _ ha hn
  · exact goto_wordsFit (setReg_wordsFit h _ (hr _)) ((setReg_sameControl s _ _).cfg ▸ hn)

theorem State.storeClass_wordsFit {s : State} {op : StoreOp} (widths : s.cfg.WidthsFit) (h : WordsFit s)
    (ha : op.addr.Fits s.cfg.xlen) (hn : op.nextPc.Fits s.cfg.xlen) : WordsFit (s.storeClass op) := by
  simp only [storeClass]
  repeat' split
  · exact raise_wordsFit widths h _ ha
  · exact raise_wordsFit widths h _ ha
  · exact accessError_wordsFit widths h _ _ ha hn
  · exact goto_wordsFit (store_wordsFit h _ _ _) hn

theorem State.amoClass_wordsFit {s : State} {op : AmoOp} (widths : s.cfg.WidthsFit) (h : WordsFit s)
    (ha : op.addr.Fits s.cfg.xlen) (hr : ∀ v, (op.result v).Fits s.cfg.xlen) (hn : op.nextPc.Fits s.cfg.xlen) :
    WordsFit (s.amoClass op) := by
  simp only [amoClass]
  repeat' split
  · exact raise_wordsFit widths h _ ha
  · exact raise_wordsFit widths h _ ha
  · exact accessError_wordsFit widths h _ _ ha hn
  · exact goto_wordsFit (store_wordsFit (setReg_wordsFit h _ (hr _)) _ _ _)
      ((setReg_sameControl s _ _).cfg ▸ hn)

/-! The base set: its answers are cut to the machine's widths. -/

theorem State.withCsrs_wordsFit {s : State} {cfg : Platform} (h : WordsFit s) (hc : s.cfg = cfg)
    (c : Option CsrFields) : WordsFit (s.withCsrs (c.map (·.fit cfg))) := by
  subst hc
  cases c with
  | none => exact h
  | some c =>
    exact { h with
      exccode := Word.low_fits _ _, mepc := Word.low_fits _ _, mtval := Word.low_fits _ _, mtvec := Word.low_fits _ _ }

theorem State.takeNext_wordsFit {s : State} (h : WordsFit s) (w : BitVec 32) (n : BaseNext) :
    WordsFit (s.takeNext w (n.fit s.cfg)) := by
  have regs : WordsFit (s.withRegs (n.fit s.cfg).x) := withRegs_wordsFit h fun i => by
    show ((n.x.map fun v : Word => v.low s.cfg.xlen)[(i : Nat)]).Fits s.cfg.xlen
    rw [Vector.getElem_map]
    exact Word.low_fits _ _
  have bytes : WordsFit ((s.withRegs (n.fit s.cfg).x).poke n.writes) := poke_wordsFit regs _
  simp only [takeNext]
  split
  exacts [withCsrs_wordsFit bytes (poke_sameControl _ _).cfg n.csrs, bytes]

theorem State.completeBase_wordsFit {s : State} (widths : s.cfg.WidthsFit) (h : WordsFit s) (w : BitVec 32)
    (n : BaseNext) : WordsFit (s.completeBase w (n.fit s.cfg)) := by
  have pc : (n.fit s.cfg).pc.Fits s.cfg.xlen := Word.low_fits _ _
  rw [completeBase]
  split
  · exact raise_wordsFit widths h _ pc
  · exact goto_wordsFit (takeNext_wordsFit h w n) (by rw [(takeNext_controlKept s w _).cfg]; exact pc)

theorem State.raiseBase_wordsFit {s : State} {v : Word} (widths : s.cfg.WidthsFit) (h : WordsFit s) (w : BitVec 32)
    (e : BaseExc) (p : Spoilt) (hv : v.Fits s.cfg.xlen) : WordsFit (s.raiseBase w e v p) := by
  have spoilt : ∀ c : ExcCode, WordsFit ((s.spoil p).raise c v) := fun c =>
    raise_wordsFit ((spoil_sameControl s p).cfg ▸ widths) (spoil_wordsFit h p) c ((spoil_sameControl s p).cfg ▸ hv)
  have word := zext_fits_xlen widths w
  cases e <;> simp only [raiseBase]
  case instrAddrMisaligned =>
    split
    exacts [raise_wordsFit widths h _ word, raise_wordsFit widths h _ hv]
  case illegalInstruction => exact raise_wordsFit widths h _ word
  case loadAccessFault => exact spoilt _
  case storeAccessFault => exact spoilt _
  all_goals exact raise_wordsFit widths h _ hv

theorem State.applyAnswer_wordsFit {s : State} (widths : s.cfg.WidthsFit) (h : WordsFit s) (w : BitVec 32)
    (a : BaseAnswer) : WordsFit (s.applyAnswer w (a.fit s.cfg)) := by
  cases a with
  | next n => exact completeBase_wordsFit widths h w n
  | raise e v p => exact raiseBase_wordsFit widths h w e p (Word.low_fits _ _)
  | nextPost n c a p =>
    have spoilt : ((s.takeNext w (n.fit s.cfg)).spoil p).cfg = s.cfg :=
      (spoil_sameControl _ p).cfg.trans (takeNext_controlKept s w _).cfg
    have pc : (n.fit s.cfg).pc.Fits s.cfg.xlen := Word.low_fits _ _
    have addr : (a.low s.cfg.xlen).Fits s.cfg.xlen := Word.low_fits _ _
    simp only [BaseAnswer.fit, applyAnswer]
    split
    · exact goto_wordsFit (post_wordsFit (spoil_wordsFit (takeNext_wordsFit h w n) p) (by rw [spoilt]; exact addr))
        (by rw [(post_sameControl _ _).cfg, spoilt]; exact pc)
    · exact completeBase_wordsFit widths h w n
  | load op => exact loadClass_wordsFit widths h (Word.low_fits _ _) (fun _ => Word.low_fits _ _) (Word.low_fits _ _)
  | store op => exact storeClass_wordsFit widths h (Word.low_fits _ _) (Word.low_fits _ _)
  | amo op =>
    simp only [BaseAnswer.fit, applyAnswer]
    split
    · exact amoClass_wordsFit widths h (Word.low_fits _ _) (fun _ => Word.low_fits _ _) (Word.low_fits _ _)
    · exact raise_wordsFit widths h _ (zext_fits_xlen widths w)

theorem State.runBase_wordsFit {s : State} (widths : s.cfg.WidthsFit) (h : WordsFit s) (w : BitVec 32) :
    WordsFit (s.runBase w) := applyAnswer_wordsFit (s := s.countBase) widths (countBase_wordsFit h) w _

/-- A word that is none of the nine keeps the widths. -/
theorem State.runOther_wordsFit {s : State} (widths : s.cfg.WidthsFit) (h : WordsFit s) (w : BitVec 32) :
    WordsFit (s.runOther w) := by
  rw [runOther]
  split
  exacts [raise_wordsFit widths h _ (zext_fits_xlen widths w), runBase_wordsFit widths h w]

/-- A CSR access whose value written is an `XLEN`-bit one keeps the widths. -/
theorem CsrEffect.wordsFit {s t : State} {i : Instr} {rd : RegIx} {csr : BitVec 12} {reads writes : Bool}
    {f : Word → Word} (eff : CsrEffect s i rd csr reads writes f t) (valid : s.cfg.Valid) (h : WordsFit s)
    (hf : ∀ v, v.Fits s.cfg.xlen → (f v).Fits s.cfg.xlen) : WordsFit t := by
  cases eff with
  | base _ eq => exact eq ▸ State.runBase_wordsFit valid.widths h _
  | illegal _ _ _ eq => exact eq ▸ State.raise_wordsFit valid.widths h _ (zext_fits_xlen valid.widths _)
  | done c w _ _ write eq =>
    have value := State.csrValue_fits valid h c (s.draw_fits 0)
    have ha : WordsFit (s.afterRead reads) := by
      cases reads
      exacts [h, State.drew_wordsFit h 1]
    have hac : (s.afterRead reads).cfg = s.cfg := by cases reads <;> rfl
    have hw : WordsFit w ∧ w.cfg = s.cfg := by
      split at write
      · exact ⟨State.csrWrite_wordsFit ha (hac ▸ hf _ value) write, (State.csrWrite_frame write).cfg.trans hac⟩
      · cases write
        exact ⟨ha, hac⟩
    subst eq
    split
    · have hr := State.setReg_wordsFit hw.1 rd (hw.2 ▸ value)
      exact { hr with pc := ((State.setReg_sameControl w rd _).cfg.trans hw.2) ▸ s.nextPc_fits }
    · exact { hw.1 with pc := hw.2 ▸ s.nextPc_fits }

end Sys2Proof.Machine
end

