-- ==== Sys2Proof/Laws/Step.lean ====
section
/-! SUPPORT. What a step can do, said once: the cases of `exec` and of `step` that answer a next state. -/

namespace Sys2Proof.Machine

open Sys2Proof.Safety

/-- What a fetch that traps reports (42 R140). -/
theorem State.fetch_trap {s : State} {e : ExcCode} {v : Word} (h : s.fetch = .trap e v) :
    v = s.pc ∧ ((e = .instrAddrMisaligned ∧ s.cfg.hasC = false ∧ s.pc.misaligned 4 = true)
      ∨ e = .instrAccessFault) := by
  simp only [fetch] at h
  split at h
  · rename_i hm
    simp only [Bool.and_eq_true, Bool.not_eq_true'] at hm
    cases h
    exact ⟨rfl, .inl ⟨rfl, hm.2, hm.1⟩⟩
  · split at h
    · cases h; exact ⟨rfl, .inr rfl⟩
    · split at h <;> cases h

/-- A fetch can report only codes an instruction could, and never code 2 (60 R162). -/
theorem State.fetch_trap_code {s : State} {e : ExcCode} {v : Word} (h : s.fetch = .trap e v) :
    s.mayRaise e = true := by
  obtain ⟨_, ⟨rfl, hc, _⟩ | rfl⟩ := fetch_trap h
  · simp [mayRaise, hc]
  · rfl

/-- The reporter's wait has no effect on a fetch. -/
theorem State.fetch_tick (s : State) : s.tick.fetch = s.fetch := rfl

/-- Nor on a breakpoint. -/
theorem State.takesBreakpoint_tick (s : State) (bs : List Byte) : s.tick.takesBreakpoint bs = s.takesBreakpoint bs :=
  rfl

/-- Where no breakpoint is set at the pc, none is taken. -/
theorem State.takesBreakpoint_of_clear {s : State} (h : s.hwBreak .fetch s.pc = false) (bs : List Byte) :
    s.takesBreakpoint bs = false := by rw [takesBreakpoint, h, Bool.false_and]

/-- What wins over a breakpoint is an exception of a smaller code (60 R174). -/
theorem State.applyAnswer_beforeBreakpoint {s : State} {a : BaseAnswer} (w : BitVec 32)
    (h : s.answerBeforeBreakpoint a = true) :
    ∃ e v, (codeBits e).toNat < 3 ∧ s.applyAnswer w a = s.raise e v := by
  cases a with
  | next n => exact ⟨_, _, by decide, if_pos h⟩
  | raise e v p =>
    cases e <;> try cases h
    · simp only [applyAnswer, raiseBase]
      split
      exacts [⟨.illegalInstruction, _, by decide, rfl⟩, ⟨.instrAddrMisaligned, _, by decide, rfl⟩]
    · exact ⟨.instrAccessFault, _, by decide, rfl⟩
    · exact ⟨.illegalInstruction, _, by decide, rfl⟩
  | nextPost n c a p =>
    rw [answerBeforeBreakpoint] at h
    refine ⟨.instrAddrMisaligned, n.pc, by decide, ?_⟩
    simp [applyAnswer, completeBase, h]
  | load op => cases h
  | store op => cases h
  | amo op =>
    refine ⟨.illegalInstruction, zext w, by decide, ?_⟩
    rw [answerBeforeBreakpoint, Bool.not_eq_true'] at h
    simp [applyAnswer, h]

/-- An outcome that takes an exception of a code below `n` at the pc, whether or not the base set has run. -/
def State.TakesBelow (s : State) (n : Nat) (o : Host.Outcome State Fault Refusal) : Prop :=
  ∃ e v u, (codeBits e).toNat < n ∧ (u = s ∨ u = s.countBase) ∧ o = .next (u.raise e v)

theorem State.answerBeforeBreakpoint_countBase (s : State) (a : BaseAnswer) :
    s.countBase.answerBeforeBreakpoint a = s.answerBeforeBreakpoint a := by cases a <;> rfl

/-- Where a word of the base set wins over a breakpoint, running it takes the smaller code. -/
theorem State.runBase_beforeBreakpoint {s : State} {w : BitVec 32} (h : s.baseBeforeBreakpoint w = true) :
    s.TakesBelow 3 (.next (s.runBase w)) := by
  obtain ⟨e, v, small, eq⟩ := applyAnswer_beforeBreakpoint w ((s.answerBeforeBreakpoint_countBase _).trans h)
  exact ⟨e, v, _, small, .inr rfl, congrArg _ eq⟩

theorem State.csrAccess_beforeBreakpoint {s : State} {i : Instr} {csr : BitVec 12} {writes : Bool}
    (h : s.csrBeforeBreakpoint i csr writes = true) (rd : RegIx) (reads : Bool) (f : Word → Word) :
    s.TakesBelow 3 (s.csrAccess i rd csr reads writes f) := by
  unfold csrBeforeBreakpoint at h
  unfold csrAccess
  cases hc : csrAt s.cfg.layout csr with
  | none =>
    rw [hc] at h
    exact runBase_beforeBreakpoint h
  | some c =>
    rw [hc] at h
    exact ⟨.illegalInstruction, _, s, by decide, .inl rfl, if_neg (by simpa using h)⟩

/-- The same of an instruction of the table. -/
theorem exec_beforeBreakpoint {s : State} {i : Instr} (h : s.instrBeforeBreakpoint i = true) :
    s.TakesBelow 3 (exec i s) := by
  cases i with
  | ecall => cases h
  | ebreak => cases h
  | mret =>
    have user : s.priv = .user := by simpa only [State.instrBeforeBreakpoint, beq_iff_eq] using h
    exact ⟨.illegalInstruction, _, s, by decide, .inl rfl, by simp only [exec, execMret, user]; rfl⟩
  | csrrw _ _ _ =>
    simp only [State.instrBeforeBreakpoint] at h
    simp only [exec, execCsrrw]
    exact State.csrAccess_beforeBreakpoint h _ _ _
  | csrrs _ _ _ =>
    simp only [State.instrBeforeBreakpoint] at h
    simp only [exec, execCsrrs]
    exact State.csrAccess_beforeBreakpoint h _ _ _
  | csrrc _ _ _ =>
    simp only [State.instrBeforeBreakpoint] at h
    simp only [exec, execCsrrc]
    exact State.csrAccess_beforeBreakpoint h _ _ _
  | csrrwi _ _ _ =>
    simp only [State.instrBeforeBreakpoint] at h
    simp only [exec, execCsrrwi]
    exact State.csrAccess_beforeBreakpoint h _ _ _
  | csrrsi _ _ _ =>
    simp only [State.instrBeforeBreakpoint] at h
    simp only [exec, execCsrrsi]
    exact State.csrAccess_beforeBreakpoint h _ _ _
  | csrrci _ _ _ =>
    simp only [State.instrBeforeBreakpoint] at h
    simp only [exec, execCsrrci]
    exact State.csrAccess_beforeBreakpoint h _ _ _

/-- The same of a word that is none of the nine. -/
theorem stepOther_beforeBreakpoint {s : State} {w : BitVec 32} (h : s.otherBeforeBreakpoint w = true) :
    s.TakesBelow 3 (stepOther w s) := by
  simp only [State.otherBeforeBreakpoint, Bool.and_eq_true, Bool.not_eq_true', Bool.or_eq_true] at h
  simp only [stepOther, h.1, State.runOther]
  by_cases illegal : isIllegal s.cfg w s.priv = true
  · simp only [illegal]
    exact ⟨.illegalInstruction, _, s, by decide, .inl rfl, rfl⟩
  · simp only [illegal]
    exact State.runBase_beforeBreakpoint (h.2.resolve_left illegal)

/-- What a fetch gives is a 4-byte instruction, or a 2-byte one whose low two bits are not 11 (30 R80). -/
theorem State.fetch_bytes {s : State} {bs : List Byte} (h : s.fetch = .bytes bs) :
    (∃ b0 b1 b2 b3, bs = [b0, b1, b2, b3]) ∨ ∃ b0 b1, bs = [b0, b1] ∧ isLong b0 = false := by
  have hb : bs = s.bytesAt s.pc s.fetchLen := by
    simp only [fetch] at h
    repeat' split at h
    all_goals cases h
    rfl
  subst hb
  simp only [fetchLen]
  split
  · rename_i hl
    simp only [Bool.and_eq_true, Bool.not_eq_true'] at hl
    exact .inr ⟨_, _, rfl, hl.2⟩
  · exact .inl ⟨_, _, _, _, rfl⟩

/-- A fetched word that is no row of the table is no CSR access word. -/
theorem State.isCsrWord_of_fetch {s : State} {bs : List Byte} {err : DecodeError} (h : s.fetch = .bytes bs)
    (hd : decode bs = .error err) : isCsrWord (wordOfBytes bs) = false := by
  obtain ⟨b0, b1, b2, b3, rfl⟩ | ⟨b0, b1, rfl, hl⟩ := fetch_bytes h
  · cases hl : isLong b0 with
    | false => exact isCsrWord_of_short _ hl
    | true =>
      simp only [decode, hl, if_true] at hd
      split at hd
      · cases hd
      · rename_i hw
        exact isCsrWord_of_decodeWord hw
  · exact isCsrWord_of_short _ hl

/-- The ways an instruction of the table answers a next state. -/
inductive ExecEffect (s : State) (i : Instr) (t : State) : Prop where
  | ecall (is : i = .ecall) (eq : t = s.raiseDraw (ecallCode s.priv))
  | ebreak (is : i = .ebreak) (eq : t = s.raiseDraw .breakpoint)
  | mretUser (is : i = .mret) (user : s.priv = .user)
      (eq : t = s.raise .illegalInstruction (zext (encode .mret)))
  | mret (m : Mode) (is : i = .mret) (machine : s.priv = .machine) (mode : configuredMode s.cfg s.mpp = some m)
      (eq : t = s.trapReturn m)
  | csr (rd : RegIx) (csr : BitVec 12) (reads writes : Bool) (newValue : Word → Word)
      (operand : csrOperand i = some csr) (dest : destination i = some rd) (writing : writesCsr i = writes)
      (fits : i.WellFormed = true → s.cfg.WidthsFit → WordsFit s → ∀ v : Word, v.Fits s.cfg.xlen →
        (newValue v).Fits s.cfg.xlen)
      (eff : CsrEffect s i rd csr reads writes newValue t)

theorem exec_next {s t : State} {i : Instr} (h : exec i s = .next t) : ExecEffect s i t := by
  have imm : ∀ {u : Nat}, u < 32 → s.cfg.WidthsFit → (uimmWord u).Fits s.cfg.xlen := fun hu hw =>
    uimmWord_fits hu (Nat.le_trans (by decide) hw.1)
  cases i with
  | ecall => exact .ecall rfl (next_inj h).symm
  | ebreak => exact .ebreak rfl (next_inj h).symm
  | mret =>
    simp only [exec, execMret] at h
    split at h
    · rename_i hp
      exact .mretUser rfl hp (next_inj h).symm
    · rename_i hp
      split at h
      · cases h
      · rename_i m hm
        exact .mret m rfl hp hm (next_inj h).symm
  | csrrw rd csr rs1 =>
    simp only [exec, execCsrrw] at h
    exact .csr _ _ _ _ _ rfl rfl rfl (fun _ _ hs _ _ => State.reg_fits hs _)
      (State.csrAccess_next h)
  | csrrs rd csr rs1 =>
    simp only [exec, execCsrrs] at h
    exact .csr _ _ _ _ _ rfl rfl rfl (fun _ _ hs _ hv => hv.or (State.reg_fits hs _))
      (State.csrAccess_next h)
  | csrrc rd csr rs1 =>
    simp only [exec, execCsrrc] at h
    exact .csr _ _ _ _ _ rfl rfl rfl (fun _ _ _ _ hv => hv.and_right _)
      (State.csrAccess_next h)
  | csrrwi rd csr uimm =>
    simp only [exec, execCsrrwi] at h
    exact .csr _ _ _ _ _ rfl rfl rfl (fun hi hw _ _ _ => imm (of_decide_eq_true hi) hw)
      (State.csrAccess_next h)
  | csrrsi rd csr uimm =>
    simp only [exec, execCsrrsi] at h
    exact .csr _ _ _ _ _ rfl rfl rfl (fun hi hw _ _ hv => hv.or (imm (of_decide_eq_true hi) hw))
      (State.csrAccess_next h)
  | csrrci rd csr uimm =>
    simp only [exec, execCsrrci] at h
    exact .csr _ _ _ _ _ rfl rfl rfl (fun _ _ _ _ hv => hv.and_right _)
      (State.csrAccess_next h)

/-- A next state means that nothing interrupted the step (60 R205). -/
theorem noInterrupts_of_next {s t : State} (h : step s = .next t) : NoInterrupts s := by
  simp only [step] at h
  split at h
  · cases h
  · rename_i hq
    simpa [NoInterrupts] using hq

/-- The ways a step answers a next state (00 R16): the reporter delivers, the fetch traps, the breakpoint at the
pc is taken, an instruction of the table runs, or another word does. -/
inductive StepEffect (s t : State) : Prop where
  | deliver (reports : s.reports = true) (eq : t = s.deliver)
  | fetchTrap (e : ExcCode) (v : Word) (waits : s.reports = false) (fetch : s.fetch = .trap e v)
      (eq : t = s.tick.raise e v)
  | breakpoint (bs : List Byte) (waits : s.reports = false) (fetch : s.fetch = .bytes bs)
      (taken : s.takesBreakpoint bs = true) (eq : t = s.tick.raise .breakpoint s.pc)
  | instr (bs rest : List Byte) (i : Instr) (waits : s.reports = false) (fetch : s.fetch = .bytes bs)
      (decoded : decode bs = .ok (i, rest)) (eff : ExecEffect s.tick i t)
  | other (bs : List Byte) (err : DecodeError) (waits : s.reports = false) (fetch : s.fetch = .bytes bs)
      (decoded : decode bs = .error err) (eq : t = s.tick.runOther (wordOfBytes bs))

theorem step_next {s t : State} (h : step s = .next t) : StepEffect s t := by
  have hq : s.interrupted = false := noInterrupts_of_next h
  simp only [step, hq, Bool.false_eq_true, if_false] at h
  split at h
  · rename_i hr
    exact .deliver hr (next_inj h).symm
  · rename_i hr
    simp only [Bool.not_eq_true] at hr
    simp only [runAt] at h
    split at h
    · rename_i e v hf
      exact .fetchTrap e v hr (State.fetch_tick s ▸ hf) (next_inj h).symm
    · cases h
    · rename_i bs hf
      split at h
      · rename_i hb
        exact .breakpoint bs hr (State.fetch_tick s ▸ hf) (State.takesBreakpoint_tick s bs ▸ hb) (next_inj h).symm
      · split at h
        · rename_i i rest hd
          exact .instr bs rest i hr (State.fetch_tick s ▸ hf) hd (exec_next h)
        · rename_i err hd
          refine .other bs err hr (State.fetch_tick s ▸ hf) hd ?_
          simp only [stepOther] at h
          split at h
          · cases h
          · exact (next_inj h).symm

/-! Runs. -/

@[simp] theorem runs_zero {s t : State} : Runs 0 s t ↔ s = t := ⟨next_inj, fun h => h ▸ rfl⟩

/-- A run is a first step and a run from where it leads. -/
theorem runs_succ {n : Nat} {s t : State} : Runs (n + 1) s t ↔ ∃ u, step s = .next u ∧ Runs n u t := by
  simp only [Runs, Host.Core.run]
  split
  · rename_i u hu
    exact ⟨fun h => ⟨u, hu, h⟩, fun ⟨v, hv, h⟩ => next_inj (hu.symm.trans hv) ▸ h⟩
  · rename_i hu
    exact ⟨fun h => (by cases h), fun ⟨v, hv, _⟩ => (by cases hu.symm.trans hv)⟩
  · rename_i hu
    exact ⟨fun h => (by cases h), fun ⟨v, hv, _⟩ => (by cases hu.symm.trans hv)⟩

/-! What is pending after a step. -/

/-- An access to a CSR posts nothing, unless `BaseStep` runs it. -/
theorem CsrEffect.pending {s t : State} {i : Instr} {rd : RegIx} {csr : BitVec 12} {reads writes : Bool}
    {f : Word → Word} (h : CsrEffect s i rd csr reads writes f t) : s.Posts t.pending := by
  cases h with
  | base _ eq => exact eq ▸ State.runBase_pending s _
  | illegal _ _ _ eq => exact eq ▸ .inl rfl
  | done c w _ _ write eq =>
    have hw : w.pending = (s.afterRead reads).pending := by
      split at write
      · exact (State.csrWrite_frame write).pending
      · cases write
        rfl
    subst eq
    refine .inl (Eq.trans ?_ (hw.trans (by cases reads <;> rfl)))
    cases reads <;> simp

/-- A step the reporter lets pass makes every wait one shorter and posts at most one fault, of an access that suffers an
access error. -/
theorem step_pending {s t : State} (h : step s = .next t) (waits : s.reports = false) :
    s.tick.Posts t.pending := by
  cases step_next h with
  | deliver reports => rw [waits] at reports; cases reports
  | fetchTrap _ _ _ _ eq => exact eq ▸ .inl rfl
  | breakpoint _ _ _ _ eq => exact eq ▸ .inl rfl
  | other _ _ _ _ _ eq => exact eq ▸ State.runOther_pending s.tick _
  | instr _ _ _ _ _ _ eff =>
    cases eff with
    | ecall _ eq => exact eq ▸ .inl rfl
    | ebreak _ eq => exact eq ▸ .inl rfl
    | mretUser _ _ eq => exact eq ▸ .inl rfl
    | mret _ _ _ _ eq => exact eq ▸ .inl rfl
    | csr _ _ _ _ _ _ _ _ _ eff => exact eff.pending

end Sys2Proof.Machine
end

