-- ==== Sys2Proof/Tests/Slice0.lean ====
section
/-! SUPPORT. The model's own tests. Every expected value is from spec 95 (the row is named in the comment) or written out
from the encoding tables of spec 30; the witnesses show states that meet the hypotheses of the statements. -/

namespace Sys2Proof.Tests

open Sys2Proof.Machine Sys2Proof.Safety

/-! ## States -/

/-- Start state A of spec 95, 2.1. -/
def stateA : State := { State.reset with pc := 0x100, mie := true, mtvec := 0x200 }

/-- Start state of spec 95, 2.2, with the row's fields. -/
def stateM (hasU mie mpie : Bool) (mpp : BitVec 2) (ptyp : Word) : State :=
  { stateA with
    cfg := { Config.shipped with hasU := hasU }
    pc := 0x204, mepc := 0x104, typ := 2, mie := mie, mpie := mpie, mpp := mpp, ptyp := ptyp }

/-- State A in User Mode. -/
def stateU : State := { stateA with priv := .user }

/-- A state with a word loaded at its pc. -/
def withWord (s : State) (w : Nat) : State := s.withFetchWord 32 w

/-- State A with an access error for every access of a kind at 0x20000000 and above. -/
def faulty (k : AccessKind) : State :=
  { stateA with cfg := { Config.shipped with accessFaults := [⟨k, 0x20000000, 0xFFFFFFFF, none⟩] } }

/-- State A with a hardware breakpoint. -/
def broken (k : AccessKind) (a : Word) : State :=
  { stateA with cfg := { Config.shipped with hwBreaks := [(k, a)] } }

/-- State A with faults pending, the reporter waiting so long for each. -/
def waiting (p : List PendingFault) (n : Nat) : State := { stateA with pending := p.map (⟨·, n⟩) }

/-- State A with a platform whose base set claims no SYSTEM word. -/
def unclaiming : State := { stateA with cfg := { Config.shipped with baseClaims := [] } }

/-- State A with `XLEN` 64, and the interrupt flag of `mcause` in its bit 63 (10 R34). -/
def wide : State :=
  { stateA with cfg := { Config.shipped with xlen := 64, layout := { Config.layout with intFlagAt := 63 } } }

/-- The layout of the shipped core is one the rules allow. -/
theorem shipped_valid : Config.shipped.Valid := ⟨by decide, by decide, by decide, by decide, by decide⟩

/-- So is the one with `XLEN` 64. -/
theorem wide_valid : wide.cfg.Valid := ⟨by decide, by decide, by decide, by decide, by decide⟩

/-- Whether an outcome is a next state of which `p` holds. -/
def nextHas (o : Host.Outcome State Fault Refusal) (p : State → Bool) : Bool :=
  match o with
  | .next t => p t
  | .fault _ => false
  | .refused _ => false

/-- The common end state of spec 95, 2.1, with its columns `code`, `mepc` and `MPP`. -/
def entered (code : Word) (mepc : Word) (mpp : BitVec 2) (t : State) : Bool :=
  t.pc == 0x200 && t.exccode == code && !t.intFlag && t.mepc == mepc && t.mpie && !t.mie && t.mpp == mpp
    && t.priv == .machine && t.ptyp == 0 && t.typ == 2 && t.mtvec == 0x200

/-! ## Ill-formed terms: an immediate past 31 (30 R82, R89) -/

theorem test_wf_csrrwi : (Instr.csrrwi 1 0x341 32).WellFormed = false ∧ (Instr.csrrwi 1 0x341 31).WellFormed = true := by
  decide
theorem test_wf_csrrsi : (Instr.csrrsi 1 0x341 32).WellFormed = false ∧ (Instr.csrrsi 1 0x341 31).WellFormed = true := by
  decide
theorem test_wf_csrrci : (Instr.csrrci 1 0x341 32).WellFormed = false ∧ (Instr.csrrci 1 0x341 31).WellFormed = true := by
  decide

/-! ## Decoding: words put together from 30 R81 as csr or funct12, rs1 or uimm, funct3, rd, opcode -/

theorem test_decode_ecall : decodeWord 0b000000000000_00000_000_00000_1110011 = some .ecall := by decide
theorem test_decode_ebreak : decodeWord 0b000000000001_00000_000_00000_1110011 = some .ebreak := by decide
theorem test_decode_mret : decodeWord 0b001100000010_00000_000_00000_1110011 = some .mret := by decide
theorem test_decode_csrrw :
    decodeWord 0b001101000001_00101_001_00110_1110011 = some (.csrrw 6 0x341 5) := by decide
theorem test_decode_csrrs :
    decodeWord 0b001101000010_00000_010_00101_1110011 = some (.csrrs 5 0x342 0) := by decide
theorem test_decode_csrrc :
    decodeWord 0b001100000000_00101_011_00000_1110011 = some (.csrrc 0 0x300 5) := by decide
theorem test_decode_csrrwi :
    decodeWord 0b001101000011_11111_101_11111_1110011 = some (.csrrwi 31 0x343 31) := by decide
theorem test_decode_csrrsi :
    decodeWord 0b001101000001_00100_110_00000_1110011 = some (.csrrsi 0 0x341 4) := by decide
theorem test_decode_csrrci :
    decodeWord 0b111111111111_10000_111_10000_1110011 = some (.csrrci 16 0xFFF 16) := by decide
/-- The bytes lie little-endian (20 R61), and what follows is given back. -/
theorem test_decode_bytes : decode [0x73, 0x93, 0x12, 0x34, 0xAA] = .ok (.csrrw 6 0x341 5, [0xAA]) := by decide
/-- SYSTEM with `funct3` = 100, an `mret` with `rd` not 0, a 2-byte parcel and too few bytes are none of the nine. -/
theorem test_decode_none :
    decode [0x73, 0x40, 0x00, 0x00] = .error (.noRow 0x00004073)
    ∧ decode [0xF3, 0x00, 0x20, 0x30] = .error (.noRow 0x302000F3)
    ∧ decode [0x02, 0x90, 0x00, 0x00] = .error (.shortForm 0x9002)
    ∧ decode [0x73, 0x00, 0x00] = .error .truncated := by decide
theorem test_encode : encode (.csrrw 6 0x341 5) = 0x34129373 ∧ encode .mret = 0x30200073 := by decide

/-! ## Instructions -/

/-- E8, E11. -/
theorem test_ecall : nextHas (exec .ecall stateU) (entered 8 0x100 0) = true
    ∧ nextHas (exec .ecall stateA) (entered 11 0x100 3) = true := by decide
/-- E21, E23: from a handler with interrupts off, and another entry. -/
theorem test_ecall_nested :
    nextHas (exec .ecall { stateA with typ := 2, mie := false, mtvec := 0x1240 }) (fun t =>
      t.pc == 0x1240 && t.ptyp == 2 && t.typ == 2 && !t.mpie && !t.mie) = true := by decide
/-- E3, E3u. -/
theorem test_ebreak : nextHas (exec .ebreak stateA) (entered 3 0x100 3) = true
    ∧ nextHas (exec .ebreak stateU) (entered 3 0x100 0) = true := by decide
/-- E22: the old PTYP is lost. -/
theorem test_ebreak_submode :
    nextHas (exec .ebreak { stateA with typ := 1, ptyp := 3 }) (fun t => t.ptyp == 1 && t.typ == 2) = true := by decide

/-- M1, M4, M6. -/
theorem test_mret :
    nextHas (exec .mret (stateM false false true 3 0)) (fun t =>
      t.pc == 0x104 && t.mie && t.mpie && t.mpp == 3 && t.priv == .machine && t.typ == 0) = true
    ∧ nextHas (exec .mret (stateM true false true 0 0)) (fun t =>
      t.pc == 0x104 && t.mie && t.mpie && t.mpp == 0 && t.priv == .user && t.typ == 0) = true
    ∧ nextHas (exec .mret (stateM false false true 3 2)) (fun t => t.typ == 2) = true := by decide
/-- M8, M9 stop; M10 is illegal. -/
theorem test_mret_bad :
    exec .mret (stateM false false true 0 0) = .fault .mretBadMpp
    ∧ exec .mret (stateM true false true 1 0) = .fault .mretBadMpp
    ∧ nextHas (exec .mret { stateM true false true 3 0 with priv := .user }) (fun t =>
      t.pc == 0x200 && t.exccode == 2 && t.mepc == 0x204 && t.mtval == 0x30200073 && t.mpp == 0
        && t.priv == .machine) = true :=
  ⟨rfl, rfl, by decide⟩

/-- K1, K2. -/
theorem test_csrrw :
    nextHas (exec (.csrrw 6 0x341 5) ({ stateA with mepc := 0x100 }.setReg 5 0x104)) (fun t =>
      t.reg 6 == 0x100 && t.mepc == 0x104 && t.pc == 0x104) = true
    ∧ nextHas (exec (.csrrw 0 0x341 5) (stateA.setReg 5 0x105)) (fun t => t.mepc == 0x104) = true := by decide
/-- K18: refused. Source and destination the same register: the operand is read first (41 R121). -/
theorem test_csrrw_msubm :
    exec (.csrrw 0 0x7C4 5) stateA = .refused .msubmWrite
    ∧ nextHas (exec (.csrrw 5 0x343 5) ({ stateA with mtval := 7 }.setReg 5 9)) (fun t =>
      t.reg 5 == 7 && t.mtval == 9) = true := ⟨rfl, by decide⟩

/-- K6; K19: illegal in User Mode. -/
theorem test_csrrs :
    nextHas (exec (.csrrs 5 0x341 0) { stateA with mepc := 0x100 }) (fun t =>
      t.reg 5 == 0x100 && t.mepc == 0x100 && t.pc == 0x104) = true
    ∧ nextHas (exec (.csrrs 5 0x300 0) stateU) (fun t =>
      entered 2 0x100 0 t && t.mtval == 0x300022F3 && t.reg 5 == 0) = true := by decide
/-- K4, K17, K20: the named fields. -/
theorem test_csrrs_fields :
    packMcause Config.shipped false 11 0 = 11 ∧ packMsubm Config.shipped 0 2 0 = 0x80
    ∧ packMstatus Config.shipped 3 false true 0 = 0x1808 ∧ packMcause Config.shipped true 0 0 = 0x80000000 := by decide

/-- K8: bit 3 of mstatus. -/
theorem test_csrrc :
    nextHas (exec (.csrrc 0 0x341 5) ({ stateA with mepc := 0x10C }.setReg 5 0x8)) (fun t => t.mepc == 0x104) = true
    ∧ mieOf Config.shipped (packMstatus Config.shipped 3 false true 0 &&& ~~~0x8) = false := by decide
/-- `pc + 4` is modulo `2^XLEN` (10 R21, 00 R10): it wraps at 32 bits, and does not where `XLEN` is 64. -/
theorem test_pc_wraps :
    nextHas (exec (.csrrs 0 0x341 0) { stateA with pc := 0xFFFFFFFC }) (fun t => t.pc == 0) = true
    ∧ nextHas (exec (.csrrs 0 0x341 0) { wide with pc := 0xFFFFFFFC }) (fun t => t.pc == 0x100000000) = true := by
  decide
/-- K10, K11. -/
theorem test_csrrwi :
    nextHas (exec (.csrrwi 0 0x343 0) { stateA with mtval := 5 }) (fun t => t.mtval == 0) = true
    ∧ nextHas (exec (.csrrwi 0 0x342 0) { stateA with exccode := 7, intFlag := true }) (fun t =>
      t.exccode == 0 && !t.intFlag) = true := by decide
/-- K12, K13. -/
theorem test_csrrsi :
    nextHas (exec (.csrrsi 0 0x341 4) { stateA with mepc := 0x100 }) (fun t => t.mepc == 0x104 && t.pc == 0x104) = true
    ∧ nextHas (exec (.csrrsi 0 0x341 4) { stateA with mepc := 0x104 }) (fun t => t.mepc == 0x104) = true := by decide
/-- K14's form for csrrci: an immediate 0 writes nothing, so `msubm` is not refused (41 R126). -/
theorem test_csrrci :
    nextHas (exec (.csrrci 0 0x7C4 0) stateA) (fun t => t.pc == 0x104 && t.typ == 0) = true
    ∧ nextHas (exec (.csrrci 7 0x343 31) { stateA with mtval := 0xFF }) (fun t =>
      t.mtval == 0xE0 && t.reg 7 == 0xFF) = true := by decide

/-! ## The step -/

/-- E0: code 0 without "C"; E1: code 1; Q1: code 1 before code 3. -/
theorem test_fetch_faults :
    nextHas (step { stateA with pc := 0x102, cfg := { Config.shipped with hasC := false } }) (fun t =>
      entered 0 0x102 3 t && t.mtval == 0x102) = true
    ∧ nextHas (step { faulty .fetch with pc := 0x20000000 }) (fun t =>
      entered 1 0x20000000 3 t && t.mtval == 0x20000000) = true
    ∧ nextHas (step (withWord (broken .fetch 0x100) 0x73)) (fun t => entered 3 0x100 3 t && t.mtval == 0x100) = true := by
  decide
/-- 60 R174: at a breakpoint an illegal word, an `mret` in User Mode and a CSR access there record code 2. -/
theorem test_breakpoint_priority :
    nextHas (step (withWord (broken .fetch 0x100) 0x4073)) (fun t => entered 2 0x100 3 t && t.mtval == 0x4073) = true
    ∧ nextHas (step (withWord { broken .fetch 0x100 with priv := .user } 0x30200073)) (fun t =>
      entered 2 0x100 0 t && t.mtval == 0x30200073) = true
    ∧ nextHas (step (withWord { broken .fetch 0x100 with priv := .user } 0x300022F3)) (fun t =>
      entered 2 0x100 0 t && t.mtval == 0x300022F3) = true := by decide
/-- E2a, 30 R86 (b), E2c. -/
theorem test_illegal :
    nextHas (step (withWord stateA 0x00004073)) (fun t => entered 2 0x100 3 t && t.mtval == 0x4073) = true
    ∧ nextHas (step (withWord unclaiming 0x302000F3)) (fun t => entered 2 0x100 3 t && t.mtval == 0x302000F3) = true
    ∧ nextHas (step (withWord stateA 0)) (fun t => entered 2 0x100 3 t && t.mtval == 0) = true := by decide
/-- E3h, E4, E4h. -/
theorem test_load_faults :
    entered 3 0x100 3 ((broken .load 0x1000).loadClass ⟨0x1000, .w4, 5, id, 0x104⟩) = true
    ∧ (stateA.loadClass ⟨0x1002, .w4, 5, id, 0x104⟩).mtval = 0x1002
    ∧ entered 4 0x100 3 (stateA.loadClass ⟨0x1001, .w2, 5, id, 0x104⟩) = true := by decide
/-- E6, E6a, Q5: code 6, nothing posted, memory as it was. -/
theorem test_store_faults :
    entered 6 0x100 3 (stateA.storeClass ⟨0x1001, .w2, 0xFFFF, 0x104⟩) = true
    ∧ entered 6 0x100 3 (stateA.amoClass ⟨0x1002, .w4, 5, id, id, 0x104⟩) = true
    ∧ ((faulty .store).storeClass ⟨0x20000002, .w4, 1, 0x104⟩).exccode = 6
    ∧ ((faulty .store).storeClass ⟨0x20000002, .w4, 1, 0x104⟩).pending = []
    ∧ ((faulty .store).storeClass ⟨0x20000002, .w4, 1, 0x104⟩).mem = [] := by decide
/-- The model's choice of log 42: a breakpoint for stores does not hit an AMO, one for AMOs does. -/
theorem test_amo_breakpoint :
    (broken .store 0x1000).amoClass ⟨0x1000, .w4, 0, id, id, 0x104⟩
      = ((broken .store 0x1000).store 0x1000 4 ((broken .store 0x1000).load 0x1000 4)).goto 0x104
    ∧ entered 3 0x100 3 ((broken .amo 0x1000).amoClass ⟨0x1000, .w4, 0, id, id, 0x104⟩) = true := ⟨rfl, by decide⟩
/-- A store of 4 bytes lies little-endian (20 R61) and is read back (R68). -/
theorem test_store_load :
    (stateA.store 0x1000 4 0x11223344).mem = [(0x1000, 0x44), (0x1001, 0x33), (0x1002, 0x22), (0x1003, 0x11)]
    ∧ ((stateA.store 0x1000 4 0x11223344).load 0x1000 4) = 0x11223344 := by decide
/-- Q7, the choice of the code: a Load fault first, and only it is then chosen among. -/
theorem test_due : dueFaults [⟨.store, 0x3000⟩, ⟨.load, 0x2000⟩] = [⟨.load, 0x2000⟩]
    ∧ dueFaults [⟨.store, 0x3000⟩] = [⟨.store, 0x3000⟩] := by decide
/-- Q8, the reporter waits: code 11, and the fault stays pending. -/
theorem test_waits : nextHas (step (withWord (waiting [⟨.store, 0x3000⟩] 1) 0x73)) (fun t =>
    entered 11 0x100 3 t && t.pendingFaults == [⟨.store, 0x3000⟩]) = true := by decide

/-! ## Witnesses: for each statement with hypotheses, a state and operands that meet them together -/

theorem test_witness_OperandsAreFields : decodeWord 0x34129373 = some (.csrrw 6 0x341 5)
    ∧ decodeWord 0x343FDFF3 = some (.csrrwi 31 0x343 31) := by decide
theorem test_witness_DecodeOfEncode : (Instr.csrrsi 0 0x341 31).WellFormed = true := by decide
theorem test_witness_EncodeOfDecode : decodeWord 0x30047073 = some (.csrrci 0 0x300 8) := by decide
theorem test_witness_GeneralRegisters : (31 : RegIx) ≠ 0 ∧ (0 : RegIx) ≠ 31 := by decide
theorem test_witness_TrapEntryUpdates : stateA.mtvec.extractLsb' 0 6 = 0#6 ∧ stateA.cfg.hasC = true
    ∧ (stateM false false true 3 0).cfg.hasU = false := by decide
theorem test_witness_EcallTakesException : stateU.priv = .user ∧ stateA.priv = .machine := by decide
theorem test_witness_MretRestoresStatus :
    ((stateM false false true 3 0).priv = .machine ∧ (stateM false false true 3 0).mpp = 3#2)
    ∧ ((stateM true false true 0 0).priv = .machine ∧ (stateM true false true 0 0).cfg.hasU = true
      ∧ (stateM true false true 0 0).mpp = 0#2) := by decide
theorem test_witness_MretReturnsToMepc :
    (stateM true true true 3 0).priv = .machine ∧ (stateM true true true 3 0).mpp = 3#2 := by decide
theorem test_witness_MretInUserModeIsIllegal : stateU.priv = .user := by decide
theorem test_witness_MretStopsWithoutMode :
    (stateM true false true 2 0).priv = .machine ∧ (stateM true false true 2 0).mpp ≠ 3#2
    ∧ ((stateM true false true 2 0).cfg.hasU = true → (stateM true false true 2 0).mpp ≠ 0#2) := by decide
theorem test_witness_TrapThenReturnRestores :
    ModeConfigured stateU ∧ PcEven stateU ∧ stateU.cfg.Valid := ⟨fun _ => rfl, fun _ => by decide, shipped_valid⟩
theorem test_witness_CsrReadValues :
    stateA.cfg.Valid ∧ stateA.cfg.layout.mppAt + PRIV_BITS ≤ 31 ∧ 31 ≠ stateA.cfg.layout.mieAt
    ∧ 31 ≠ stateA.cfg.layout.mpieAt ∧ 0 < stateA.cfg.layout.typAt ∧ 0 < stateA.cfg.layout.ptypAt
    ∧ stateA.cfg.layout.exccodeAt + stateA.cfg.exccodeBits ≤ 30 ∧ 30 ≠ stateA.cfg.layout.intFlagAt :=
  ⟨shipped_valid, by decide⟩
theorem test_witness_CsrAccessCheck :
    csrOperand (.csrrs 5 0x344 0) = some 0x344#12 ∧ csrAt Config.layout 0x344 = none
    ∧ csrOperand (.csrrs 5 0x300 0) = some 0x300#12 ∧ csrAt stateU.cfg.layout 0x300 = some .mstatus ∧ stateU.cfg.Valid
    ∧ stateU.priv = .user := ⟨rfl, rfl, rfl, rfl, shipped_valid, rfl⟩
theorem test_witness_MsubmWriteRefused :
    csrOperand (.csrrsi 5 0x7C4 1) = some stateA.cfg.layout.msubm ∧ writesCsr (.csrrsi 5 0x7C4 1) = true
    ∧ stateA.cfg.Valid ∧ stateA.priv = .machine := ⟨rfl, rfl, shipped_valid, rfl⟩
theorem test_witness_CsrReadWriteForms :
    csrAt stateA.cfg.layout 0x305 = some .mtvec ∧ Csr.mtvec ≠ .msubm ∧ stateA.cfg.Valid ∧ stateA.priv = .machine
    ∧ (31 : RegIx) ≠ 0 := ⟨rfl, by decide, shipped_valid, rfl, by decide⟩
theorem test_witness_CsrReadSetForms :
    (csrAt stateA.cfg.layout 0x7C4 = some .msubm ∧ ((0 : RegIx) ≠ 0 → Csr.msubm ≠ .msubm))
    ∧ (csrAt stateA.cfg.layout 0x341 = some .mepc ∧ ((1 : RegIx) ≠ 0 → Csr.mepc ≠ .msubm))
    ∧ stateA.cfg.Valid ∧ stateA.priv = .machine := ⟨by decide, by decide, shipped_valid, rfl⟩
theorem test_witness_CsrReadClearForms :
    csrAt stateA.cfg.layout 0x300 = some .mstatus ∧ ((31 : RegIx) ≠ 0 → Csr.mstatus ≠ .msubm) ∧ stateA.cfg.Valid
    ∧ stateA.priv = .machine := ⟨rfl, by decide, shipped_valid, rfl⟩
theorem test_witness_CsrInstructionFrame :
    csrOperand (.csrrw 6 0x341 5) = some 0x341#12 ∧ csrAt stateA.cfg.layout 0x341 = some .mepc
    ∧ destination (.csrrw 6 0x341 5) = some 6 ∧ stateA.cfg.Valid ∧ stateA.priv = .machine
    ∧ ∃ t, exec (.csrrw 6 0x341 5) stateA = .next t := ⟨rfl, rfl, rfl, shipped_valid, rfl, _, rfl⟩
theorem test_witness_StoreThenLoad : stateA.cfg.WidthsFit := by decide
theorem test_witness_StoreIsLittleEndian :
    stateA.cfg.WidthsFit ∧ 7 < widthBytes .w8 ∧ 0 < widthBytes .w1 := by decide
theorem test_witness_StoreFrame : 0x0FFF ∉ stateA.addrs 0x1000 (widthBytes .w4)
    ∧ 0x1004 ∉ stateA.addrs 0x1000 (widthBytes .w4) := by decide

/-- A Load at an address, for the witnesses of the class rules. -/
def loadAt (a : Word) : LoadOp := ⟨a, .w4, 5, id, 0x104⟩
/-- A Store at an address. -/
def storeAt (a : Word) : StoreOp := ⟨a, .w4, 1, 0x104⟩
/-- An AMO at an address. -/
def amoAt (a : Word) : AmoOp := ⟨a, .w4, 5, id, id, 0x104⟩

theorem test_witness_LoadClass :
    (broken .load 0x1000).hwBreak .load (loadAt 0x1000).addr = true
    ∧ stateA.hwBreak .load (loadAt 0x1000).addr = false
    ∧ (loadAt 0x1002).addr.toNat % widthBytes (loadAt 0x1002).width ≠ 0
    ∧ (loadAt 0xFFFFFFFC).addr.toNat % widthBytes (loadAt 0xFFFFFFFC).width = 0
    ∧ (faulty .load).accessFault .load (loadAt 0x20000000).addr 4 = true
    ∧ (faulty .load).accessFault .load (loadAt 0x1FFFFFFC).addr 4 = false ∧ (loadAt 0).rd ≠ 0 := by decide
theorem test_witness_StoreClass :
    (broken .store 0x1000).hwBreak .store (storeAt 0x1000).addr = true
    ∧ stateA.hwBreak .store (storeAt 0x1000).addr = false
    ∧ (storeAt 0x1002).addr.toNat % widthBytes (storeAt 0x1002).width ≠ 0
    ∧ (storeAt 0xFFFFFFFC).addr.toNat % widthBytes (storeAt 0xFFFFFFFC).width = 0
    ∧ (faulty .store).accessFault .store (storeAt 0x20000000).addr 4 = true
    ∧ (faulty .store).accessFault .store (storeAt 0x1FFFFFFC).addr 4 = false := by decide
theorem test_witness_AmoClass :
    (broken .amo 0x1000).hwBreak .amo (amoAt 0x1000).addr = true
    ∧ stateA.hwBreak .amo (amoAt 0x1000).addr = false
    ∧ (amoAt 0x1002).addr.toNat % widthBytes (amoAt 0x1002).width ≠ 0
    ∧ (amoAt 0xFFFFFFFC).addr.toNat % widthBytes (amoAt 0xFFFFFFFC).width = 0
    ∧ (faulty .amo).accessFault .amo (amoAt 0x20000000).addr 4 = true
    ∧ (faulty .amo).accessFault .amo (amoAt 0x1FFFFFFC).addr 4 = false ∧ (amoAt 0).rd ≠ 0 := by decide
/-- Members (e), (a) and (b): an `mret` with `rd` not 0, where the base set claims no word. -/
theorem test_witness_FixedIllegalWords :
    ((0x00004073#32).extractLsb' 0 7 = 0x73#7 ∧ (0x00004073#32).extractLsb' 12 3 = 4#3)
    ∧ (0x302000F3#32).extractLsb' 0 7 = 0x73#7 ∧ (0x302000F3#32).extractLsb' 12 3 = 0#3
    ∧ decodeWord 0x302000F3 = none ∧ 0x302000F3#32 ∉ unclaiming.cfg.baseClaims := by decide
/-- A next state of `BaseStep` that jumps to 0x200. -/
def jump : BaseNext := ⟨0x200, stateA.x, [(0x1000, 7)], none⟩
theorem test_witness_BaseAnswerTakesEffect :
    ¬ (stateA.cfg.misalignedAtJump = true ∧ stateA.cfg.hasC = false ∧ jump.pc.toNat % 4 ≠ 0)
    ∧ ({ Config.shipped with misalignedAtJump := true, hasC := false }.misalignedAtJump = true
      ∧ ({ jump with pc := 0x202 } : BaseNext).pc.toNat % 4 ≠ 0)
    ∧ ({ jump with csrs := some default } : BaseNext).csrs = some default ∧ isCsrWord 0xB00022F3 = true
    ∧ stateA.priv = .machine ∧ BaseExc.breakpoint ≠ .illegalInstruction
    ∧ (∀ q, (⟨some 5, none⟩ : Spoilt).bytes = some q → 0x1000 ∉ stateA.addrs q.1 (widthBytes q.2))
    ∧ (⟨some 5, none⟩ : Spoilt).reg ≠ some (6 : RegIx) ∧ stateA.cfg.hasA = true
    ∧ ErrorAt (faulty .load) .load 0x20000000 ∧ ErrorAt (faulty .amo) .store 0x20000000
    ∧ ¬ ErrorAt stateA .load 0x20000000 :=
  ⟨by decide, by decide, rfl, by decide, rfl, by decide, by simp, by decide, rfl,
    ⟨.load, .w4, .inl ⟨rfl, rfl⟩, by decide⟩, ⟨.amo, .w4, .inr ⟨rfl, .inr ⟨rfl, rfl⟩⟩, by decide⟩,
    fun ⟨_, _, _, _, _, e⟩ => Bool.false_ne_true e⟩
/-- A step of the base set that jumps and stores a byte. -/
theorem test_base_next :
    (stateA.applyAnswer 0x6F (.next jump)).pc = 0x200
    ∧ (stateA.applyAnswer 0x6F (.next jump)).mem = [(0x1000, 7)] := by decide
theorem test_witness_PostAddsOneFault : (waiting [⟨.store, 0x3000⟩, ⟨.load, 0x2000⟩] 1).pendingFaults.Nodup := by decide
/-- On the platform of state A no access suffers an access error (I3). -/
theorem test_witness_PostAddsOneFault_none :
    (∀ c a, ¬ ErrorAt (withWord stateA 0x73) c a) ∧ (withWord stateA 0x73).pendingFaults = []
    ∧ NoInterruptsDuring 1 (withWord stateA 0x73) ∧ ∃ t, Runs 1 (withWord stateA 0x73) t := by
  refine ⟨fun _ _ ⟨_, _, _, _, _, e⟩ => Bool.false_ne_true e, rfl, fun k hk u hu => ?_, _, rfl⟩
  obtain rfl : k = 0 := Nat.lt_one_iff.mp hk
  cases hu
  rfl
/-- An answer that posts: where the store suffers an access error it does, where none does it is its next state (60
R175, 95 I3). -/
theorem test_base_post :
    ((faulty .store).applyAnswer 0x6F (.nextPost jump .store 0x20000000 ⟨none, none⟩)).pendingFaults
      = [⟨.store, 0x20000000⟩]
    ∧ (stateA.applyAnswer 0x6F (.nextPost jump .store 0x20000000 ⟨none, none⟩)).pending = []
    ∧ (stateA.applyAnswer 0x6F (.nextPost jump .store 0x20000000 ⟨none, none⟩)).pc = 0x200 := by decide
theorem test_witness_ReporterDeliversSmallestCode :
    NoInterrupts (waiting [⟨.store, 0x3000⟩, ⟨.load, 0x2000⟩] 0)
    ∧ (waiting [⟨.store, 0x3000⟩, ⟨.load, 0x2000⟩] 0).reports = true := ⟨rfl, rfl⟩
theorem test_witness_ReporterWaits :
    NoInterrupts (waiting [⟨.store, 0x3000⟩] 1) ∧ ∀ q ∈ (waiting [⟨.store, 0x3000⟩] 1).pending, q.wait ≠ 0 :=
  ⟨rfl, by decide⟩
/-- Nothing to wait: the delivery itself. -/
theorem test_witness_PendingFaultIsDelivered :
    ⟨⟨.store, 0x3000⟩, 0⟩ ∈ (waiting [⟨.store, 0x3000⟩] 0).pending
    ∧ NoInterruptsDuring ((waiting [⟨.store, 0x3000⟩] 0).pending.length + 2 * 0) (waiting [⟨.store, 0x3000⟩] 0)
    ∧ ∃ t, Runs ((waiting [⟨.store, 0x3000⟩] 0).pending.length + 2 * 0) (waiting [⟨.store, 0x3000⟩] 0) t := by
  refine ⟨by decide, fun k hk u hu => ?_, _, rfl⟩
  have h0 : k = 0 := Nat.lt_one_iff.mp hk
  subst h0
  cases hu
  rfl
theorem test_witness_PendingFaultsAreInvisible :
    NoInterrupts (withWord stateA 0x73) ∧ (withWord stateA 0x73).reports = false
    ∧ { withWord stateA 0x73 with pending := [⟨⟨.load, 0x2000⟩, 5⟩], reporterDraws := 9 }.reports = false
    ∧ ∃ t, step (withWord stateA 0x73) = .next t := ⟨rfl, rfl, rfl, _, rfl⟩
theorem test_witness_InterruptsRefusedUnlessMasked :
    step { stateA with nmiLine := true } = .refused .interruptTaken
    ∧ step { stateA with irqLine := true } = .refused .interruptTaken
    ∧ InterruptsOff { stateA with mie := false, irqLine := true } := ⟨rfl, rfl, rfl, rfl⟩
/-- The one fault pending is delivered at once; the pc 0x100 is then 0x200, and nothing is pending there. -/
theorem test_witness_RunEndsAfterEveryDelivery :
    ⟨.store, 0x3000⟩ ∈ (waiting [⟨.store, 0x3000⟩] 0).pendingFaults
    ∧ NoInterruptsDuring 1 (waiting [⟨.store, 0x3000⟩] 0)
    ∧ ∃ t, RunEnds 0x200 1 (waiting [⟨.store, 0x3000⟩] 0) t := by
  have only : (waiting [⟨.store, 0x3000⟩] 0).chosenFault = ⟨.store, 0x3000⟩ := by
    simp [State.chosenFault, State.pendingFaults, waiting, dueFaults, Nat.mod_one]
  refine ⟨by decide, fun k hk u hu => ?_, (waiting [⟨.store, 0x3000⟩] 0).deliver, rfl, ⟨rfl, ?_⟩, fun k hk u hu h => ?_⟩
  · obtain rfl : k = 0 := by omega
    cases hu
    rfl
  · rw [State.deliver, only]
    rfl
  · obtain rfl : k = 0 := by omega
    cases hu
    exact absurd h.1 (by decide)
theorem test_witness_FetchTestOrder :
    ({ Config.shipped with hasC := false }.hasC = false ∧ (0x102 : Word).toNat % 4 ≠ 0)
    ∧ (faulty .fetch).accessFault .fetch 0x20000000 2 = true
    ∧ (withWord stateA 0x73).cfg.hasC = true ∧ (withWord stateA 0x73).accessFault .fetch 0x100 4 = false
    ∧ (withWord stateA 0x73).cfg.WidthsFit
    ∧ (withWord stateA 0x73).mem.read (stateA.pc.toNat % 2 ^ 32) = some 0x73
    ∧ (withWord stateA 0x73).fetchLen = 4 ∧ (withWord stateA 0x9002).fetchLen = 2
    ∧ (∀ k < 4, (0x100 + k) % 2 ^ 32 ∉ (withWord stateA 0x73).written) := by decide
theorem test_witness_NoCode0WithC : stateA.cfg.hasC = true := by decide
theorem test_witness_StepTakesFetchException :
    NoInterrupts (faulty .fetch) ∧ (faulty .fetch).reports = false
    ∧ { faulty .fetch with pc := 0x20000000 }.fetch = .trap .instrAccessFault 0x20000000 := ⟨rfl, rfl, rfl⟩
/-- A breakpoint at a pc where nothing has been given a value. -/
theorem test_witness_StepTakesFetchException_launch :
    (broken .fetch 0x100).hwBreak .fetch (broken .fetch 0x100).pc = true ∧ (broken .fetch 0x100).mem = []
    ∧ NoInterrupts (broken .fetch 0x100) ∧ (broken .fetch 0x100).reports = false
    ∧ ∀ a ∈ (broken .fetch 0x100).addrs 0x100 (broken .fetch 0x100).fetchLen, a ∉ (broken .fetch 0x100).written :=
  ⟨by decide, rfl, rfl, rfl, fun _ _ => List.not_mem_nil⟩
/-- With a breakpoint at the pc: an `ecall`, an illegal word, and in User Mode an `mret` and a CSR access. -/
theorem test_witness_StepTakesFetchException_breakpoint :
    (withWord (broken .fetch 0x100) 0x73).hwBreak .fetch 0x100 = true
    ∧ (withWord (broken .fetch 0x100) 0x73).fetch = .bytes [0x73, 0, 0, 0]
    ∧ (withWord (broken .fetch 0x100) 0x73).beforeBreakpoint [0x73, 0, 0, 0] = false
    ∧ decode [0x73, 0, 0, 0] = .ok (.ecall, [])
    ∧ (withWord (broken .fetch 0x100) 0x4073).fetch = .bytes [0x73, 0x40, 0, 0]
    ∧ decode [0x73, 0x40, 0, 0] = .error (.noRow 0x4073)
    ∧ isIllegal (broken .fetch 0x100).cfg 0x4073 .machine = true
    ∧ decode [0x73, 0, 0x20, 0x30] = .ok (.mret, [])
    ∧ decode [0xF3, 0x22, 0, 0x30] = .ok (.csrrs 5 0x300 0, []) ∧ csrAt Config.layout 0x300 = some .mstatus := by
  decide
theorem test_witness_StepRunsDecoded :
    NoInterrupts (withWord stateA 0x34129373) ∧ (withWord stateA 0x34129373).reports = false
    ∧ (withWord stateA 0x34129373).fetch = .bytes [0x73, 0x93, 0x12, 0x34]
    ∧ decode [0x73, 0x93, 0x12, 0x34] = .ok (.csrrw 6 0x341 5, [])
    ∧ (withWord stateA 0x34129373).hwBreak .fetch 0x100 = false
    ∧ (withWord (broken .fetch 0x100) 0x4073).beforeBreakpoint [0x73, 0x40, 0, 0] = true :=
  ⟨rfl, rfl, rfl, rfl, rfl, rfl⟩
theorem test_witness_StepRunsOther :
    (withWord stateA 0x4073).interrupted = false ∧ (withWord stateA 0x4073).reports = false
    ∧ (withWord stateA 0x4073).fetch = .bytes [0x73, 0x40, 0, 0]
    ∧ decode [0x73, 0x40, 0, 0] = .error (.noRow 0x4073) ∧ wordOfBytes [0x73, 0x40, 0, 0] ≠ 0x9002#32
    ∧ (withWord stateA 0x4073).hwBreak .fetch 0x100 = false
    ∧ isIllegal stateA.cfg (wordOfBytes [0x73, 0x40, 0, 0]) (withWord stateA 0x4073).priv = true := by decide
theorem test_witness_InstructionRunsAfterReset : (Instr.csrrci 31 0xFFF 31).WellFormed = true := by decide
/-- A store of the word at the pc. -/
theorem test_witness_SelfModifiedCodeRefused :
    (stateA.store 0x100 4 0x73).interrupted = false ∧ (stateA.store 0x100 4 0x73).reports = false
    ∧ (stateA.store 0x100 4 0x73).cfg.hasC = true
    ∧ (stateA.store 0x100 4 0x73).fetchLen = 4
    ∧ (stateA.store 0x100 4 0x73).accessFault .fetch 0x100 4 = false
    ∧ 0x100 ∈ stateA.addrs 0x100 4 ∧ 0x100 ∈ (stateA.store 0x100 4 0x73).written := by decide
theorem test_witness_CompressedBreakpointRefused :
    (withWord stateA 0x9002).interrupted = false ∧ (withWord stateA 0x9002).reports = false
    ∧ (withWord stateA 0x9002).cfg.hasC = true
    ∧ (withWord stateA 0x9002).fetch = .bytes [0x02, 0x90]
    ∧ (withWord stateA 0x9002).hwBreak .fetch 0x100 = false := by decide
theorem test_witness_InvariantKept :
    Inv (withWord State.reset 0x73) ∧ NoInterrupts (withWord State.reset 0x73)
    ∧ ∃ t, step (withWord State.reset 0x73) = .next t :=
  ⟨⟨by decide, by decide, fun _ => rfl, fun _ => by decide, by decide, shipped_valid,
    ⟨by decide, by decide, by decide, by decide, by decide, by decide, by decide, by decide, by decide, by decide⟩⟩,
    rfl, _, rfl⟩
theorem test_witness_PlatformFixed : NoInterrupts (withWord State.reset 0x34129373)
    ∧ ∃ t, step (withWord State.reset 0x34129373) = .next t := ⟨rfl, _, rfl⟩
theorem test_witness_UserModeLeftOnlyByTrap :
    stateU.cfg.Valid ∧ (withWord stateU 0x73).priv = .user ∧ NoInterrupts (withWord stateU 0x73)
    ∧ ∃ t, step (withWord stateU 0x73) = .next t := ⟨shipped_valid, rfl, rfl, _, rfl⟩
theorem test_witness_CodesFromUserMode :
    (withWord stateU 0x73).priv = .user ∧ NoInterrupts (withWord stateU 0x73)
    ∧ ∃ t, step (withWord stateU 0x73) = .next t ∧ t.priv = .machine := ⟨rfl, rfl, _, rfl, rfl⟩
/-- M4. -/
theorem test_witness_UserModeEnteredOnlyByMret :
    (withWord (stateM true false true 0 0) 0x30200073).priv = .machine
    ∧ NoInterrupts (withWord (stateM true false true 0 0) 0x30200073)
    ∧ ∃ t, step (withWord (stateM true false true 0 0) 0x30200073) = .next t ∧ t.priv = .user := ⟨rfl, rfl, _, rfl, rfl⟩
theorem test_witness_SubModeMoves : NoInterrupts (withWord (stateM true false true 0 0) 0x30200073)
    ∧ ∃ t, step (withWord (stateM true false true 0 0) 0x30200073) = .next t ∧ t.typ = 0 := ⟨rfl, _, rfl, rfl⟩
/-- K3. -/
theorem test_witness_MtvecWrittenOnlyBySoftware :
    stateA.cfg.Valid ∧ NoInterrupts (withWord (stateA.setReg 5 0x300) 0x30529073)
    ∧ ∃ t, step (withWord (stateA.setReg 5 0x300) 0x30529073) = .next t
      ∧ t.mtvec ≠ (withWord (stateA.setReg 5 0x300) 0x30529073).mtvec := ⟨shipped_valid, rfl, _, rfl, by decide⟩

end Sys2Proof.Tests
end

section
/-! PROOF. A store read back, and what it leaves alone (O29, O30). -/

namespace Sys2Proof.Machine

open Sys2Proof.Safety

/-- Bytes written at distinct addresses are found there. -/
theorem Memory.map_byte_writeBytes (m : Memory) {as : List Nat} {bs : List Byte} (distinct : as.Nodup)
    (len : as.length = bs.length) : as.map (m.writeBytes as bs).byte = bs := by
  induction as generalizing m bs with
  | nil => exact (List.length_eq_zero_iff.mp len.symm).symm
  | cons a as ih =>
    cases bs with
    | nil => cases len
    | cons b bs =>
      obtain ⟨fresh, distinct⟩ := List.nodup_cons.mp distinct
      have first : ((m.write a b).writeBytes as bs).read a = some b := by
        rw [read_writeBytes_ne _ _ _ fresh, read_write_same]
      rw [writeBytes, List.map_cons, byte_of_read first, ih _ distinct (Nat.succ.inj len)]

/-- The bytes of a value stand for its low bits (20 R61). -/
theorem getLsbD_valueOf_bytesOf (v : BitVec 64) (n i : Nat) :
    (valueOf (bytesOf v n)).getLsbD i = (decide (i < 8 * n) && v.getLsbD i) := by
  induction n generalizing v i with
  | zero => simp [bytesOf, valueOf]
  | succ n ih =>
    simp only [bytesOf, valueOf, BitVec.getLsbD_or, BitVec.getLsbD_shiftLeft, BitVec.getLsbD_setWidth, ih,
      BitVec.getLsbD_ushiftRight]
    by_cases wide : i < 64
    · by_cases low : i < 8
      · simp [wide, low, show i < 8 * (n + 1) by omega]
      · have moved : (i - 8 < 8 * n) = (i < 8 * (n + 1)) := propext (by omega)
        simp [wide, low, moved, show 8 + (i - 8) = i by omega]
    · simp [wide, BitVec.getLsbD_of_ge v i (Nat.le_of_not_lt wide)]

theorem toNat_valueOf_bytesOf (v : BitVec 64) (n : Nat) : (valueOf (bytesOf v n)).toNat = v.toNat % 2 ^ (8 * n) := by
  apply Nat.eq_of_testBit_eq
  intro i
  rw [Nat.testBit_mod_two_pow]
  exact getLsbD_valueOf_bytesOf v n i

theorem widthBytes_le (w : Width) : widthBytes w ≤ 8 := by cases w <;> decide

/-- An access of a machine's width names no byte twice. -/
theorem State.addrs_nodup {s : State} (widths : s.cfg.WidthsFit) (a : Word) {n : Nat} (hn : n ≤ 8) :
    (s.addrs a n).Nodup := byteAddrs_nodup a (Nat.le_trans (by decide) widths.1) widths.2.1 hn

@[simp] theorem State.addrs_length (s : State) (a : Word) (n : Nat) : (s.addrs a n).length = n := byteAddrs_length _ _ _

/-- An access finds the bytes just stored at its address (00 R14, 20 R68). -/
theorem State.bytesAt_store {s : State} (widths : s.cfg.WidthsFit) (a : Word) {n : Nat} (hn : n ≤ 8) (v : BitVec 64) :
    (s.store a n v).bytesAt a n = bytesOf v n :=
  Memory.map_byte_writeBytes _ (addrs_nodup widths a hn) (by simp)

/-- Settles O29: the stored bytes are found at distinct addresses, and stand for the value's low bits. -/
theorem storeThenLoad : Obligations.StoreThenLoad := by
  intro s a w v widths
  rw [State.load, State.bytesAt_store widths a (widthBytes_le w), toNat_valueOf_bytesOf]

/-- Settles O30: a store writes the addressed bytes and the record of written ones, and nothing else. -/
theorem storeFrame : Obligations.StoreFrame := by
  intro s a w v
  exact ⟨fun c outside => Memory.read_writeBytes_ne _ _ _ outside, s.store_sameControl _ _ _, fun _ => rfl, rfl, rfl,
    fun _ => mem_markWritten⟩

end Sys2Proof.Machine
end

section
/-! PROOF. The encoder and the decoder agree on the words of the table (spec 30 rules R80 to R84). -/

namespace Sys2Proof

/-- Every encoding lies under the major opcode SYSTEM (30 R81). -/
theorem opcodeOf_encode (i : Instr) : opcodeOf (encode i) = opcodeSystem := by
  cases i with
  | ecall => exact Laws.SystemWord.ecall
  | ebreak => exact Laws.SystemWord.ebreak
  | mret => exact Laws.SystemWord.mret
  | csrrw rd csr rs1 => exact Laws.SystemWord.csrrw rd csr rs1
  | csrrs rd csr rs1 => exact Laws.SystemWord.csrrs rd csr rs1
  | csrrc rd csr rs1 => exact Laws.SystemWord.csrrc rd csr rs1
  | csrrwi rd csr uimm => exact Laws.SystemWord.csrrwi rd csr uimm
  | csrrsi rd csr uimm => exact Laws.SystemWord.csrrsi rd csr uimm
  | csrrci rd csr uimm => exact Laws.SystemWord.csrrci rd csr uimm

/-- The CSR access instruction of a `funct3`, `src` being the field of `rs1` or `uimm` (30 R82, R83). -/
def csrInstr (f : BitVec 3) (rd : RegIx) (csr : BitVec 12) (src : BitVec 5) : Option Instr :=
  match f.toNat with
  | 1 => some (.csrrw rd csr src.toFin)
  | 2 => some (.csrrs rd csr src.toFin)
  | 3 => some (.csrrc rd csr src.toFin)
  | 5 => some (.csrrwi rd csr src.toNat)
  | 6 => some (.csrrsi rd csr src.toNat)
  | 7 => some (.csrrci rd csr src.toNat)
  | _ => none

/-- A SYSTEM word whose `funct3` is not 000 is decoded by its `funct3` (30 R83). -/
theorem decodeWord_of_funct3 {w : BitVec 32} (op : opcodeOf w = opcodeSystem) (hf : funct3Of w ≠ 0) :
    decodeWord w = csrInstr (funct3Of w) (rdOf w) (csrOf w) (w.extractLsb' 15 5) := by
  have other : ∀ v : BitVec 32, funct3Of v = 0 → w ≠ v := fun v hv e => hf (e ▸ hv)
  rw [decodeWord, if_neg (other _ (by decide)), if_neg (other _ (by decide)), if_neg (other _ (by decide)), if_pos op]
  rfl

theorem decodeWord_systemWord {f : BitVec 3} (hf : f ≠ 0) (top : BitVec 12) (mid : BitVec 5) (rd : RegIx) :
    decodeWord (systemWord top mid f rd) = csrInstr f rd top mid := by
  have h := decodeWord_of_funct3 (opcodeOf_systemWord top mid f rd) ((funct3Of_systemWord top mid f rd).symm ▸ hf)
  rwa [funct3Of_systemWord, rdOf_systemWord, csrOf_systemWord, mid_systemWord] at h

/-- The word of a well-formed instruction matches its row (30 R83). -/
theorem decodeWord_encode {i : Instr} (wf : i.WellFormed = true) : decodeWord (encode i) = some i := by
  have imm : ∀ {u : Nat}, decide (u < 32) = true → (BitVec.ofNat 5 u).toNat = u := fun h =>
    Nat.mod_eq_of_lt (of_decide_eq_true h)
  cases i with
  | ecall => decide
  | ebreak => decide
  | mret => decide
  | csrrw rd csr rs1 => exact decodeWord_systemWord (by decide) _ _ _
  | csrrs rd csr rs1 => exact decodeWord_systemWord (by decide) _ _ _
  | csrrc rd csr rs1 => exact decodeWord_systemWord (by decide) _ _ _
  | csrrwi rd csr uimm =>
    exact (decodeWord_systemWord (by decide) _ _ _).trans (congrArg (some ∘ Instr.csrrwi rd csr) (imm wf))
  | csrrsi rd csr uimm =>
    exact (decodeWord_systemWord (by decide) _ _ _).trans (congrArg (some ∘ Instr.csrrsi rd csr) (imm wf))
  | csrrci rd csr uimm =>
    exact (decodeWord_systemWord (by decide) _ _ _).trans (congrArg (some ∘ Instr.csrrci rd csr) (imm wf))

/-- The first byte of a SYSTEM word begins a 4-byte instruction (30 R80, R81). -/
theorem isLong_of_system {w : BitVec 32} (op : opcodeOf w = opcodeSystem) : isLong (w.extractLsb' 0 8) = true := by
  have low : (w.extractLsb' 0 8).extractLsb' 0 2 = (opcodeOf w).extractLsb' 0 2 := by
    apply BitVec.eq_of_getLsbD_eq
    intro i hi
    simp [opcodeOf]
  rw [isLong, low, op]
  decide

/-- The bytes of an encoding decode to the instruction and leave what follows (30 R84). -/
theorem decode_encode {i : Instr} (wf : i.WellFormed = true) (rest : List Byte) :
    decode (bytesOfWord (encode i) ++ rest) = .ok (i, rest) := by
  have long := isLong_of_system (opcodeOf_encode i)
  have row : decodeWord (wordOfBytes (bytesOfWord (encode i))) = some i := by
    rw [wordOfBytes_bytesOfWord, decodeWord_encode wf]
  simp only [bytesOfWord] at row
  simp only [bytesOfWord, List.cons_append, List.nil_append, decode, long, if_true, row]

/-- The opcode table's numbering of a whole word is the word's own. -/
@[simp] theorem tableWord_toNat (w : BitVec 32) : tableWord 32 w.toNat = w := by
  rw [tableWord, Nat.mod_eq_of_lt w.isLt, BitVec.ofNat_toNat, BitVec.setWidth_eq]

end Sys2Proof
end

section
/-! PROOF. The step that runs an instruction of the table (spec 00 rule R16; O42, O44). -/

namespace Sys2Proof.Machine

open Sys2Proof.Safety

/-- While the reporter waits, the step is that of the instruction at the pc (60 R175). -/
theorem step_of_waits {s : State} (quiet : NoInterrupts s) (waits : s.reports = false) : step s = runAt s.tick := by
  have hq : s.interrupted = false := quiet
  rw [step, if_neg (by simp [hq]), if_neg (by simp [waits])]

/-- No breakpoint is taken where none is set, or where the instruction takes a smaller code (60 R174). -/
theorem State.takesBreakpoint_eq_false {s : State} {bs : List Byte}
    (h : s.hwBreak .fetch s.pc = false ∨ s.beforeBreakpoint bs = true) : s.takesBreakpoint bs = false := by
  obtain clear | smaller := h
  · exact takesBreakpoint_of_clear clear bs
  · rw [takesBreakpoint, smaller, Bool.not_true, Bool.and_false]

/-- Fetched bytes that decode to an instruction of the table, with no breakpoint taken, run as that instruction. -/
theorem runAt_of_decoded {s : State} {bs rest : List Byte} {i : Instr} (fetch : s.fetch = .bytes bs)
    (clear : s.takesBreakpoint bs = false) (decoded : decode bs = .ok (i, rest)) : runAt s = exec i s := by
  simp only [runAt, fetch, clear, decoded, Bool.false_eq_true, if_false]

/-- Settles O42: the reporter's wait changes neither the fetch nor the breakpoint, so the decoded instruction runs. -/
theorem stepRunsDecoded : Obligations.StepRunsDecoded := by
  intro s bs rest i quiet waits fetch decoded clear
  have run : runAt s.tick = exec i s.tick := runAt_of_decoded (s.fetch_tick.trans fetch)
    ((s.takesBreakpoint_tick bs).trans (State.takesBreakpoint_eq_false clear)) decoded
  exact ⟨(step_of_waits quiet waits).trans run, rfl, s.tick_pendingFaults, State.tick_of_nil⟩

/-- The bytes placed at the pc are those an access there finds (log 32). -/
theorem State.bytesAt_withFetchWord {s : State} (widths : s.cfg.WidthsFit) (w : BitVec 32) :
    (s.withFetchWord 32 w.toNat).bytesAt s.pc 4 = bytesOfWord w := by
  simp only [withFetchWord, tableWord_toNat]
  exact Memory.map_byte_writeBytes _ (addrs_nodup widths s.pc (by decide)) (addrs_length s s.pc 4)

/-- A 4-byte word placed at the pc is what is fetched, where the pc is aligned and the fetch has no access error. -/
theorem State.fetch_withFetchWord {s : State} (widths : s.cfg.WidthsFit) {w : BitVec 32}
    (long : isLong (w.extractLsb' 0 8) = true) (aligned : s.cfg.hasC = true ∨ s.pc.misaligned 4 = false)
    (clear : s.accessFault .fetch s.pc 4 = false) : (s.withFetchWord 32 w.toNat).fetch = .bytes (bytesOfWord w) := by
  have found := bytesAt_withFetchWord widths w
  have first : (s.withFetchWord 32 w.toNat).mem.byte (s.pc.toNat % 2 ^ s.cfg.xlen) = w.extractLsb' 0 8 :=
    (List.cons.inj found).1
  have len : (s.withFetchWord 32 w.toNat).fetchLen = 4 := by
    refine if_neg ?_
    show ¬ (s.cfg.hasC && !isLong ((s.withFetchWord 32 w.toNat).mem.byte (s.pc.toNat % 2 ^ s.cfg.xlen))) = true
    rw [first, long, Bool.not_true, Bool.and_false]
    exact Bool.false_ne_true
  have fresh : (s.addrs s.pc 4).any (fun a => (s.withFetchWord 32 w.toNat).written.contains a) = false := by
    simp +contextual [withFetchWord]
  have even : ¬ (s.pc.misaligned 4 && !s.cfg.hasC) = true := by
    obtain h | h := aligned <;> simp [h]
  rw [fetch, len]
  refine (if_neg even).trans ((if_neg ?_).trans ((if_neg ?_).trans (congrArg Fetched.bytes found)))
  · exact Bool.eq_false_iff.mp clear
  · exact Bool.eq_false_iff.mp fresh

/-- Settles O44: the word is fetched whole, decodes to its instruction, and nothing else happens at reset. -/
theorem instructionRunsAfterReset : Obligations.InstructionRunsAfterReset := by
  intro i wf
  have decoded : decode (bytesOfWord (encode i)) = .ok (i, []) := by
    simpa only [List.append_nil] using decode_encode wf []
  have fetched : (State.reset.withFetchWord 32 (encode i).toNat).fetch = .bytes (bytesOfWord (encode i)) :=
    State.fetch_withFetchWord (by decide) (isLong_of_system (opcodeOf_encode i)) (.inl rfl) rfl
  obtain ⟨run, _, _, idle⟩ := stepRunsDecoded (State.reset.withFetchWord 32 (encode i).toNat) _ _ _ rfl rfl fetched
    decoded (.inl rfl)
  refine ⟨?_, run.trans (congrArg (exec i) (idle rfl))⟩
  rw [decodeTableWord, tableWord_toNat, decoded]

end Sys2Proof.Machine
end

section
/-! PROOF. No step writes the platform (spec 00 rule R7; O48). -/

namespace Sys2Proof.Machine

open Sys2Proof.Safety

theorem BaseEffect.cfg {w : BitVec 32} {s t : State} (eff : BaseEffect w s t) : t.cfg = s.cfg := by
  cases eff with
  | done _ control _ _ => exact control.cfg
  | trap _ _ _ control _ _ _ _ _ eq => exact eq ▸ control.cfg

theorem CsrEffect.cfg {s t : State} {i : Instr} {rd : RegIx} {csr : BitVec 12} {reads writes : Bool}
    {f : Word → Word} (eff : CsrEffect s i rd csr reads writes f t) : t.cfg = s.cfg := by
  cases eff with
  | base _ eq => exact eq ▸ (s.runBase_effect _).cfg
  | illegal _ _ _ eq => exact eq ▸ rfl
  | done c w _ _ write eq =>
    have before : (s.afterRead reads).cfg = s.cfg := by cases reads <;> rfl
    have after : w.cfg = s.cfg := by
      split at write
      · exact (State.csrWrite_frame write).cfg.trans before
      · exact Option.some.inj write ▸ before
    subst eq
    split
    · exact (State.setReg_sameControl w rd _).cfg.trans after
    · exact after

theorem ExecEffect.cfg {s t : State} {i : Instr} (eff : ExecEffect s i t) : t.cfg = s.cfg := by
  cases eff with
  | ecall _ eq => exact eq ▸ rfl
  | ebreak _ eq => exact eq ▸ rfl
  | mretUser _ _ eq => exact eq ▸ rfl
  | mret _ _ _ _ eq => exact eq ▸ rfl
  | csr _ _ _ _ _ _ _ _ _ eff => exact eff.cfg

/-- Settles O48, along the ways a step answers a next state. -/
theorem platformFixed : Obligations.PlatformFixed := by
  intro s t _ h
  cases step_next h with
  | deliver _ eq => exact eq ▸ rfl
  | fetchTrap _ _ _ _ eq => exact eq ▸ rfl
  | breakpoint _ _ _ _ eq => exact eq ▸ rfl
  | instr _ _ _ _ _ _ eff => exact eff.cfg
  | other _ _ _ _ _ eq => exact eq ▸ (s.tick.runOther_effect _).cfg

end Sys2Proof.Machine
end

section
/-! PROOF. Taking an exception and going on, as the statements speak of them (spec 20 rule R64, 60 rules R184, R186). -/

namespace Sys2Proof.Safety

open Sys2Proof.Machine

/-- CSR fields are part of the control state. -/
theorem HasCsrs.of_sameControl {t u : State} {c : CsrFields} (h : HasCsrs t c) (k : SameControl t u) : HasCsrs u c where
  mie := k.mie.trans h.mie
  mpie := k.mpie.trans h.mpie
  mpp := k.mpp.trans h.mpp
  exccode := k.exccode.trans h.exccode
  intFlag := k.intFlag.trans h.intFlag
  mepc := k.mepc.trans h.mepc
  mtval := k.mtval.trans h.mtval
  mtvec := k.mtvec.trans h.mtvec

end Sys2Proof.Safety

namespace Sys2Proof.Machine

open Sys2Proof.Safety

/-- A pc that is the target of a control transfer is one the transfer reaches (20 R64). -/
theorem State.reaches_of_target {s t : State} {v : Word} (h : t.pc = s.target v) : Reaches s t v := by
  refine ⟨fun hasC => ?_, fun noC => ?_, fun even => ?_⟩
  · rw [h, target, if_pos hasC]
  · rw [h, target, if_neg (by simp [noC])]
  · rw [h, target_of_even s fun _ => even]

/-- Going on at an address reaches it. -/
theorem State.goto_reaches {s u : State} (h : u.cfg = s.cfg) (v : Word) : Reaches s (u.goto v) v :=
  reaches_of_target (by rw [goto_pc, target, target, h])

/-- Raising in a state with the same control state and pc is taking the exception (60 R184). -/
theorem State.raise_tookTrap {s u : State} (control : SameControl s u) (pc : u.pc = s.pc) (e : ExcCode) (v : Word) :
    TookTrap s (u.raise e v) e s.pc where
  pc := reaches_of_target (by rw [raise_pc, target, target, control.cfg, control.mtvec])
  code := rfl
  intFlag := rfl
  mepc := pc
  mpie := control.mie
  mie := rfl
  mpp := by rw [raise_mpp, control.cfg, control.priv]
  priv := rfl
  ptyp := control.typ
  typ := by rw [raise_typ, control.cfg]

/-- Raising leaves the context alone (60 R186). -/
theorem State.raise_sameContext (s : State) (e : ExcCode) (v : Word) : SameContext s (s.raise e v) :=
  ⟨fun _ => rfl, ⟨fun _ => rfl, rfl, rfl⟩, rfl, rfl⟩

/-! What an exception that may be raised says of the state (60 R162, R170, R171). -/

theorem State.noC_of_mayRaise {s : State} (h : s.mayRaise .instrAddrMisaligned = true) : s.cfg.hasC = false := by
  simpa [mayRaise] using h

theorem State.user_of_mayRaise {s : State} (h : s.mayRaise .ecallFromU = true) : s.priv = .user := by
  simpa [mayRaise] using h

theorem State.machine_of_mayRaise {s : State} (h : s.mayRaise .ecallFromM = true) : s.priv = .machine := by
  simpa [mayRaise] using h

end Sys2Proof.Machine
end

section
/-! PROOF. What the answers of `BaseStep` do (spec 00 rule R8; O56, O57). -/

namespace Sys2Proof.Machine

open Sys2Proof.Safety

/-- Settles O56, along the ways a base instruction ends. -/
theorem baseInstructionEffects : Obligations.BaseInstructionEffects := by
  intro s w
  cases s.runBase_effect w with
  | done v control data pc =>
    obtain same | ⟨reached, hcfg, hpriv, htyp, hptyp⟩ := control
    · exact .inl (.inl same)
    · simp only [State.reachesCsrs, Bool.and_eq_true, beq_iff_eq] at reached
      obtain ⟨csrWord, machine⟩ := reached
      exact .inl (.inr ⟨machine, csrWord, hcfg, hpriv.trans machine, htyp, hptyp⟩)
  | trap u e v control data pc code illegal sync eq =>
    rw [eq]
    refine .inr ⟨e, State.raise_tookTrap control pc e v, control.mtvec, illegal, ?_, ?_, ?_, fun h5 h7 => ?_⟩
    · rintro rfl; exact State.noC_of_mayRaise code
    · rintro rfl; exact State.user_of_mayRaise code
    · rintro rfl; exact State.machine_of_mayRaise code
    · exact (sync h5 h7).trans (u.raise_sameContext e v)

/-! A next state (00 R8 (a)). -/

@[simp] theorem State.withCsrs_x (s : State) (c : Option CsrFields) : (s.withCsrs c).x = s.x := by cases c <;> rfl

@[simp] theorem State.withCsrs_mem (s : State) (c : Option CsrFields) : (s.withCsrs c).mem = s.mem := by cases c <;> rfl

@[simp] theorem State.withCsrs_written (s : State) (c : Option CsrFields) : (s.withCsrs c).written = s.written := by
  cases c <;> rfl

@[simp] theorem State.poke_x (s : State) (ws : List (Word × Byte)) : (s.poke ws).x = s.x := by
  induction ws generalizing s with
  | nil => rfl
  | cons w ws ih => rw [poke, ih, store_x]

theorem State.takeNext_cfg (s : State) (w : BitVec 32) (n : BaseNext) : (s.takeNext w n).cfg = s.cfg :=
  (s.takeNext_controlKept w n).cfg

/-- A register but `x0` has the value the next state gives it (10 R23). -/
theorem State.takeNext_reg (s : State) (w : BitVec 32) (n : BaseNext) {i : RegIx} (hi : i ≠ 0) :
    (s.takeNext w n).reg i = n.x[i] := by
  have apart : (0 : Nat) ≠ i := fun e => hi (Fin.ext e.symm)
  simp [reg, hi, takeNext, Vector.getElem_set_ne, apart]

/-- The bytes of a next state are written in their order (20 R68). -/
theorem State.takeNext_mem (s : State) (w : BitVec 32) (n : BaseNext) :
    (s.takeNext w n).mem = memoryAfter s n.writes := by
  rw [takeNext, withCsrs_mem, poke_mem]
  rfl

/-- The bytes of a next state are recorded as written (20 R71). -/
theorem State.mem_takeNext_written {s : State} {w : BitVec 32} {n : BaseNext} {a : Nat} :
    a ∈ (s.takeNext w n).written ↔ a ∈ s.written ∨ ∃ p ∈ n.writes, p.1.toNat % 2 ^ s.cfg.xlen = a := by
  rw [takeNext, withCsrs_written, mem_poke_written]
  rfl

/-- The CSR fields of a next state take effect where its instruction reaches them (10 R41). -/
theorem State.takeNext_hasCsrs {s : State} {w : BitVec 32} {n : BaseNext} {c : CsrFields} (named : n.csrs = some c)
    (csrWord : isCsrWord w = true) (machine : s.priv = .machine) : HasCsrs (s.takeNext w n) c := by
  have reached : s.reachesCsrs w = true := by simp [reachesCsrs, csrWord, machine]
  rw [takeNext, if_pos reached, named]
  constructor <;> rfl

/-- When a jump raises code 0 itself (42 R140, decision D27). -/
theorem State.jumpMisaligned_iff {s : State} {t : Word} :
    s.jumpMisaligned t = true ↔ s.cfg.misalignedAtJump = true ∧ s.cfg.hasC = false ∧ t.toNat % 4 ≠ 0 := by
  simp [jumpMisaligned, Word.misaligned, and_assoc]

theorem State.completeBase_of_misaligned {s : State} {n : BaseNext} (h : s.jumpMisaligned n.pc = true) (w : BitVec 32) :
    s.completeBase w n = s.raise .instrAddrMisaligned n.pc := if_pos h

theorem State.completeBase_of_aligned {s : State} {n : BaseNext} (h : ¬ s.jumpMisaligned n.pc = true) (w : BitVec 32) :
    s.completeBase w n = (s.takeNext w n).goto n.pc := if_neg h

/-! An exception (00 R8 (b)). -/

theorem raisedCode_environmentCall (m : Mode) : raisedCode m .environmentCall = ecallCode m := by cases m <;> rfl

/-- An exception of `BaseStep` but for code 2, and for code 0 with "C", is raised with its value, in a state that differs
in the spoilt data alone. -/
theorem State.raiseBase_eq_raise (s : State) (w : BitVec 32) {e : BaseExc} (v : Word) (p : Spoilt)
    (legal : e ≠ .illegalInstruction) (noC : e = .instrAddrMisaligned → s.cfg.hasC = false) :
    ∃ u, SameControl s u ∧ u.pc = s.pc ∧ s.raiseBase w e v p = u.raise (raisedCode s.priv e) v := by
  cases e with
  | illegalInstruction => exact absurd rfl legal
  | instrAddrMisaligned => exact ⟨s, .refl s, rfl, if_neg (by simp [noC rfl])⟩
  | loadAccessFault => exact ⟨s.spoil p, s.spoil_sameControl p, s.spoil_pc p, rfl⟩
  | storeAccessFault => exact ⟨s.spoil p, s.spoil_sameControl p, s.spoil_pc p, rfl⟩
  | environmentCall => exact ⟨s, .refl s, rfl, by rw [raisedCode_environmentCall, raiseBase]⟩
  | instrAccessFault => exact ⟨s, .refl s, rfl, rfl⟩
  | breakpoint => exact ⟨s, .refl s, rfl, rfl⟩
  | loadAddrMisaligned => exact ⟨s, .refl s, rfl, rfl⟩
  | storeAddrMisaligned => exact ⟨s, .refl s, rfl, rfl⟩

/-! A next state with a fault (00 R8 (c)). -/

@[simp] theorem State.post_reg (s : State) (f : PendingFault) (i : RegIx) : (s.post f).reg i = s.reg i := by
  rw [post_eq]
  rfl

@[simp] theorem State.post_mem (s : State) (f : PendingFault) : (s.post f).mem = s.mem := by rw [post_eq]

@[simp] theorem State.setReg_mem (s : State) (i : RegIx) (v : Word) : (s.setReg i v).mem = s.mem := by rw [setReg_eq]

/-- A register that is not spoilt stays as it was. -/
theorem State.spoil_reg {s : State} {p : Spoilt} {i : RegIx} (h : p.reg ≠ some i) : (s.spoil p).reg i = s.reg i := by
  obtain ⟨r, b⟩ := p
  have bytes : (s.spoil ⟨r, b⟩).reg i = (s.spoilReg r).reg i := by cases b <;> rfl
  rw [bytes]
  cases r with
  | none => rfl
  | some rd => exact reg_setReg_ne s _ fun e => h (congrArg some e.symm)

/-- A byte that is not spoilt stays as it was. -/
theorem State.spoil_mem_read {s : State} {p : Spoilt} {b : Nat}
    (h : ∀ q, p.bytes = some q → b ∉ s.addrs q.1 (widthBytes q.2)) : (s.spoil p).mem.read b = s.mem.read b := by
  obtain ⟨r, q⟩ := p
  have same : (s.spoilReg r).mem = s.mem := by
    cases r with
    | none => rfl
    | some rd => exact setReg_mem s _ _
  cases q with
  | none => exact congrArg (Memory.read · b) same
  | some q =>
    have outside : b ∉ (s.spoilReg r).addrs q.1 (widthBytes q.2) := (s.spoilReg_sameControl r).addrs _ _ ▸ h q rfl
    exact (Memory.read_writeBytes_ne _ _ _ outside).trans (congrArg (Memory.read · b) same)

/-- A fault of an access that suffers an access error is posted, on top of the next state (10 R37, 60 R175). -/
theorem State.applyAnswer_nextPost_of_error {s : State} {n : BaseNext} {c : AsyncCode} {a : Word}
    (error : ErrorAt s c a) (aligned : ¬ s.jumpMisaligned n.pc = true) (w : BitVec 32) (p : Spoilt) :
    s.applyAnswer w (.nextPost n c a p) = (((s.takeNext w n).spoil p).post ⟨c, a⟩).goto n.pc :=
  if_pos (by simp [suffersError_iff.mpr error, aligned])

/-- Any other fault, or one beside a jump that takes code 0, leaves the next state alone (60 R174; log 43). -/
theorem State.applyAnswer_nextPost_of_not_posted {s : State} {n : BaseNext} {c : AsyncCode} {a : Word}
    (h : ¬ ErrorAt s c a ∨ s.jumpMisaligned n.pc = true) (w : BitVec 32) (p : Spoilt) :
    s.applyAnswer w (.nextPost n c a p) = s.applyAnswer w (.next n) := by
  refine if_neg ?_
  obtain none | misaligned := h
  · simp [Bool.eq_false_iff.mpr (mt suffersError_iff.mp none)]
  · simp [misaligned]

/-- Settles O57, one clause for each answer. -/
theorem baseAnswerTakesEffect : Obligations.BaseAnswerTakesEffect := by
  intro s w
  refine ⟨rfl, fun n aligned => ?_, fun n misaligned => ?_, fun e v p legal noC => ?_, fun _ _ => rfl, fun n c a p h => ?_,
    fun n c a p error aligned => ?_, fun _ => rfl, fun _ => rfl, fun op hasA => if_pos hasA⟩
  · rw [← State.jumpMisaligned_iff] at aligned
    have eq : s.applyAnswer w (.next n) = (s.takeNext w n).goto n.pc := State.completeBase_of_aligned aligned w
    rw [eq]
    exact ⟨State.goto_reaches (s.takeNext_cfg w n) n.pc, fun _ hi => s.takeNext_reg w n hi, s.takeNext_mem w n,
      fun _ => State.mem_takeNext_written, s.takeNext_pending w n,
      fun c named csrWord machine =>
        (State.takeNext_hasCsrs named csrWord machine).of_sameControl (State.goto_sameControl _ _)⟩
  · exact State.completeBase_of_misaligned (State.jumpMisaligned_iff.mpr misaligned) w
  · obtain ⟨u, control, pc, eq⟩ := s.raiseBase_eq_raise w v p legal noC
    rw [State.applyAnswer, eq]
    exact ⟨State.raise_tookTrap control pc _ v, rfl⟩
  · exact State.applyAnswer_nextPost_of_not_posted (h.imp_right State.jumpMisaligned_iff.mpr) w p
  · rw [← State.jumpMisaligned_iff] at aligned
    have posted : SameControl (s.takeNext w n) (((s.takeNext w n).spoil p).post ⟨c, a⟩) :=
      (State.spoil_sameControl _ p).trans (State.post_sameControl _ _)
    have cfg := posted.cfg.trans (s.takeNext_cfg w n)
    rw [State.applyAnswer_nextPost_of_error error aligned]
    refine ⟨State.goto_reaches cfg n.pc, fun f => ?_, fun i hi unspoilt => ?_, fun b outside => ?_,
      fun f named csrWord machine => (State.takeNext_hasCsrs named csrWord machine).of_sameControl
        (posted.trans (State.goto_sameControl _ _))⟩
    · have before : ((s.takeNext w n).spoil p).pendingFaults = s.pendingFaults := by simp [State.pendingFaults]
      exact before ▸ State.mem_post
    · calc (((s.takeNext w n).spoil p).post ⟨c, a⟩).reg i
        _ = ((s.takeNext w n).spoil p).reg i := State.post_reg _ _ i
        _ = (s.takeNext w n).reg i := State.spoil_reg unspoilt
        _ = n.x[i] := s.takeNext_reg w n hi
    · have outside' : ∀ q, p.bytes = some q → b ∉ (s.takeNext w n).addrs q.1 (widthBytes q.2) := by
        simpa only [State.addrs, s.takeNext_cfg w n] using outside
      rw [State.goto_mem, State.post_mem, State.spoil_mem_read outside', s.takeNext_mem w n]

end Sys2Proof.Machine
end

section
/-! PROOF. The layout of the machine at reset (spec 10 rules R22 to R34; O54). -/

namespace Sys2Proof

/-- The addresses of the six CSRs allow reading and writing in Machine Mode and nothing in User Mode (10 R24, R35). -/
theorem Config.layout_rights : ∀ a ∈ Config.layout.addresses, Config.shipped.privU.toNat < (a.extractLsb' 8 2).toNat
    ∧ (a.extractLsb' 8 2).toNat ≤ Config.shipped.privM.toNat ∧ a.extractLsb' 10 2 ≠ 3#2 := by
  simp [CsrLayout.addresses, Config.layout, Config.shipped, PRIV_BITS]

/-- The platform at reset is one the rules allow. -/
theorem Config.shipped_valid : Config.shipped.Valid where
  widths := by decide
  fields := by decide
  modes := by decide
  addresses := by decide
  rights := Config.layout_rights

/-- Settles O54: each value is computed from the platform at reset. -/
theorem layoutOfTheSpec : Obligations.LayoutOfTheSpec :=
  ⟨Config.shipped_valid, rfl, rfl, rfl, rfl, rfl, rfl, rfl, rfl, rfl, rfl, rfl, rfl, rfl, by decide, by decide, by decide,
    by decide, by decide, by decide, by decide⟩

end Sys2Proof
end

section
/-! PROOF. Only a CSR instruction in Machine Mode writes `mtvec` (spec 10 rules R33, R35, R41, 60 rule R186; O53). -/

namespace Sys2Proof.Machine

open Sys2Proof.Safety

/-- A base instruction that changes `mtvec` is a CSR access in Machine Mode (10 R35, R41). -/
theorem BaseEffect.reachesCsrs_of_mtvec_ne {w : BitVec 32} {s t : State} (eff : BaseEffect w s t)
    (changed : t.mtvec ≠ s.mtvec) : s.reachesCsrs w = true := by
  cases eff with
  | done _ control _ _ =>
    obtain same | ⟨reached, _⟩ := control
    · exact absurd same.mtvec changed
    · exact reached
  | trap u _ _ control _ _ _ _ _ eq => exact absurd (eq ▸ control.mtvec) changed

/-- A word that reaches the CSRs is a CSR access, in Machine Mode. -/
theorem State.reachesCsrs_iff {s : State} {w : BitVec 32} :
    s.reachesCsrs w = true ↔ isCsrWord w = true ∧ s.priv = .machine := by
  simp [reachesCsrs]

/-- Only a write of `mtvec` changes it (41 R129). -/
theorem State.csrWrite_mtvec {s t : State} {c : Csr} {v : Word} (h : s.csrWrite c v = some t) (other : c ≠ .mtvec) :
    t.mtvec = s.mtvec := by
  cases c with
  | mtvec => exact absurd rfl other
  | msubm => cases h
  | mstatus => cases h; rfl
  | mepc => cases h; rfl
  | mcause => cases h; rfl
  | mtval => cases h; rfl

/-- The CSR at an address is `mtvec` only at the address of `mtvec` (10 R24). -/
theorem eq_mtvec_of_csrAt {l : CsrLayout} {a : BitVec 12} (h : csrAt l a = some .mtvec) : a = l.mtvec := by
  by_contra other
  simp only [csrAt, if_neg other] at h
  repeat' split at h
  all_goals cases h

/-- A CSR access that changes `mtvec` is made in Machine Mode and writes it, or is `BaseStep`'s (41 R120). -/
theorem CsrEffect.of_mtvec_ne {s t : State} {i : Instr} {rd : RegIx} {csr : BitVec 12} {reads writes : Bool}
    {f : Word → Word} (eff : CsrEffect s i rd csr reads writes f t) (valid : s.cfg.Valid)
    (changed : t.mtvec ≠ s.mtvec) :
    s.priv = .machine ∧ ((csr = s.cfg.layout.mtvec ∧ writes = true) ∨ csrAt s.cfg.layout csr = none) := by
  cases eff with
  | base absent eq =>
    subst eq
    exact ⟨(State.reachesCsrs_iff.mp ((s.runBase_effect _).reachesCsrs_of_mtvec_ne changed)).2, .inr absent⟩
  | illegal _ _ _ eq => exact absurd (eq ▸ rfl) changed
  | done c w at' allowed write eq =>
    have before : (s.afterRead reads).mtvec = s.mtvec := by cases reads <;> rfl
    have after : t.mtvec = w.mtvec := by
      subst eq
      split
      exacts [(State.setReg_sameControl w rd _).mtvec, rfl]
    have written : w.mtvec ≠ s.mtvec := after ▸ changed
    refine ⟨machine_of_allowed valid at' allowed, .inl ?_⟩
    cases writes with
    | false => exact absurd (Option.some.inj write ▸ before) written
    | true =>
      have isMtvec : c = .mtvec := by
        by_contra other
        exact written ((State.csrWrite_mtvec write other).trans before)
      exact ⟨eq_mtvec_of_csrAt (isMtvec ▸ at'), rfl⟩

/-- Settles O53: of the ways a step ends only a CSR access of the table changes `mtvec`, since a fetched word that is no
row of the table is no CSR access. -/
theorem mtvecWrittenOnlyBySoftware : Obligations.MtvecWrittenOnlyBySoftware := by
  intro s t valid _ h changed
  cases step_next h with
  | deliver _ eq => exact absurd (eq ▸ rfl) changed
  | fetchTrap _ _ _ _ eq => exact absurd (eq ▸ rfl) changed
  | breakpoint _ _ _ _ eq => exact absurd (eq ▸ rfl) changed
  | other bs _ _ fetch decoded eq =>
    subst eq
    have reached := (s.tick.runOther_effect (wordOfBytes bs)).reachesCsrs_of_mtvec_ne changed
    have noCsr := State.isCsrWord_of_fetch fetch decoded
    exact absurd (State.reachesCsrs_iff.mp reached).1 (by simp [noCsr])
  | instr bs rest i _ fetch decoded eff =>
    cases eff with
    | ecall _ eq => exact absurd (eq ▸ rfl) changed
    | ebreak _ eq => exact absurd (eq ▸ rfl) changed
    | mretUser _ _ eq => exact absurd (eq ▸ rfl) changed
    | mret _ _ _ _ eq => exact absurd (eq ▸ rfl) changed
    | csr _ csr _ writes _ operand _ writing _ eff =>
      obtain ⟨machine, how⟩ := eff.of_mtvec_ne (s := s.tick) valid changed
      exact ⟨machine, bs, rest, i, csr, fetch, decoded, operand, how.imp_left (.imp_right writing.trans)⟩

end Sys2Proof.Machine
end

section
/-! PROOF. No instruction reads `pending_faults` (spec 10 rule R37, 00 rule R8; O58): every operation takes two states
that differ only in what is pending, and in the reporter's counter, to two such states. -/

namespace Sys2Proof.Safety

open Sys2Proof.Machine

/-- `t` is `s` but for what is pending and the reporter's counter. -/
def UpToPending (s t : State) : Prop := ∃ p r, t = { s with pending := p, reporterDraws := r }

theorem UpToPending.symm {s t : State} (h : UpToPending s t) : UpToPending t s := by
  obtain ⟨p, r, rfl⟩ := h
  exact ⟨s.pending, s.reporterDraws, rfl⟩

theorem UpToPending.trans {s t u : State} (h : UpToPending s t) (k : UpToPending t u) : UpToPending s u := by
  obtain ⟨p, r, rfl⟩ := h
  obtain ⟨q, n, rfl⟩ := k
  exact ⟨q, n, rfl⟩

theorem UpToPending.sameControl {s t : State} (h : UpToPending s t) : SameControl s t := by
  obtain ⟨p, r, rfl⟩ := h
  constructor <;> rfl

theorem UpToPending.pc {s t : State} (h : UpToPending s t) : t.pc = s.pc := by
  obtain ⟨p, r, rfl⟩ := h
  rfl

theorem UpToPending.reg {s t : State} (h : UpToPending s t) (i : RegIx) : t.reg i = s.reg i := by
  obtain ⟨p, r, rfl⟩ := h
  rfl

theorem UpToPending.draw {s t : State} (h : UpToPending s t) (k : Nat) : t.draw k = s.draw k := by
  obtain ⟨p, r, rfl⟩ := h
  rfl

/-- A choice that does not read what is pending. -/
theorem UpToPending.ite {c : Prop} [Decidable c] {s s' t t' : State} (yes : UpToPending s t)
    (no : UpToPending s' t') : UpToPending (if c then s else s') (if c then t else t') := by
  split
  exacts [yes, no]

/-- Where `o` is a next state, so is `o'`, but for what is pending. -/
def Mirrors (o o' : Host.Outcome State Fault Refusal) : Prop :=
  ∀ t, o = .next t → ∃ u, o' = .next u ∧ UpToPending t u

theorem UpToPending.mirrors {s t : State} (h : UpToPending s t) : Mirrors (.next s) (.next t) :=
  fun _ e => ⟨t, rfl, next_inj e ▸ h⟩

theorem Mirrors.refused (r : Refusal) (o : Host.Outcome State Fault Refusal) : Mirrors (.refused r) o :=
  fun _ e => nomatch e

theorem Mirrors.fault (r : Fault) (o : Host.Outcome State Fault Refusal) : Mirrors (.fault r) o :=
  fun _ e => nomatch e

theorem Mirrors.ite {c : Prop} [Decidable c] {o o' q q' : Host.Outcome State Fault Refusal} (yes : Mirrors o q)
    (no : Mirrors o' q') : Mirrors (if c then o else o') (if c then q else q') := by
  split
  exacts [yes, no]

end Sys2Proof.Safety

namespace Sys2Proof.Machine

open Sys2Proof.Safety

section Congruence

variable {s t : State}

/-! Operations that write fields of the state. -/

theorem State.drew_upToPending (h : UpToPending s t) (k : Nat) : UpToPending (s.drew k) (t.drew k) := by
  obtain ⟨p, r, rfl⟩ := h
  exact ⟨p, r, rfl⟩

theorem State.countBase_upToPending (h : UpToPending s t) : UpToPending s.countBase t.countBase := by
  obtain ⟨p, r, rfl⟩ := h
  exact ⟨p, r, rfl⟩

theorem State.goto_upToPending (h : UpToPending s t) (v : Word) : UpToPending (s.goto v) (t.goto v) := by
  obtain ⟨p, r, rfl⟩ := h
  exact ⟨p, r, rfl⟩

theorem State.withRegs_upToPending (h : UpToPending s t) (x : Vector Word 32) :
    UpToPending (s.withRegs x) (t.withRegs x) := by
  obtain ⟨p, r, rfl⟩ := h
  exact ⟨p, r, rfl⟩

theorem State.withCsrs_upToPending (h : UpToPending s t) (c : Option CsrFields) :
    UpToPending (s.withCsrs c) (t.withCsrs c) := by
  obtain ⟨p, r, rfl⟩ := h
  cases c
  exacts [⟨p, r, rfl⟩, ⟨p, r, rfl⟩]

theorem State.store_upToPending (h : UpToPending s t) (a : Word) (n : Nat) (v : BitVec 64) :
    UpToPending (s.store a n v) (t.store a n v) := by
  obtain ⟨p, r, rfl⟩ := h
  exact ⟨p, r, rfl⟩

theorem State.poke_upToPending (h : UpToPending s t) (ws : List (Word × Byte)) :
    UpToPending (s.poke ws) (t.poke ws) := by
  induction ws generalizing s t with
  | nil => exact h
  | cons w ws ih => exact ih (store_upToPending h _ _ _)

theorem State.setReg_upToPending (h : UpToPending s t) (i : RegIx) (v : Word) :
    UpToPending (s.setReg i v) (t.setReg i v) := by
  obtain ⟨p, r, rfl⟩ := h
  exact .ite ⟨p, r, rfl⟩ ⟨p, r, rfl⟩

theorem State.raise_upToPending (h : UpToPending s t) (e : ExcCode) (v : Word) :
    UpToPending (s.raise e v) (t.raise e v) := by
  obtain ⟨p, r, rfl⟩ := h
  exact ⟨p, r, rfl⟩

theorem State.raiseDraw_upToPending (h : UpToPending s t) (e : ExcCode) :
    UpToPending (s.raiseDraw e) (t.raiseDraw e) := by
  obtain ⟨p, r, rfl⟩ := h
  exact ⟨p, r, rfl⟩

theorem State.trapReturn_upToPending (h : UpToPending s t) (m : Mode) :
    UpToPending (s.trapReturn m) (t.trapReturn m) := by
  obtain ⟨p, r, rfl⟩ := h
  exact ⟨p, r, rfl⟩

theorem State.tick_upToPending (h : UpToPending s t) : UpToPending s.tick t.tick := by
  obtain ⟨p, r, rfl⟩ := h
  exact ⟨_, r, rfl⟩

/-- Posting changes nothing else, so it may add a fault to one set and find it in the other. -/
theorem State.post_upToPending (h : UpToPending s t) (f : PendingFault) : UpToPending (s.post f) (t.post f) := by
  have posted : ∀ u : State, UpToPending u (u.post f) := fun u => ⟨_, _, u.post_eq f⟩
  exact ((posted s).symm.trans h).trans (posted t)

theorem State.spoil_upToPending (h : UpToPending s t) (p : Spoilt) : UpToPending (s.spoil p) (t.spoil p) := by
  have reg : UpToPending (s.spoilReg p.reg) (t.spoilReg p.reg) := by
    cases p.reg with
    | none => exact h
    | some rd =>
      obtain ⟨q, r, rfl⟩ := h
      exact setReg_upToPending ⟨q, r, rfl⟩ rd _
  refine drew_upToPending ?_ 2
  cases p.bytes with
  | none => exact reg
  | some aw =>
    obtain ⟨q, r, eq⟩ := reg
    rw [eq]
    exact store_upToPending ⟨q, r, rfl⟩ _ _ _

/-! The base set. -/

theorem State.accessError_upToPending (h : UpToPending s t) (c : AsyncCode) (a : Word) (p : Spoilt) (nextPc : Word) :
    UpToPending (s.accessError c a p nextPc) (t.accessError c a p nextPc) := by
  have spoilt := spoil_upToPending (drew_upToPending h 1) p
  obtain ⟨q, r, rfl⟩ := h
  exact .ite (raise_upToPending spoilt _ _) (goto_upToPending (post_upToPending spoilt _) _)

theorem State.loadClass_upToPending (h : UpToPending s t) (op : LoadOp) :
    UpToPending (s.loadClass op) (t.loadClass op) := by
  have error := accessError_upToPending h .load op.addr ⟨some op.rd, none⟩ op.nextPc
  have trap := raise_upToPending h
  have read := setReg_upToPending h op.rd (op.result (s.load op.addr (widthBytes op.width)))
  obtain ⟨p, r, rfl⟩ := h
  exact .ite (trap _ _) (.ite (trap _ _) (.ite error (goto_upToPending read _)))

theorem State.storeClass_upToPending (h : UpToPending s t) (op : StoreOp) :
    UpToPending (s.storeClass op) (t.storeClass op) := by
  have error := accessError_upToPending h .store op.addr ⟨none, some (op.addr, op.width)⟩ op.nextPc
  have trap := raise_upToPending h
  have write := store_upToPending h op.addr (widthBytes op.width) op.value
  obtain ⟨p, r, rfl⟩ := h
  exact .ite (trap _ _) (.ite (trap _ _) (.ite error (goto_upToPending write _)))

theorem State.amoClass_upToPending (h : UpToPending s t) (op : AmoOp) :
    UpToPending (s.amoClass op) (t.amoClass op) := by
  have error := accessError_upToPending h .store op.addr ⟨some op.rd, some (op.addr, op.width)⟩ op.nextPc
  have trap := raise_upToPending h
  have read := setReg_upToPending h op.rd (op.result (s.load op.addr (widthBytes op.width)))
  have write := store_upToPending read op.addr (widthBytes op.width) (op.stored (s.load op.addr (widthBytes op.width)))
  obtain ⟨p, r, rfl⟩ := h
  exact .ite (trap _ _) (.ite (trap _ _) (.ite error (goto_upToPending write _)))

theorem State.takeNext_upToPending (h : UpToPending s t) (w : BitVec 32) (n : BaseNext) :
    UpToPending (s.takeNext w n) (t.takeNext w n) := by
  have written := poke_upToPending (withRegs_upToPending h n.x) n.writes
  obtain ⟨p, r, rfl⟩ := h
  exact withCsrs_upToPending written _

theorem State.completeBase_upToPending (h : UpToPending s t) (w : BitVec 32) (n : BaseNext) :
    UpToPending (s.completeBase w n) (t.completeBase w n) := by
  have trap := raise_upToPending h .instrAddrMisaligned n.pc
  have next := goto_upToPending (takeNext_upToPending h w n) n.pc
  obtain ⟨p, r, rfl⟩ := h
  exact .ite trap next

theorem State.raiseBase_upToPending (h : UpToPending s t) (w : BitVec 32) (e : BaseExc) (v : Word) (p : Spoilt) :
    UpToPending (s.raiseBase w e v p) (t.raiseBase w e v p) := by
  have trap := raise_upToPending h
  have spoilt := raise_upToPending (spoil_upToPending h p)
  obtain ⟨q, r, rfl⟩ := h
  cases e with
  | instrAddrMisaligned => exact .ite (trap _ _) (trap _ _)
  | instrAccessFault => exact trap _ _
  | illegalInstruction => exact trap _ _
  | breakpoint => exact trap _ _
  | loadAddrMisaligned => exact trap _ _
  | loadAccessFault => exact spoilt _ _
  | storeAddrMisaligned => exact trap _ _
  | storeAccessFault => exact spoilt _ _
  | environmentCall => exact trap _ _

theorem State.applyAnswer_upToPending (h : UpToPending s t) (w : BitVec 32) (a : BaseAnswer) :
    UpToPending (s.applyAnswer w a) (t.applyAnswer w a) := by
  cases a with
  | next n => exact completeBase_upToPending h w n
  | raise e v p => exact raiseBase_upToPending h w e v p
  | nextPost n c a p =>
    have posted := goto_upToPending (post_upToPending (spoil_upToPending (takeNext_upToPending h w n) p) ⟨c, a⟩) n.pc
    have complete := completeBase_upToPending h w n
    obtain ⟨q, r, rfl⟩ := h
    exact .ite posted complete
  | load op => exact loadClass_upToPending h op
  | store op => exact storeClass_upToPending h op
  | amo op =>
    have access := amoClass_upToPending h op
    have trap := raise_upToPending h .illegalInstruction (zext w)
    obtain ⟨q, r, rfl⟩ := h
    exact .ite access trap

/-- `BaseStep` is not given what is pending, so it answers the same (00 R8). -/
theorem State.baseAnswer_upToPending (h : UpToPending s t) (w : BitVec 32) : t.baseAnswer w = s.baseAnswer w := by
  obtain ⟨p, r, rfl⟩ := h
  rfl

theorem State.runBase_upToPending (h : UpToPending s t) (w : BitVec 32) : UpToPending (s.runBase w) (t.runBase w) := by
  rw [runBase, runBase, baseAnswer_upToPending h]
  exact applyAnswer_upToPending (countBase_upToPending h) w _

theorem State.runOther_upToPending (h : UpToPending s t) (w : BitVec 32) :
    UpToPending (s.runOther w) (t.runOther w) := by
  have trap := raise_upToPending h .illegalInstruction (zext w)
  have base := runBase_upToPending h w
  obtain ⟨p, r, rfl⟩ := h
  exact .ite trap base

theorem stepOther_mirrors (h : UpToPending s t) (w : BitVec 32) : Mirrors (stepOther w s) (stepOther w t) := by
  have other := (State.runOther_upToPending h w).mirrors
  obtain ⟨p, r, rfl⟩ := h
  exact .ite (.refused _ _) other

/-! The instructions of the table. -/

theorem State.csrWrite_upToPending (h : UpToPending s t) {c : Csr} {v : Word} {s' : State}
    (write : s.csrWrite c v = some s') : ∃ t', t.csrWrite c v = some t' ∧ UpToPending s' t' := by
  obtain ⟨p, r, rfl⟩ := h
  cases c with
  | msubm => cases write
  | mstatus => cases write; exact ⟨_, rfl, p, r, rfl⟩
  | mtvec => cases write; exact ⟨_, rfl, p, r, rfl⟩
  | mepc => cases write; exact ⟨_, rfl, p, r, rfl⟩
  | mcause => cases write; exact ⟨_, rfl, p, r, rfl⟩
  | mtval => cases write; exact ⟨_, rfl, p, r, rfl⟩

/-- What a CSR access does last: `rd` receives the value read, and the next instruction follows. -/
theorem State.finish_upToPending (h : UpToPending s t) (reads : Bool) (rd : RegIx) (v nextPc : Word) :
    UpToPending { (if reads then s.setReg rd v else s) with pc := nextPc }
      { (if reads then t.setReg rd v else t) with pc := nextPc } := by
  have received : UpToPending (if reads then s.setReg rd v else s) (if reads then t.setReg rd v else t) :=
    .ite (setReg_upToPending h rd v) h
  obtain ⟨p, r, eq⟩ := received
  rw [eq]
  exact ⟨p, r, rfl⟩

theorem State.csrValue_upToPending (h : UpToPending s t) (c : Csr) (d : Word) : t.csrValue c d = s.csrValue c d := by
  obtain ⟨p, r, rfl⟩ := h
  rfl

theorem State.csrAccess_mirrors (h : UpToPending s t) (i : Instr) (rd : RegIx) (csr : BitVec 12)
    (reads writes : Bool) (f : Word → Word) :
    Mirrors (s.csrAccess i rd csr reads writes f) (t.csrAccess i rd csr reads writes f) := by
  have read : UpToPending (if reads then s.drew 1 else s) (if reads then t.drew 1 else t) :=
    .ite (drew_upToPending h 1) h
  simp only [csrAccess, h.sameControl.cfg, h.sameControl.priv, nextPc, h.pc, h.draw, csrValue_upToPending h]
  cases csrAt s.cfg.layout csr with
  | none => exact (runBase_upToPending h _).mirrors
  | some c =>
    refine .ite ?_ (raise_upToPending h _ _).mirrors
    cases writes with
    | false => exact (finish_upToPending read reads rd _ _).mirrors
    | true =>
      cases write : (if reads then s.drew 1 else s).csrWrite c (f (s.csrValue c (s.draw 0))) with
      | none =>
        simp only [if_true]
        exact .refused _ _
      | some w =>
        obtain ⟨w', write', rel⟩ := csrWrite_upToPending read write
        simp only [if_true, write']
        exact (finish_upToPending rel reads rd _ _).mirrors

theorem execMret_mirrors (h : UpToPending s t) : Mirrors (execMret s) (execMret t) := by
  simp only [execMret, h.sameControl.priv, h.sameControl.cfg, h.sameControl.mpp]
  cases s.priv with
  | user => exact (State.raise_upToPending h _ _).mirrors
  | machine =>
    cases configuredMode s.cfg s.mpp with
    | none => exact .fault _ _
    | some m => exact (State.trapReturn_upToPending h m).mirrors

theorem exec_mirrors (h : UpToPending s t) (i : Instr) : Mirrors (exec i s) (exec i t) := by
  cases i with
  | ecall =>
    simp only [exec, execEcall, h.sameControl.priv]
    exact (State.raiseDraw_upToPending h _).mirrors
  | ebreak => exact (State.raiseDraw_upToPending h _).mirrors
  | mret => exact execMret_mirrors h
  | csrrw rd csr rs1 =>
    simp only [exec, execCsrrw, h.reg]
    exact State.csrAccess_mirrors h _ _ _ _ _ _
  | csrrs rd csr rs1 =>
    simp only [exec, execCsrrs, h.reg]
    exact State.csrAccess_mirrors h _ _ _ _ _ _
  | csrrc rd csr rs1 =>
    simp only [exec, execCsrrc, h.reg]
    exact State.csrAccess_mirrors h _ _ _ _ _ _
  | csrrwi rd csr uimm =>
    simp only [exec, execCsrrwi]
    exact State.csrAccess_mirrors h _ _ _ _ _ _
  | csrrsi rd csr uimm =>
    simp only [exec, execCsrrsi]
    exact State.csrAccess_mirrors h _ _ _ _ _ _
  | csrrci rd csr uimm =>
    simp only [exec, execCsrrci]
    exact State.csrAccess_mirrors h _ _ _ _ _ _

/-! The step. -/

theorem State.fetch_upToPending (h : UpToPending s t) : t.fetch = s.fetch := by
  obtain ⟨p, r, rfl⟩ := h
  rfl

theorem State.takesBreakpoint_upToPending (h : UpToPending s t) (bs : List Byte) :
    t.takesBreakpoint bs = s.takesBreakpoint bs := by
  obtain ⟨p, r, rfl⟩ := h
  rfl

theorem runAt_mirrors (h : UpToPending s t) : Mirrors (runAt s) (runAt t) := by
  unfold runAt
  rw [State.fetch_upToPending h]
  cases s.fetch with
  | trap e v => exact (State.raise_upToPending h e v).mirrors
  | modified => exact .refused _ _
  | bytes bs =>
    simp only [State.takesBreakpoint_upToPending h bs, h.pc]
    refine .ite (State.raise_upToPending h _ _).mirrors ?_
    cases decode bs with
    | ok found => exact exec_mirrors h found.1
    | error _ => exact stepOther_mirrors h _

end Congruence

/-- Settles O58: where the reporter waits in both states, the step runs the instruction at the pc in both. -/
theorem pendingFaultsAreInvisible : Obligations.PendingFaultsAreInvisible := by
  intro s t p r quiet waits waits' h
  have start : UpToPending s { s with pending := p, reporterDraws := r } := ⟨p, r, rfl⟩
  rw [step_of_waits quiet waits] at h
  obtain ⟨u, run, p', r', rfl⟩ := runAt_mirrors (State.tick_upToPending start) t h
  exact ⟨p', r', (step_of_waits (s := { s with pending := p, reporterDraws := r }) quiet waits').trans run⟩

end Sys2Proof.Machine
end

section
/-! PROOF. What is pending after a post, a step and a run (spec 10 rule R37, 60 rule R175; O35). -/

namespace Sys2Proof.Machine

open Sys2Proof.Safety

/-- Whether an access suffers an access error is a matter of the platform alone (20 R63). -/
theorem errorAt_congr {s t : State} (cfg : t.cfg = s.cfg) (c : AsyncCode) (a : Word) :
    ErrorAt t c a ↔ ErrorAt s c a := by
  simp only [ErrorAt, State.hwBreak, State.accessFault, cfg]

/-- What a program can see does not hold what is pending (00 R8, 10 R37). -/
@[simp] theorem State.post_arch (s : State) (f : PendingFault) : (s.post f).arch = s.arch := by
  rw [post_eq]
  rfl

/-- A fault that is pending after an instruction was pending before or is of an access that suffers an access error. -/
theorem State.Posts.pending_or_errorAt {s : State} {q : List PostedFault} (h : s.Posts q) {f : PendingFault}
    (mem : f ∈ q.map (·.fault)) : f ∈ s.pendingFaults ∨ ErrorAt s f.code f.addr := by
  obtain rfl | ⟨g, error, rfl⟩ := h
  · exact .inl mem
  · rw [List.map_append, List.mem_append, List.map_singleton, List.mem_singleton] at mem
    obtain old | rfl := mem
    exacts [.inl old, .inr (suffersError_iff.mp error)]

/-- The same of a step (60 R175). -/
theorem pending_or_errorAt_of_step {s t : State} (h : step s = .next t) {f : PendingFault}
    (mem : f ∈ t.pendingFaults) : f ∈ s.pendingFaults ∨ ErrorAt s f.code f.addr := by
  cases reports : s.reports with
  | false =>
    have new := (step_pending h reports).pending_or_errorAt mem
    rwa [State.tick_pendingFaults, errorAt_congr s.tick_cfg] at new
  | true =>
    have eq : step s = .next s.deliver := by
      have quiet : s.interrupted = false := noInterrupts_of_next h
      simp [step, quiet, reports]
    obtain rfl := next_inj (h.symm.trans eq)
    exact .inl (State.mem_unpost.mp mem).1

/-- Where no access can suffer an access error, a run that starts with nothing pending never has anything pending (95
I3). -/
theorem pendingFaults_eq_nil_of_runs {n : Nat} {s t : State} (clean : ∀ c a, ¬ ErrorAt s c a)
    (start : s.pendingFaults = []) (run : Runs n s t) : t.pendingFaults = [] := by
  induction n generalizing s with
  | zero => exact runs_zero.mp run ▸ start
  | succ n ih =>
    obtain ⟨u, head, tail⟩ := runs_succ.mp run
    have cfg : u.cfg = s.cfg := platformFixed s u (noInterrupts_of_next head) head
    refine ih (fun c a => mt (errorAt_congr cfg c a).mp (clean c a)) ?_ tail
    refine List.eq_nil_iff_forall_not_mem.mpr fun f mem => ?_
    obtain old | error := pending_or_errorAt_of_step head mem
    · exact List.not_mem_nil (start ▸ old)
    · exact clean _ _ error

/-- Settles O35: the set law of a post, what a step can add, and its induction over a run. -/
theorem postAddsOneFault : Obligations.PostAddsOneFault := by
  refine ⟨fun s f => ?_, fun s t _ h f => pending_or_errorAt_of_step h, fun n s t clean start _ run => ?_⟩
  · have control := s.post_sameControl f
    exact ⟨fun _ => State.mem_post, State.post_nodup, s.post_arch f, control.priv, control.cfg⟩
  · have empty := pendingFaults_eq_nil_of_runs clean start run
    exact ⟨empty, Bool.eq_false_iff.mpr fun reports => State.pendingFaults_ne_nil_of_reports reports empty⟩

end Sys2Proof.Machine
end

section
/-! PROOF. The state at reset, and the general registers (spec 10 rules R22, R23, R45; O1, O2, O8). -/

namespace Sys2Proof.Machine

open Sys2Proof.Safety

/-- Every value at reset has its width (00 R7, 10 R45; log 4). -/
theorem State.reset_wordsFit : WordsFit State.reset where
  pc := Word.zero_fits _
  x i := by simp [reset, Config.resetWord]
  typ := Word.zero_fits _
  ptyp := Word.zero_fits _
  exccode := Word.zero_fits _
  mepc := Word.zero_fits _
  mtval := Word.zero_fits _
  mtvec := Word.zero_fits _
  mem := fun _ h => absurd h List.not_mem_nil
  pending := fun _ h => absurd h List.not_mem_nil

/-- Settles O1: the two reset values of 10 R45. -/
theorem resetInMachineMode : Obligations.ResetInMachineMode := ⟨rfl, rfl⟩

/-- Settles O2: memory and pending faults are empty, the platform is the shipped one, and every word is zero. -/
theorem resetHasInvariant : Obligations.ResetHasInvariant where
  memory := State.reset_mem_wf
  x0 := rfl
  mode := fun _ => rfl
  pc := fun _ => rfl
  faults := List.nodup_nil
  platform := Config.shipped_valid
  words := State.reset_wordsFit

/-- Settles O8, from the rules of register reads and writes. -/
theorem generalRegisters : Obligations.GeneralRegisters := fun s _ _ v =>
  ⟨s.reg_zero, s.setReg_zero v, s.reg_setReg_same v, s.reg_setReg_ne v⟩

end Sys2Proof.Machine
end

section
/-! PROOF. Every step keeps the invariant of the machine (spec 10 rules R22 to R24, R37, 20 rules R60, R64; O47). -/

namespace Sys2Proof

/-- The immediate of a word is below 32, so what a word decodes to is well formed (30 R82, R89). -/
theorem wellFormed_of_decodeWord {w : BitVec 32} {i : Instr} (h : decodeWord w = some i) : i.WellFormed = true := by
  have imm : uimmOf w < 32 := (w.extractLsb' 15 5).isLt
  simp only [decodeWord] at h
  repeat' split at h
  all_goals cases h
  all_goals simp [Instr.WellFormed, imm]

theorem wellFormed_of_decode {bs rest : List Byte} {i : Instr} (h : decode bs = .ok (i, rest)) :
    i.WellFormed = true := by
  simp only [decode] at h
  repeat' split at h
  all_goals cases h
  exact wellFormed_of_decodeWord ‹_›

end Sys2Proof

namespace Sys2Proof.Machine

open Sys2Proof.Safety

/-! The even pc (20 R64). -/

/-- Where a control transfer arrives the pc is even with "C". -/
theorem State.pcEven_of_target {s t : State} {v : Word} (cfg : t.cfg = s.cfg) (pc : t.pc = s.target v) : PcEven t :=
  fun hasC => by rw [pc]; exact s.target_even v (cfg ▸ hasC)

/-- The next instruction's address is even where this one's is. -/
theorem State.nextPc_even {s : State} (h : s.pc.getLsbD 0 = false) :
    s.nextPc.getLsbD 0 = false := by
  have four : (4 : Word).getLsbD 0 = false := by decide
  rw [nextPc, Word.low, BitVec.getLsbD_setWidth, BitVec.getLsbD_setWidth, BitVec.getLsbD_add (by decide), h, four]
  simp

/-! What a step keeps. -/

/-- The invariant is kept where the data and the platform are, and the mode, the pc and the widths are as they should
be. -/
theorem inv_of_dataKept {s t : State} (inv : Inv s) (data : DataKept s t) (cfg : t.cfg = s.cfg)
    (mode : ModeConfigured t) (pc : PcEven t) (words : WordsFit t) : Inv t where
  memory := data.mem inv.memory
  x0 := data.x0 inv.x0
  mode := mode
  pc := pc
  faults := data.nodup inv.faults
  platform := cfg ▸ inv.platform
  words := words

/-- A configured mode stays one while the mode and the platform stay. -/
theorem modeConfigured_of_same {s t : State} (h : ModeConfigured s) (priv : t.priv = s.priv) (cfg : t.cfg = s.cfg) :
    ModeConfigured t := fun user => cfg ▸ h (priv ▸ user)

/-- Machine Mode is always configured (10 R22). -/
theorem modeConfigured_of_machine {t : State} (machine : t.priv = .machine) : ModeConfigured t :=
  fun user => absurd (machine.symm.trans user) (by decide)

/-- A mode that `mstatus.MPP` names is configured (10 R28). -/
theorem hasU_of_configuredMode {cfg : Platform} {mpp : BitVec PRIV_BITS} (h : configuredMode cfg mpp = some .user) :
    cfg.hasU = true := by
  simp only [configuredMode] at h
  split at h
  · cases h
  · split at h
    · rename_i named
      exact (Bool.and_eq_true _ _ ▸ named).1
    · cases h

theorem State.tick_inv {s : State} (inv : Inv s) : Inv s.tick :=
  { inv with faults := s.tick_pendingFaults ▸ inv.faults, words := tick_wordsFit inv.words }

theorem State.drew_inv {s : State} (inv : Inv s) (k : Nat) : Inv (s.drew k) :=
  { inv with words := drew_wordsFit inv.words k }

theorem State.unpost_inv {s : State} (inv : Inv s) (f : PendingFault) : Inv (s.unpost f) :=
  { inv with faults := unpost_nodup f inv.faults, words := unpost_wordsFit inv.words f }

/-- Taking an exception (60 R184). -/
theorem State.raise_inv {s : State} {v : Word} (inv : Inv s) (e : ExcCode) (hv : v.Fits s.cfg.xlen) :
    Inv (s.raise e v) :=
  inv_of_dataKept inv (s.raise_dataKept e v) rfl (modeConfigured_of_machine rfl) (pcEven_of_target rfl (s.raise_pc e v))
    (raise_wordsFit inv.platform.widths inv.words e hv)

theorem State.raiseDraw_inv {s : State} (inv : Inv s) (e : ExcCode) : Inv (s.raiseDraw e) :=
  raise_inv (drew_inv inv 1) e (s.draw_fits 0)

/-- A delivered fault has an `XLEN`-bit address (60 R175). -/
theorem State.deliver_inv {s : State} (inv : Inv s) (pending : s.pendingFaults ≠ []) : Inv s.deliver :=
  raise_inv (unpost_inv inv _) _ (inv.words.pending _ (chosenFault_mem pending))

/-- Returning to a configured mode (60 R195). -/
theorem State.trapReturn_inv {s : State} {m : Mode} (inv : Inv s) (mode : configuredMode s.cfg s.mpp = some m) :
    Inv (s.trapReturn m) :=
  inv_of_dataKept inv (.of_eq rfl rfl rfl) rfl (fun user => hasU_of_configuredMode (mode.trans (congrArg some user)))
    (pcEven_of_target rfl (s.trapReturn_pc m)) (trapReturn_wordsFit inv.words m)

/-! The base set. -/

theorem ControlKept.priv {w : BitVec 32} {s t : State} (h : ControlKept w s t) : t.priv = s.priv :=
  h.elim (·.priv) (·.2.2.1)

/-- A base instruction that keeps the widths keeps the invariant: it goes on in its mode or takes an exception. -/
theorem BaseEffect.inv {w : BitVec 32} {s t : State} (eff : BaseEffect w s t) (inv : Inv s) (words : WordsFit t) :
    Inv t := by
  cases eff with
  | done v control data pc =>
    exact inv_of_dataKept inv data control.cfg (modeConfigured_of_same inv.mode control.priv control.cfg)
      (State.pcEven_of_target control.cfg pc) words
  | trap u e v control data _ _ _ _ eq =>
    subst eq
    exact inv_of_dataKept inv (data.trans (u.raise_dataKept e v)) control.cfg (modeConfigured_of_machine rfl)
      (State.pcEven_of_target rfl (u.raise_pc e v)) words

/-! The instructions of the table. -/

/-- The write of a CSR access, made or not, changes at most CSR fields (41 R129). -/
theorem State.csrWrite_frame_of_writes {u w : State} {c : Csr} {v : Word} {writes : Bool}
    (write : (if writes then u.csrWrite c v else some u) = some w) : CsrWriteFrame u w := by
  split at write
  · exact csrWrite_frame write
  · cases write
    constructor <;> rfl

/-- A CSR access that is made goes on at the next instruction, in the same mode (41 R121 to R126). -/
theorem CsrEffect.inv {s t : State} {i : Instr} {rd : RegIx} {csr : BitVec 12} {reads writes : Bool}
    {f : Word → Word} (eff : CsrEffect s i rd csr reads writes f t) (inv : Inv s)
    (hf : ∀ v, v.Fits s.cfg.xlen → (f v).Fits s.cfg.xlen) : Inv t := by
  have words : WordsFit t := eff.wordsFit inv.platform inv.words hf
  have cfg : t.cfg = s.cfg := eff.cfg
  cases eff with
  | base _ eq => exact (eq ▸ s.runBase_effect _ : BaseEffect _ s t).inv inv words
  | illegal _ _ _ eq => exact eq ▸ State.raise_inv inv _ (zext_fits_xlen inv.platform.widths _)
  | done c w _ _ write eq =>
    have read : DataKept s (s.afterRead reads) ∧ (s.afterRead reads).priv = s.priv := by
      cases reads
      exacts [⟨.refl s, rfl⟩, ⟨s.drew_dataKept 1, rfl⟩]
    have frame := State.csrWrite_frame_of_writes write
    have before : DataKept s w := read.1.trans (.of_eq frame.mem frame.x frame.pending)
    have kept : DataKept s t ∧ t.priv = w.priv := by
      subst eq
      split
      · exact ⟨(before.trans (w.setReg_dataKept rd _)).trans (.of_eq rfl rfl rfl), (w.setReg_sameControl rd _).priv⟩
      · exact ⟨before.trans (.of_eq rfl rfl rfl), rfl⟩
    have pc : t.pc = s.nextPc := by rw [eq]
    refine inv_of_dataKept inv kept.1 cfg
      (modeConfigured_of_same inv.mode (kept.2.trans (frame.priv.trans read.2)) cfg) (fun hasC => ?_) words
    rw [pc]
    exact State.nextPc_even (inv.pc (cfg ▸ hasC))

theorem ExecEffect.inv {s t : State} {i : Instr} (eff : ExecEffect s i t) (wf : i.WellFormed = true) (inv : Inv s) :
    Inv t := by
  cases eff with
  | ecall _ eq => exact eq ▸ State.raiseDraw_inv inv _
  | ebreak _ eq => exact eq ▸ State.raiseDraw_inv inv _
  | mretUser _ _ eq => exact eq ▸ State.raise_inv inv _ (zext_fits_xlen inv.platform.widths _)
  | mret m _ _ mode eq => exact eq ▸ State.trapReturn_inv inv mode
  | csr _ _ _ _ _ _ _ _ fits eff => exact eff.inv inv (fits wf inv.platform.widths inv.words)

/-- Settles O47, along the ways a step answers a next state. -/
theorem invariantKept : Obligations.InvariantKept := by
  intro s t inv _ h
  have ticked : Inv s.tick := State.tick_inv inv
  cases step_next h with
  | deliver reports eq => exact eq ▸ State.deliver_inv inv (State.pendingFaults_ne_nil_of_reports reports)
  | fetchTrap e v _ fetch eq =>
    have atPc : v = s.pc := (State.fetch_trap fetch).1
    exact eq ▸ State.raise_inv ticked e (atPc ▸ inv.words.pc)
  | breakpoint _ _ _ _ eq => exact eq ▸ State.raise_inv ticked _ inv.words.pc
  | instr _ _ _ _ _ decoded eff => exact eff.inv (wellFormed_of_decode decoded) ticked
  | other bs _ _ _ _ eq =>
    exact eq ▸ (s.tick.runOther_effect _).inv ticked (State.runOther_wordsFit ticked.platform.widths ticked.words _)

end Sys2Proof.Machine
end

section
/-! PROOF. The bytes of a store, one by one (spec 20 rule R61; O55). -/

namespace Sys2Proof.Machine

/-- Bytes written at distinct addresses are read back there, each at its own. -/
theorem Memory.map_read_writeBytes (m : Memory) {as : List Nat} {bs : List Byte} (distinct : as.Nodup)
    (len : as.length = bs.length) : as.map (m.writeBytes as bs).read = bs.map some := by
  induction as generalizing m bs with
  | nil => rw [List.length_eq_zero_iff.mp len.symm]; rfl
  | cons a as ih =>
    cases bs with
    | nil => cases len
    | cons b bs =>
      obtain ⟨fresh, distinct⟩ := List.nodup_cons.mp distinct
      rw [writeBytes, List.map_cons, read_writeBytes_ne _ _ _ fresh, read_write_same, ih _ distinct (Nat.succ.inj len),
        List.map_cons]

/-- Byte `k` of a value is its bits `8k` to `8k + 7` (20 R61). -/
theorem bytesOf_getElem? (v : BitVec 64) {n k : Nat} (h : k < n) :
    (bytesOf v n)[k]? = some (v.extractLsb' (8 * k) 8) := by
  induction n generalizing v k with
  | zero => cases h
  | succ n ih =>
    cases k with
    | zero => simp [bytesOf, BitVec.setWidth_eq_extractLsb']
    | succ k =>
      have shifted : (v >>> 8).extractLsb' (8 * k) 8 = v.extractLsb' (8 * (k + 1)) 8 := by
        apply BitVec.eq_of_getLsbD_eq
        intro i hi
        simp [show 8 + (8 * k + i) = 8 * (k + 1) + i by omega]
      rw [bytesOf, List.getElem?_cons_succ, ih _ (Nat.lt_of_succ_lt_succ h), shifted]

/-- Settles O55: address `k` of the access holds byte `k` of the value, since the addresses are distinct. -/
theorem storeIsLittleEndian : Obligations.StoreIsLittleEndian := by
  intro s a w v k widths hk
  have address : (s.addrs a (widthBytes w))[k]? = some ((a.toNat + k) % 2 ^ s.cfg.xlen) := by
    simp [State.addrs, byteAddrs_eq a _ widths.2.1, hk]
  have back := congrArg (·[k]?) (Memory.map_read_writeBytes s.mem (bs := bytesOf v (widthBytes w))
    (State.addrs_nodup widths a (widthBytes_le w)) (by simp))
  simp only [List.getElem?_map, address, bytesOf_getElem? v hk, Option.map_some] at back
  exact Option.some.inj back

end Sys2Proof.Machine
end

section
/-! PROOF. Code that the program stored is refused at its fetch (spec 20 rule R71; O45). -/

namespace Sys2Proof.Machine

open Sys2Proof.Safety

/-- A fetch that meets neither code 0 nor code 1 and finds a byte that was stored gives no bytes (20 R71). -/
theorem State.fetch_modified {s : State} {a : Nat} (aligned : s.cfg.hasC = true ∨ s.pc.toNat % 4 = 0)
    (clear : s.accessFault .fetch s.pc s.fetchLen = false) (fetched : a ∈ s.addrs s.pc s.fetchLen)
    (stored : a ∈ s.written) : s.fetch = .modified := by
  have noCode0 : ¬ (s.pc.misaligned 4 && !s.cfg.hasC) = true := by
    obtain h | h := aligned <;> simp [h, Word.misaligned]
  have noCode1 : ¬ s.accessFault .fetch s.pc s.fetchLen = true := by simp [clear]
  have found : (s.addrs s.pc s.fetchLen).any (fun a => s.written.contains a) = true :=
    List.any_eq_true.mpr ⟨a, fetched, List.contains_iff_mem.mpr stored⟩
  rw [fetch, if_neg noCode0, if_neg noCode1, if_pos found]

/-- Settles O45: the fetch gives no bytes, and a breakpoint is only asked of bytes fetched. -/
theorem selfModifiedCodeRefused : Obligations.SelfModifiedCodeRefused := by
  intro s a quiet waits aligned clear fetched stored
  have modified : s.tick.fetch = .modified := s.fetch_tick.trans (State.fetch_modified aligned clear fetched stored)
  rw [step_of_waits quiet waits, runAt, modified]

end Sys2Proof.Machine
end

section
/-! PROOF. The decoder and the rows of the opcode table (spec 30 rules R80 to R83, R89; O3 to O7). -/

namespace Sys2Proof

/-- The word of a CSR access instruction, by its fields (30 R82, R83). -/
theorem encode_of_csrInstr {f : BitVec 3} {rd : RegIx} {csr : BitVec 12} {src : BitVec 5} {i : Instr}
    (h : csrInstr f rd csr src = some i) : encode i = systemWord csr src f rd := by
  have ofNumber : ∀ {k : Nat}, f.toNat = k → f = BitVec.ofNat 3 k := fun e => by simp [← e]
  have imm : BitVec.ofNat 5 src.toNat = src := by simp
  simp only [csrInstr] at h
  split at h <;> cases h
  all_goals rw [ofNumber ‹_›]
  · rfl
  · rfl
  · rfl
  · exact congrArg (systemWord csr · 5 rd) imm
  · exact congrArg (systemWord csr · 6 rd) imm
  · exact congrArg (systemWord csr · 7 rd) imm

/-- The words that the table claims: those of `ecall`, `ebreak` and `mret`, and the CSR accesses (30 R83). -/
theorem decodeWord_eq_some {w : BitVec 32} {i : Instr} (h : decodeWord w = some i) :
    (i = .ecall ∧ w = 0x00000073) ∨ (i = .ebreak ∧ w = 0x00100073) ∨ (i = .mret ∧ w = 0x30200073)
      ∨ (opcodeOf w = opcodeSystem
        ∧ csrInstr (funct3Of w) (rdOf w) (csrOf w) (w.extractLsb' 15 5) = some i) := by
  rw [decodeWord] at h
  split at h
  · exact .inl ⟨(Option.some.inj h).symm, ‹_›⟩
  · split at h
    · exact .inr (.inl ⟨(Option.some.inj h).symm, ‹_›⟩)
    · split at h
      · exact .inr (.inr (.inl ⟨(Option.some.inj h).symm, ‹_›⟩))
      · split at h
        · exact .inr (.inr (.inr ⟨‹_›, h⟩))
        · cases h

/-- A word of the table is the encoding of what it decodes to (30 R83). -/
theorem encode_of_decodeWord {w : BitVec 32} {i : Instr} (h : decodeWord w = some i) : encode i = w := by
  obtain ⟨rfl, rfl⟩ | ⟨rfl, rfl⟩ | ⟨rfl, rfl⟩ | ⟨op, row⟩ := decodeWord_eq_some h
  · decide
  · decide
  · decide
  · exact (encode_of_csrInstr row).trans (systemWord_of_fields w op)

/-- The table claims exactly the encodings of the well-formed instructions (30 R83, R89). -/
theorem decodeWord_eq_some_iff {w : BitVec 32} {i : Instr} :
    decodeWord w = some i ↔ i.WellFormed = true ∧ encode i = w :=
  ⟨fun h => ⟨wellFormed_of_decodeWord h, encode_of_decodeWord h⟩, fun ⟨wf, e⟩ => e ▸ decodeWord_encode wf⟩

/-- Settles O6, from the bytes of an encoding. -/
theorem decodeOfEncode : Obligations.DecodeOfEncode := fun _ rest wf => decode_encode wf rest

/-- Settles O7: a row of the table is told by the fields its encoding is made of. -/
theorem encodeOfDecode : Obligations.EncodeOfDecode := fun _ _ h => (decodeWord_eq_some_iff.mp h).symm

/-- Settles O3, running the decoder on each word. -/
theorem vectorWordsDecode : Obligations.VectorWordsDecode := by
  unfold Obligations.VectorWordsDecode
  decide

/-! The rows as match and mask (30 R83). -/

/-- The mask of the CSR rows: the opcode and `funct3`. -/
def csrRowMask : BitVec 32 := 0x0000707F

/-- A field that a mask keeps. -/
theorem extractLsb'_and_of_kept (w : BitVec 32) {m : BitVec 32} {lo n : Nat}
    (kept : m.extractLsb' lo n = BitVec.allOnes n) :
    (w &&& m).extractLsb' lo n = w.extractLsb' lo n := by
  rw [BitVec.extractLsb'_and, kept, BitVec.and_allOnes]

/-- A field that a mask clears. -/
theorem extractLsb'_and_of_cleared (w : BitVec 32) {m : BitVec 32} {lo n : Nat}
    (cleared : m.extractLsb' lo n = 0#n) :
    (w &&& m).extractLsb' lo n = 0#n := by
  rw [BitVec.extractLsb'_and, cleared, BitVec.and_zero]

/-- A word agrees with a row under the mask of the CSR rows when it has the row's opcode and `funct3`. -/
theorem and_csrRowMask_eq_iff {w : BitVec 32} {f : BitVec 3} :
    w &&& csrRowMask = systemWord 0 0 f 0 ↔ opcodeOf w = opcodeSystem ∧ funct3Of w = f := by
  have opcode : opcodeOf (w &&& csrRowMask) = opcodeOf w := extractLsb'_and_of_kept w (by decide)
  have funct3 : funct3Of (w &&& csrRowMask) = funct3Of w := extractLsb'_and_of_kept w (by decide)
  constructor
  · intro h
    rw [← opcode, ← funct3, h]
    exact ⟨opcodeOf_systemWord _ _ _ _, funct3Of_systemWord _ _ _ _⟩
  · rintro ⟨op, rfl⟩
    have csr : csrOf (w &&& csrRowMask) = 0 := extractLsb'_and_of_cleared w (by decide)
    have mid : (w &&& csrRowMask).extractLsb' 15 5 = 0 := extractLsb'_and_of_cleared w (by decide)
    have rd : rdOf (w &&& csrRowMask) = 0 := congrArg BitVec.toFin (extractLsb'_and_of_cleared w (by decide))
    have fields := systemWord_of_fields (w &&& csrRowMask) (opcode.trans op)
    rw [csr, mid, rd, funct3] at fields
    exact fields.symm

/-- A CSR row is told by its opcode and `funct3` alone: `row` is what the decoder, `word` what the encoder makes of its
instruction `instr`. -/
theorem csrRow_iff {α : Type} {f : BitVec 3} {instr : RegIx → BitVec 12 → α → Instr} {operand : BitVec 5 → α}
    {rowMatch : BitVec 32} (nonzero : f ≠ 0)
    (row : ∀ rd csr src, csrInstr f rd csr src = some (instr rd csr (operand src)))
    (word : ∀ rd csr a, ∃ src, encode (instr rd csr a) = systemWord csr src f rd)
    (hm : systemWord 0 0 f 0 = rowMatch) (w : BitVec 32) :
    (∃ rd csr a, decodeWord w = some (instr rd csr a)) ↔ w &&& csrRowMask = rowMatch := by
  rw [← hm, and_csrRowMask_eq_iff]
  constructor
  · rintro ⟨rd, csr, a, h⟩
    obtain ⟨src, e⟩ := word rd csr a
    rw [← encode_of_decodeWord h, e]
    exact ⟨opcodeOf_systemWord _ _ _ _, funct3Of_systemWord _ _ _ _⟩
  · rintro ⟨op, rfl⟩
    exact ⟨_, _, _, (decodeWord_of_funct3 op nonzero).trans (row _ _ _)⟩

/-- A row without operands is one word: its mask is all ones. -/
theorem wordRow_iff {i : Instr} {rowMatch : BitVec 32} (wf : i.WellFormed = true) (hm : encode i = rowMatch)
    (w : BitVec 32) : decodeWord w = some i ↔ w &&& 0xFFFFFFFF#32 = rowMatch := by
  rw [decodeWord_eq_some_iff, and_iff_right wf, hm, show 0xFFFFFFFF#32 = BitVec.allOnes 32 from rfl, BitVec.and_allOnes,
    eq_comm]

/-- Settles O4, row by row. -/
theorem decodeMatchesOpcodeTable : Obligations.DecodeMatchesOpcodeTable := fun w =>
  ⟨wordRow_iff rfl (by decide) w, wordRow_iff rfl (by decide) w, wordRow_iff rfl (by decide) w,
    csrRow_iff (f := 1) (by decide) (fun _ _ _ => rfl) (fun _ _ _ => ⟨_, rfl⟩) (by decide) w,
    csrRow_iff (f := 2) (by decide) (fun _ _ _ => rfl) (fun _ _ _ => ⟨_, rfl⟩) (by decide) w,
    csrRow_iff (f := 3) (by decide) (fun _ _ _ => rfl) (fun _ _ _ => ⟨_, rfl⟩) (by decide) w,
    csrRow_iff (f := 5) (by decide) (fun _ _ _ => rfl) (fun _ _ _ => ⟨_, rfl⟩) (by decide) w,
    csrRow_iff (f := 6) (by decide) (fun _ _ _ => rfl) (fun _ _ _ => ⟨_, rfl⟩) (by decide) w,
    csrRow_iff (f := 7) (by decide) (fun _ _ _ => rfl) (fun _ _ _ => ⟨_, rfl⟩) (by decide) w⟩

/-! The operands (30 R82). -/

/-- The fields of a CSR access word. -/
theorem operands_of_systemWord (csr : BitVec 12) (src : BitVec 5) (f : BitVec 3) (rd : RegIx) :
    csr = (systemWord csr src f rd).extractLsb' 20 12
      ∧ rd.val = ((systemWord csr src f rd).extractLsb' 7 5).toNat
      ∧ src = (systemWord csr src f rd).extractLsb' 15 5 :=
  ⟨(csrOf_systemWord csr src f rd).symm, congrArg Fin.val (rdOf_systemWord csr src f rd).symm,
    (mid_systemWord csr src f rd).symm⟩

/-- The same where the source is a general register. -/
theorem operands_of_registerForm (csr : BitVec 12) (rs1 : RegIx) (f : BitVec 3) (rd : RegIx) :
    csr = (systemWord csr (BitVec.ofFin rs1) f rd).extractLsb' 20 12
      ∧ rd.val = ((systemWord csr (BitVec.ofFin rs1) f rd).extractLsb' 7 5).toNat
      ∧ rs1.val = ((systemWord csr (BitVec.ofFin rs1) f rd).extractLsb' 15 5).toNat := by
  obtain ⟨hcsr, hrd, hsrc⟩ := operands_of_systemWord csr (BitVec.ofFin rs1) f rd
  exact ⟨hcsr, hrd, congrArg BitVec.toNat hsrc⟩

/-- The same where the source is an immediate, which is zero-extended. -/
theorem operands_of_immediateForm (csr : BitVec 12) {uimm : Nat} (f : BitVec 3) (rd : RegIx)
    (small : decide (uimm < 32) = true) :
    csr = (systemWord csr (BitVec.ofNat 5 uimm) f rd).extractLsb' 20 12
      ∧ rd.val = ((systemWord csr (BitVec.ofNat 5 uimm) f rd).extractLsb' 7 5).toNat
      ∧ Machine.uimmWord uimm
        = ((systemWord csr (BitVec.ofNat 5 uimm) f rd).extractLsb' 15 5).setWidth WORD_BITS := by
  obtain ⟨hcsr, hrd, hsrc⟩ := operands_of_systemWord csr (BitVec.ofNat 5 uimm) f rd
  have extended : Machine.uimmWord uimm = (BitVec.ofNat 5 uimm).setWidth WORD_BITS := by
    apply BitVec.eq_of_toNat_eq
    simp [Machine.uimmWord, Nat.mod_eq_of_lt (of_decide_eq_true small)]
  exact ⟨hcsr, hrd, extended.trans (congrArg (BitVec.setWidth WORD_BITS) hsrc)⟩

/-- Settles O5: the word is the encoding of its instruction, whose fields are the operands. -/
theorem operandsAreFields : Obligations.OperandsAreFields := by
  intro w i h
  obtain ⟨wf, rfl⟩ := decodeWord_eq_some_iff.mp h
  cases i with
  | ecall => decide
  | ebreak => decide
  | mret => decide
  | csrrw rd csr rs1 => exact operands_of_registerForm csr rs1 1 rd
  | csrrs rd csr rs1 => exact operands_of_registerForm csr rs1 2 rd
  | csrrc rd csr rs1 => exact operands_of_registerForm csr rs1 3 rd
  | csrrwi rd csr uimm => exact operands_of_immediateForm csr 5 rd wf
  | csrrsi rd csr uimm => exact operands_of_immediateForm csr 6 rd wf
  | csrrci rd csr uimm => exact operands_of_immediateForm csr 7 rd wf

end Sys2Proof
end

section
/-! PROOF. The words that are none of the nine (spec 30 rules R80, R84, R86, R87; O34, O43, O46). -/

namespace Sys2Proof.Machine

open Sys2Proof.Safety

/-- The members of `IsIllegal` (30 R86). -/
theorem isIllegal_iff {cfg : Platform} {w : BitVec 32} {m : Mode} :
    isIllegal cfg w m = true ↔
      (opcodeOf w = opcodeSystem ∧ funct3Of w = 4) ∨ (opcodeOf w = opcodeSystem ∧ funct3Of w = 0 ∧ w ∉ cfg.baseClaims)
        ∨ w = 0 ∨ Config.isIllegalOther w m = true := by
  simp [isIllegal, opcodeOf, funct3Of, or_assoc, and_assoc]

/-- An illegal word other than the 2-byte breakpoint traps with the word in `mtval` (30 R86, R87). -/
theorem stepOther_of_illegal {s : State} {w : BitVec 32} (other : isCompressedBreakpoint s.cfg w = false)
    (illegal : isIllegal s.cfg w s.priv = true) : stepOther w s = .next (s.raise .illegalInstruction (zext w)) := by
  rw [stepOther, if_neg (Bool.eq_false_iff.mp other), State.runOther, if_pos illegal]

/-- A legal word other than the 2-byte breakpoint is the base set's (30 R84). -/
theorem stepOther_of_legal {s : State} {w : BitVec 32} (other : isCompressedBreakpoint s.cfg w = false)
    (legal : isIllegal s.cfg w s.priv = false) : stepOther w s = .next (s.runBase w) := by
  rw [stepOther, if_neg (Bool.eq_false_iff.mp other), State.runOther, if_neg (Bool.eq_false_iff.mp legal)]

/-- The 2-byte breakpoint is the parcel 0x9002, with "C" (30 R80; log 21). -/
theorem isCompressedBreakpoint_eq_false_iff {cfg : Platform} {w : BitVec 32} :
    isCompressedBreakpoint cfg w = false ↔ cfg.hasC = false ∨ w ≠ 0x9002#32 := by
  simp [isCompressedBreakpoint, imp_iff_not_or]

/-- A SYSTEM word with `funct3` = 100 is no row of the table (30 R83, R86). -/
theorem decodeWord_of_funct3_four {w : BitVec 32} (op : opcodeOf w = opcodeSystem) (four : funct3Of w = 4) :
    decodeWord w = none := by
  rw [decodeWord_of_funct3 op (by rw [four]; decide), four]
  rfl

/-- Settles O34: each fixed member is illegal, and none is the 2-byte breakpoint. -/
theorem fixedIllegalWords : Obligations.FixedIllegalWords := by
  intro s w fixed
  have notBreakpoint : opcodeOf w = opcodeSystem → w ≠ 0x9002#32 := fun op e => absurd op (e ▸ by decide)
  have facts : decodeWord w = none ∧ w ≠ 0x9002#32 ∧ isIllegal s.cfg w s.priv = true := by
    obtain rfl | ⟨op, four⟩ | ⟨op, zero, noRow, unclaimed⟩ := fixed
    · exact ⟨by decide, by decide, isIllegal_iff.mpr (.inr (.inr (.inl rfl)))⟩
    · exact ⟨decodeWord_of_funct3_four op four, notBreakpoint op, isIllegal_iff.mpr (.inl ⟨op, four⟩)⟩
    · exact ⟨noRow, notBreakpoint op, isIllegal_iff.mpr (.inr (.inl ⟨op, zero, unclaimed⟩))⟩
  obtain ⟨noRow, long, illegal⟩ := facts
  exact ⟨noRow, _, stepOther_of_illegal (isCompressedBreakpoint_eq_false_iff.mpr (.inr long)) illegal,
    State.raise_tookTrap (.refl s) rfl _ _, rfl, s.raise_sameContext _ _⟩

/-- Fetched bytes that are no instruction of the table, with no breakpoint taken, run as another word (30 R84). -/
theorem runAt_of_other {s : State} {bs : List Byte} {e : DecodeError} (fetch : s.fetch = .bytes bs)
    (clear : s.takesBreakpoint bs = false) (decoded : decode bs = .error e) :
    runAt s = stepOther (wordOfBytes bs) s := by
  simp only [runAt, fetch, clear, decoded, Bool.false_eq_true, if_false]

/-- The step of a word that is none of the nine, while the reporter waits. -/
theorem step_of_other {s : State} {bs : List Byte} {e : DecodeError} (quiet : NoInterrupts s)
    (waits : s.reports = false) (fetch : s.fetch = .bytes bs) (decoded : decode bs = .error e)
    (clear : s.takesBreakpoint bs = false) : step s = stepOther (wordOfBytes bs) s.tick :=
  (step_of_waits quiet waits).trans
    (runAt_of_other (s.fetch_tick.trans fetch) ((s.takesBreakpoint_tick bs).trans clear) decoded)

/-- Settles O43: the reporter's wait changes neither the platform nor the mode, so the word is judged as in `s`. -/
theorem stepRunsOther : Obligations.StepRunsOther := by
  intro s bs e quiet waits fetch decoded clear notBreakpoint
  have run := step_of_other quiet waits fetch decoded (State.takesBreakpoint_eq_false clear)
  have other : isCompressedBreakpoint s.tick.cfg (wordOfBytes bs) = false :=
    isCompressedBreakpoint_eq_false_iff.mpr notBreakpoint
  exact ⟨fun illegal => run.trans (stepOther_of_illegal other illegal),
    fun legal => run.trans (stepOther_of_legal other legal)⟩

/-- Settles O46: the parcel is no row of the table, and is the one that is refused. -/
theorem compressedBreakpointRefused : Obligations.CompressedBreakpointRefused := by
  intro s quiet waits hasC fetch clear
  have refused : isCompressedBreakpoint s.tick.cfg (wordOfBytes [0x02#8, 0x90#8]) = true := by
    rw [isCompressedBreakpoint, State.tick_cfg, hasC]
    decide
  rw [step_of_other (e := .shortForm 0x9002) quiet waits fetch (by decide) (State.takesBreakpoint_of_clear clear _),
    stepOther, if_pos refused]

end Sys2Proof.Machine
end

section
/-! PROOF. The length, the tests and the bytes of a fetch (spec 42 rule R140, 30 rule R80, 20 rules R60, R68; O39). -/

namespace Sys2Proof.Machine

open Sys2Proof.Safety

/-- Without "C" every instruction has four bytes (30 R80). -/
theorem State.fetchLen_of_noC {s : State} (noC : s.cfg.hasC = false) : s.fetchLen = 4 := by
  simp [fetchLen, noC]

/-- With "C" the low two bits of the first byte tell the length (30 R80). -/
theorem State.fetchLen_of_hasC {s : State} (hasC : s.cfg.hasC = true) :
    s.fetchLen = if (s.mem.byte (s.pc.toNat % 2 ^ s.cfg.xlen)).extractLsb' 0 2 = 3#2 then 4 else 2 := by
  by_cases long : (s.mem.byte (s.pc.toNat % 2 ^ s.cfg.xlen)).extractLsb' 0 2 = 3#2 <;>
    simp [fetchLen, isLong, hasC, long]

/-- A pc that meets code 0: misaligned, without "C" (42 R140). -/
theorem State.meetsCode0_iff (s : State) :
    (s.pc.misaligned 4 && !s.cfg.hasC) = true ↔ s.cfg.hasC = false ∧ s.pc.toNat % 4 ≠ 0 := by
  simp [Word.misaligned, and_comm]

/-- The bytes an access finds, one by one (20 R60). -/
theorem State.bytesAt_getElem? {s : State} (widths : s.cfg.WidthsFit) (a : Word) {n k : Nat} (hk : k < n) :
    (s.bytesAt a n)[k]? = some (s.mem.byte ((a.toNat + k) % 2 ^ s.cfg.xlen)) := by
  simp [bytesAt, addrs, byteAddrs_eq a n widths.2.1, hk]

/-- A fetch that meets neither code 0 nor code 1 and no byte that was stored gives the bytes at the pc. -/
theorem State.fetch_eq_bytesAt {s : State} (widths : s.cfg.WidthsFit)
    (noCode0 : ¬ (s.pc.misaligned 4 && !s.cfg.hasC) = true)
    (noCode1 : s.accessFault .fetch s.pc s.fetchLen = false)
    (fresh : ∀ k < s.fetchLen, (s.pc.toNat + k) % 2 ^ s.cfg.xlen ∉ s.written) :
    s.fetch = .bytes (s.bytesAt s.pc s.fetchLen) := by
  have unwritten : ¬ (s.addrs s.pc s.fetchLen).any (fun a => s.written.contains a) = true := by
    simpa [addrs, byteAddrs_eq s.pc s.fetchLen widths.2.1] using fresh
  rw [fetch, if_neg noCode0, if_neg (Bool.eq_false_iff.mp noCode1), if_neg unwritten]

/-- Settles O39, test by test. -/
theorem fetchTestOrder : Obligations.FetchTestOrder := by
  intro s
  refine ⟨State.fetchLen_of_noC, State.fetchLen_of_hasC, fun _ _ => Memory.byte_of_read, fun noC misaligned => ?_,
    fun aligned => ?_⟩
  · rw [State.fetch, if_pos (s.meetsCode0_iff.mpr ⟨noC, misaligned⟩)]
  · have noCode0 : ¬ (s.pc.misaligned 4 && !s.cfg.hasC) = true := by
      rw [s.meetsCode0_iff]
      rintro ⟨noC, misaligned⟩
      exact aligned.elim (by simp [noC]) misaligned
    refine ⟨fun code1 => by rw [State.fetch, if_neg noCode0, if_pos code1], fun noCode1 widths fresh => ?_⟩
    exact ⟨_, State.fetch_eq_bytesAt widths noCode0 noCode1 fresh, rfl, by simp [State.bytesAt],
      fun _ hk => State.bytesAt_getElem? widths s.pc hk⟩

end Sys2Proof.Machine
end

section
/-! PROOF. `ecall`, `ebreak`, and the `mret` that does not return (spec 40 rules R100 to R102; O13, O14, O17, O18). -/

namespace Sys2Proof.Machine

open Sys2Proof.Safety

/-- Raising with a drawn `mtval` is taking the exception (60 R180, R184). -/
theorem State.raiseDraw_tookTrap (s : State) (e : ExcCode) : TookTrap s (s.raiseDraw e) e s.pc :=
  raise_tookTrap (s.drew_sameControl 1) rfl e (s.draw 0)

/-- Raising with a drawn `mtval` leaves the context alone (60 R186). -/
theorem State.raiseDraw_sameContext (s : State) (e : ExcCode) : SameContext s (s.raiseDraw e) :=
  ⟨fun _ => rfl, ⟨fun _ => rfl, rfl, rfl⟩, rfl, rfl⟩

theorem exec_ecall (s : State) : exec .ecall s = .next (s.raiseDraw (ecallCode s.priv)) := rfl

theorem exec_ebreak (s : State) : exec .ebreak s = .next (s.raiseDraw .breakpoint) := rfl

theorem exec_mret_of_user {s : State} (user : s.priv = .user) :
    exec .mret s = .next (s.raise .illegalInstruction (zext (encode .mret))) := by
  simp only [exec, execMret, user]

theorem exec_mret_of_mode {s : State} {m : Mode} (machine : s.priv = .machine)
    (mode : configuredMode s.cfg s.mpp = some m) : exec .mret s = .next (s.trapReturn m) := by
  simp only [exec, execMret, machine, mode]

theorem exec_mret_of_noMode {s : State} (machine : s.priv = .machine) (noMode : configuredMode s.cfg s.mpp = none) :
    exec .mret s = .fault .mretBadMpp := by
  simp only [exec, execMret, machine, noMode]

/-- In Machine Mode `mret` stops for want of a mode to return to, and for nothing else (40 R102). -/
theorem exec_mret_eq_fault_iff {s : State} (machine : s.priv = .machine) :
    exec .mret s = .fault .mretBadMpp ↔ configuredMode s.cfg s.mpp = none := by
  refine ⟨fun stops => ?_, exec_mret_of_noMode machine⟩
  cases mode : configuredMode s.cfg s.mpp with
  | none => rfl
  | some m => cases (exec_mret_of_mode machine mode).symm.trans stops

/-- A value of `mstatus.MPP` names no mode where it is neither `PRIV_M` nor, with User Mode, `PRIV_U` (10 R28). -/
theorem configuredMode_eq_none_iff {cfg : Platform} {mpp : BitVec PRIV_BITS} :
    configuredMode cfg mpp = none ↔ mpp ≠ cfg.privM ∧ (cfg.hasU = true → mpp ≠ cfg.privU) := by
  by_cases machine : mpp = cfg.privM <;> simp [configuredMode, machine]

/-- Settles O13: the code is the one of the mode, and raising it is all that `ecall` does. -/
theorem ecallTakesException : Obligations.EcallTakesException := by
  intro s
  have took : TookTrap s (s.raiseDraw (ecallCode s.priv)) (ecallCode s.priv) s.pc := s.raiseDraw_tookTrap _
  refine ⟨_, exec_ecall s, fun user => ?_, fun machine => ?_, s.raiseDraw_sameContext _⟩
  · rwa [user] at took ⊢
  · rwa [machine] at took ⊢

/-- Settles O14: raising code 3 is all that `ebreak` does. -/
theorem ebreakTakesException : Obligations.EbreakTakesException := fun s =>
  ⟨_, exec_ebreak s, s.raiseDraw_tookTrap _, s.raiseDraw_sameContext _⟩

/-- Settles O17: the word recorded is the encoding of `mret`. -/
theorem mretInUserModeIsIllegal : Obligations.MretInUserModeIsIllegal := by
  intro s user
  have word : encode .mret = 0x30200073#32 := by decide
  exact ⟨_, exec_mret_of_user user, State.raise_tookTrap (.refl s) rfl _ _, congrArg zext word,
    s.raise_sameContext _ _⟩

/-- Settles O18: `mret` stops where `mstatus.MPP` names no configured mode. -/
theorem mretStopsWithoutMode : Obligations.MretStopsWithoutMode := fun _ machine =>
  (exec_mret_eq_fault_iff machine).trans configuredMode_eq_none_iff

end Sys2Proof.Machine
end

section
/-! PROOF. What a CSR access makes of the state (spec 41 rules R120 to R129): reading and writing one CSR (O21, O22), the
access check (O23, O24), the six instructions (O25 to O27) and their frame (O28). -/

namespace Sys2Proof.Machine

open Sys2Proof.Safety

/-! Reading and writing one CSR. -/

/-- Settles O21, from what each bit of the packed words is. -/
theorem csrReadValues : Obligations.CsrReadValues := by
  intro s d valid
  refine ⟨rfl, rfl, rfl, mieOf_packMstatus valid d _ _ _, mpieOf_packMstatus valid d _ _ _,
    mppOf_packMstatus valid d _ _ _, fun i mie mpie mpp => ?_, typ_packMsubm valid d _ _, ptyp_packMsubm valid d _ _,
    fun i typ ptyp => ?_, exccode_packMcause valid d _ _, intFlagOf_packMcause valid d _ _, fun i exccode flag => ?_⟩
  · rw [State.csrValue, getLsbD_packMstatus valid, if_neg (by omega), if_neg mpie, if_neg mie]
  · rw [State.csrValue, getLsbD_packMsubm valid, if_neg (by omega), if_neg (by omega)]
  · rw [State.csrValue, getLsbD_packMcause valid, if_neg flag, if_neg (by omega)]

/-- Settles O22, CSR by CSR. -/
theorem csrWriteEffects : Obligations.CsrWriteEffects := fun _ _ => ⟨rfl, rfl, rfl, rfl, rfl, rfl⟩

/-- The draw of a read does not touch what the write, made or not, does. -/
theorem State.write_afterRead (s : State) (reads writes : Bool) (c : Csr) (v : Word) :
    (if writes then (s.afterRead reads).csrWrite c v else some (s.afterRead reads))
      = (if writes then s.csrWrite c v else some s).map (·.afterRead reads) := by
  cases writes with
  | false => rfl
  | true => cases c <;> cases reads <;> rfl

/-- The write of a CSR access, made or not, changes no field of another CSR (41 R129). -/
theorem State.csrWrite_otherFields {s w : State} {c : Csr} {v : Word} {writes : Bool}
    (write : (if writes then s.csrWrite c v else some s) = some w) :
    (c ≠ .mstatus ∨ writes = false → w.mie = s.mie ∧ w.mpie = s.mpie ∧ w.mpp = s.mpp)
    ∧ (c ≠ .mtvec ∨ writes = false → w.mtvec = s.mtvec)
    ∧ (c ≠ .mepc ∨ writes = false → w.mepc = s.mepc)
    ∧ (c ≠ .mcause ∨ writes = false → w.exccode = s.exccode ∧ w.intFlag = s.intFlag)
    ∧ (c ≠ .mtval ∨ writes = false → w.mtval = s.mtval) := by
  cases writes with
  | false => cases write; simp
  | true =>
    cases c with
    | msubm => cases write
    | _ => cases write; simp

theorem CsrWriteFrame.reg {s t : State} (frame : CsrWriteFrame s t) (j : RegIx) : t.reg j = s.reg j := by
  rw [State.reg, State.reg, frame.x]

theorem CsrWriteFrame.sameMemory {s t : State} (frame : CsrWriteFrame s t) : SameMemory s t :=
  ⟨fun _ => by rw [frame.mem], frame.pending, frame.written⟩

theorem State.drew_sameMemory (s : State) (k : Nat) : SameMemory s (s.drew k) := ⟨fun _ => rfl, rfl, rfl⟩

theorem State.setReg_sameMemory (s : State) (i : RegIx) (v : Word) : SameMemory s (s.setReg i v) := by
  rw [State.setReg_eq]
  exact ⟨fun _ => rfl, rfl, rfl⟩

/-! The access check (41 R120), and what becomes of each of the six instructions. -/

/-- The CSR at the address of `msubm` is `msubm` (10 R24). -/
theorem csrAt_msubm {l : CsrLayout} (distinct : l.addresses.Nodup) : csrAt l l.msubm = some .msubm := by
  simp only [CsrLayout.addresses, List.nodup_cons, List.mem_cons, List.not_mem_nil, or_false, not_or] at distinct
  obtain ⟨⟨_, _, _, _, h1⟩, ⟨_, _, _, h2⟩, ⟨_, _, h3⟩, ⟨_, h4⟩, h5, _⟩ := distinct
  simp only [csrAt, if_neg (Ne.symm h1), if_neg (Ne.symm h2), if_neg (Ne.symm h3), if_neg (Ne.symm h4),
    if_neg (Ne.symm h5), if_true]

/-- An instruction with a CSR operand is one CSR access (41 R121 to R126). -/
theorem exec_eq_csrAccess {i : Instr} {csr : BitVec 12} (operand : csrOperand i = some csr) (s : State) :
    ∃ rd reads f, destination i = some rd ∧ exec i s = s.csrAccess i rd csr reads (writesCsr i) f := by
  cases i with
  | ecall => cases operand
  | ebreak => cases operand
  | mret => cases operand
  | csrrw rd _ rs1 => cases operand; exact ⟨rd, rd != 0, fun _ => s.reg rs1, rfl, rfl⟩
  | csrrs rd _ rs1 => cases operand; exact ⟨rd, true, fun t => t ||| s.reg rs1, rfl, rfl⟩
  | csrrc rd _ rs1 => cases operand; exact ⟨rd, true, fun t => t &&& ~~~(s.reg rs1), rfl, rfl⟩
  | csrrwi rd _ uimm => cases operand; exact ⟨rd, rd != 0, fun _ => uimmWord uimm, rfl, rfl⟩
  | csrrsi rd _ uimm => cases operand; exact ⟨rd, true, fun t => t ||| uimmWord uimm, rfl, rfl⟩
  | csrrci rd _ uimm => cases operand; exact ⟨rd, true, fun t => t &&& ~~~(uimmWord uimm), rfl, rfl⟩

section Access

variable {s t : State} {i : Instr} {rd : RegIx} {csr : BitVec 12} {reads writes : Bool} {f : Word → Word} {c : Csr}

/-- A CSR that is none of the six is `BaseStep`'s. -/
theorem State.csrAccess_of_absent (absent : csrAt s.cfg.layout csr = none) :
    s.csrAccess i rd csr reads writes f = .next (s.runBase (encode i)) := by
  simp only [csrAccess, absent]

/-- An access that the check denies is illegal and records its word. -/
theorem State.csrAccess_of_denied (at' : csrAt s.cfg.layout csr = some c)
    (denied : csrAccessOk s.cfg csr s.priv writes = false) :
    s.csrAccess i rd csr reads writes f = .next (s.raise .illegalInstruction (zext (encode i))) := by
  simp [csrAccess, at', denied]

/-- A write of `msubm` that the check allows is refused (41 R129). -/
theorem State.csrAccess_of_msubm (at' : csrAt s.cfg.layout csr = some .msubm)
    (allowed : csrAccessOk s.cfg csr s.priv true = true) :
    s.csrAccess i rd csr reads true f = .refused .msubmWrite := by
  simp [csrAccess, at', allowed, csrWrite]

/-- What an access that is made leaves in `t`: the control state is the one the write, if any, leaves in `w`; `rd` has
received the value read, if any; memory is untouched, and the next instruction follows (41 R121 to R126). -/
structure AccessMade (s : State) (c : Csr) (rd : RegIx) (reads writes : Bool) (f : Word → Word) (w t : State) :
    Prop where
  write   : (if writes then s.csrWrite c (f (s.csrValue c (s.draw 0))) else some s) = some w
  control : SameControl w t
  pc      : t.pc = s.nextPc
  read    : reads = true → rd ≠ 0 → t.reg rd = s.csrValue c (s.draw 0)
  regs    : ∀ j, j ≠ rd → t.reg j = s.reg j
  memory  : SameMemory s t

/-- In Machine Mode, an access to one of the six CSRs that answers a next state is made. -/
theorem CsrEffect.made (eff : CsrEffect s i rd csr reads writes f t) (valid : s.cfg.Valid)
    (at' : csrAt s.cfg.layout csr = some c) (machine : s.priv = .machine) :
    ∃ w, AccessMade s c rd reads writes f w t := by
  cases eff with
  | base absent _ => cases at'.symm.trans absent
  | illegal _ at'' denied _ =>
    rw [machine, csrAccessOk_machine valid at''] at denied
    cases denied
  | done c' u at'' _ write eq =>
    obtain rfl : c = c' := Option.some.inj (at'.symm.trans at'')
    rw [State.write_afterRead] at write
    obtain ⟨w, written, rfl⟩ := Option.map_eq_some_iff.mp write
    have frame := State.csrWrite_frame_of_writes written
    subst eq
    cases reads with
    | false =>
      exact ⟨w, written, by constructor <;> rfl, rfl, nofun, fun j _ => frame.reg j,
        frame.sameMemory.trans ⟨fun _ => rfl, rfl, rfl⟩⟩
    | true =>
      have control := (w.drew_sameControl 1).trans ((w.drew 1).setReg_sameControl rd (s.csrValue c (s.draw 0)))
      have memory := (frame.sameMemory.trans (w.drew_sameMemory 1)).trans
        ((w.drew 1).setReg_sameMemory rd (s.csrValue c (s.draw 0)))
      exact ⟨w, written, { control with }, rfl, fun _ => State.reg_setReg_same _ _,
        fun j other => (State.reg_setReg_ne _ _ other).trans (frame.reg j), { memory with }⟩

/-- In Machine Mode an access to one of the six CSRs that does not write `msubm` is made. -/
theorem State.csrAccess_made (valid : s.cfg.Valid) (at' : csrAt s.cfg.layout csr = some c) (machine : s.priv = .machine)
    (hw : writes = true → c ≠ .msubm) (i : Instr) (rd : RegIx) (reads : Bool) (f : Word → Word) :
    ∃ w t, s.csrAccess i rd csr reads writes f = .next t ∧ AccessMade s c rd reads writes f w t := by
  obtain ⟨t, completes⟩ := csrAccess_completes (i := i) (rd := rd) (reads := reads) (f := f) valid at' machine hw
  obtain ⟨w, made⟩ := (csrAccess_next completes).made valid at' machine
  exact ⟨w, t, completes, made⟩

end Access

/-- Settles O23: what is none of the six goes to `BaseStep`, and the six are denied in User Mode. -/
theorem csrAccessCheck : Obligations.CsrAccessCheck := by
  intro i csr s operand
  obtain ⟨rd, reads, f, -, access⟩ := exec_eq_csrAccess operand s
  refine ⟨fun absent => access.trans (State.csrAccess_of_absent absent), fun c at' valid => ?_⟩
  refine ⟨(valid.rights csr (csrAt_mem at')).2.2, fun user => ?_⟩
  have denied := user ▸ csrAccessOk_user valid at' (writesCsr i)
  exact ⟨_, access.trans (State.csrAccess_of_denied at' denied), State.raise_tookTrap (.refl s) rfl _ _, rfl,
    s.raise_sameContext _ _⟩

/-- Settles O24: the access check lets the write through, and `msubm` has no write. -/
theorem msubmWriteRefused : Obligations.MsubmWriteRefused := by
  intro i s operand writing valid machine
  obtain ⟨rd, reads, f, -, access⟩ := exec_eq_csrAccess operand s
  have at' := csrAt_msubm valid.addresses
  have allowed := machine ▸ csrAccessOk_machine valid at' true
  rw [access, writing, State.csrAccess_of_msubm at' allowed]

/-! The six instructions in Machine Mode. -/

section Forms

variable {s : State} {csr : BitVec 12} {c : Csr} (valid : s.cfg.Valid) (at' : csrAt s.cfg.layout csr = some c)
  (machine : s.priv = .machine)

/-- The instruction `i` completes in `t`: the control state is that of `w`, `rd` holds what reading the CSR `c` with the
draw `d` gives, other registers and memory are as before, and the next instruction follows. -/
def CsrInstrCompletes (s : State) (i : Instr) (rd : RegIx) (c : Csr) (d : Word) (w t : State) : Prop :=
  exec i s = .next t ∧ SameControl w t ∧ t.pc = (s.pc + 4).low s.cfg.xlen ∧ (rd ≠ 0 → t.reg rd = s.csrValue c d)
    ∧ (∀ j, j ≠ rd → t.reg j = s.reg j) ∧ t.reg 0 = 0 ∧ SameMemory s t

theorem AccessMade.completes {t w : State} {i : Instr} {rd : RegIx} {reads writes : Bool} {f : Word → Word}
    (made : AccessMade s c rd reads writes f w t) (next : exec i s = .next t) (read : rd ≠ 0 → reads = true) :
    CsrInstrCompletes s i rd c (s.draw 0) w t :=
  ⟨next, made.control, made.pc, fun nonzero => made.read (read nonzero) nonzero, made.regs, t.reg_zero, made.memory⟩

include valid at' machine

/-- A form that always writes, and reads only for an `rd` that is not `x0` (41 R121, R124). -/
theorem readWrite_completes {i : Instr} {rd : RegIx} (v : Word) (other : c ≠ .msubm)
    (form : exec i s = s.csrAccess i rd csr (rd != 0) true fun _ => v) :
    ∃ d w t, s.csrWrite c v = some w ∧ CsrInstrCompletes s i rd c d w t := by
  obtain ⟨w, t, next, made⟩ :=
    State.csrAccess_made (writes := true) valid at' machine (fun _ => other) i rd (rd != 0) fun _ => v
  exact ⟨_, w, t, made.write, made.completes (form.trans next) bne_iff_ne.mpr⟩

/-- A form that always reads, and writes unless its operand `x` is the one that stands for no write (41 R122, R123, R125,
R126). -/
theorem readModify_completes {α : Type} [DecidableEq α] {x noWrite : α} {i : Instr} {rd : RegIx} (f : Word → Word)
    (other : x ≠ noWrite → c ≠ .msubm) (form : exec i s = s.csrAccess i rd csr true (x != noWrite) f) :
    ∃ d w t, (if x = noWrite then w = s else s.csrWrite c (f (s.csrValue c d)) = some w)
      ∧ CsrInstrCompletes s i rd c d w t := by
  obtain ⟨w, t, next, made⟩ :=
    State.csrAccess_made valid at' machine (fun writes => other (bne_iff_ne.mp writes)) i rd true f
  refine ⟨_, w, t, ?_, made.completes (form.trans next) fun _ => rfl⟩
  have write := made.write
  by_cases unwritten : x = noWrite
  · simpa [unwritten, eq_comm] using write
  · simpa [unwritten] using write

end Forms

/-- Settles O25: both forms write their operand. -/
theorem csrReadWriteForms : Obligations.CsrReadWriteForms := fun s _ _ _ at' valid machine other =>
  ⟨fun rs1 => readWrite_completes valid at' machine (s.reg rs1) other rfl,
    fun uimm _ => readWrite_completes valid at' machine (uimmWord uimm) other rfl⟩

/-- Settles O26: both forms set the bits of their operand. -/
theorem csrReadSetForms : Obligations.CsrReadSetForms := fun s _ _ _ at' valid machine =>
  ⟨fun rs1 other => readModify_completes valid at' machine (fun t => t ||| s.reg rs1) other rfl,
    fun uimm _ other => readModify_completes valid at' machine (fun t => t ||| uimmWord uimm) other rfl⟩

/-- Settles O27: both forms clear the bits of their operand. -/
theorem csrReadClearForms : Obligations.CsrReadClearForms := fun s _ _ _ at' valid machine =>
  ⟨fun rs1 other => readModify_completes valid at' machine (fun t => t &&& ~~~(s.reg rs1)) other rfl,
    fun uimm _ other => readModify_completes valid at' machine (fun t => t &&& ~~~(uimmWord uimm)) other rfl⟩

/-- Settles O28: the access is made, and what it writes is at most the CSR named. -/
theorem csrInstructionFrame : Obligations.CsrInstructionFrame := by
  intro i s t csr c rd operand at' dest valid machine next
  obtain ⟨rd', reads, f, dest', access⟩ := exec_eq_csrAccess operand s
  obtain rfl : rd = rd' := Option.some.inj (dest.symm.trans dest')
  obtain ⟨w, made⟩ := (State.csrAccess_next (access.symm.trans next)).made valid at' machine
  have frame := State.csrWrite_frame_of_writes made.write
  have control := made.control
  refine ⟨control.cfg.trans frame.cfg, control.priv.trans frame.priv, control.typ.trans frame.typ,
    control.ptyp.trans frame.ptyp, made.memory, made.regs, ?_⟩
  rw [control.mie, control.mpie, control.mpp, control.mtvec, control.mepc, control.exccode, control.intFlag,
    control.mtval]
  exact State.csrWrite_otherFields made.write

end Sys2Proof.Machine
end

section
/-! PROOF. The Load, Store and AMO classes (spec 42 rules R142 to R144; O31 to O33). -/

namespace Sys2Proof.Machine

open Sys2Proof.Safety

/-! The tests that the three classes share, in the order of the priority rule (60 R174). -/

/-- An access of `n` bytes at `a`: code 3 at a breakpoint, the exception `m` where it is misaligned, `error` where it
suffers an access error, else `done`. -/
def State.access (s : State) (k : AccessKind) (a : Word) (n : Nat) (m : ExcCode) (error done : State) : State :=
  if s.hwBreak k a then s.raise .breakpoint a
  else if a.misaligned n then s.raise m a
  else if s.accessFault k a n then error
  else done

theorem State.loadClass_eq_access (s : State) (op : LoadOp) :
    s.loadClass op = s.access .load op.addr (widthBytes op.width) .loadAddrMisaligned
      (s.accessError .load op.addr ⟨some op.rd, none⟩ op.nextPc)
      ((s.setReg op.rd (op.result (s.load op.addr (widthBytes op.width)))).goto op.nextPc) := rfl

theorem State.storeClass_eq_access (s : State) (op : StoreOp) :
    s.storeClass op = s.access .store op.addr (widthBytes op.width) .storeAddrMisaligned
      (s.accessError .store op.addr ⟨none, some (op.addr, op.width)⟩ op.nextPc)
      ((s.store op.addr (widthBytes op.width) op.value).goto op.nextPc) := rfl

theorem State.amoClass_eq_access (s : State) (op : AmoOp) :
    s.amoClass op = s.access .amo op.addr (widthBytes op.width) .storeAddrMisaligned
      (s.accessError .store op.addr ⟨some op.rd, some (op.addr, op.width)⟩ op.nextPc)
      (((s.setReg op.rd (op.result (s.load op.addr (widthBytes op.width)))).store op.addr (widthBytes op.width)
        (op.stored (s.load op.addr (widthBytes op.width)))).goto op.nextPc) := rfl

theorem Word.misaligned_iff {a : Word} {n : Nat} : a.misaligned n = true ↔ a.toNat % n ≠ 0 := bne_iff_ne

section Access

variable {s : State} {k : AccessKind} {a : Word} {n : Nat} {m : ExcCode} {error done : State}

theorem State.access_of_break (hit : s.hwBreak k a = true) : s.access k a n m error done = s.raise .breakpoint a :=
  if_pos hit

variable (clear : s.hwBreak k a = false)

include clear

theorem State.access_of_misaligned (misaligned : a.toNat % n ≠ 0) : s.access k a n m error done = s.raise m a := by
  rw [access, if_neg (Bool.eq_false_iff.mp clear), if_pos (Word.misaligned_iff.mpr misaligned)]

variable (aligned : a.toNat % n = 0)

include aligned

theorem State.access_of_fault (fault : s.accessFault k a n = true) : s.access k a n m error done = error := by
  rw [access, if_neg (Bool.eq_false_iff.mp clear), if_neg (mt Word.misaligned_iff.mp (not_not.mpr aligned)),
    if_pos fault]

theorem State.access_of_noFault (noFault : s.accessFault k a n = false) : s.access k a n m error done = done := by
  rw [access, if_neg (Bool.eq_false_iff.mp clear), if_neg (mt Word.misaligned_iff.mp (not_not.mpr aligned)),
    if_neg (Bool.eq_false_iff.mp noFault)]

end Access

/-! What an access error leaves (42 R142, R143): the spoilt register and bytes are draws, and the exception is taken or
the fault is posted. -/

@[simp] theorem State.post_written (s : State) (f : PendingFault) : (s.post f).written = s.written := by rw [post_eq]

@[simp] theorem State.setReg_written (s : State) (i : RegIx) (v : Word) : (s.setReg i v).written = s.written := by
  rw [setReg_eq]

@[simp] theorem State.setReg_addrs (s : State) (i : RegIx) (v : Word) (a : Word) (n : Nat) :
    (s.setReg i v).addrs a n = s.addrs a n := (s.setReg_sameControl i v).addrs a n

theorem State.pendingFaults_congr {s t : State} (h : t.pending = s.pending) : t.pendingFaults = s.pendingFaults := by
  rw [pendingFaults, h, pendingFaults]

/-- The spoilt bytes are recorded as written (20 R71). -/
theorem State.mem_spoil_written {s : State} {r : Option RegIx} {a : Word} {w : Width} {b : Nat} :
    b ∈ (s.spoil ⟨r, some (a, w)⟩).written ↔ b ∈ s.written ∨ b ∈ s.addrs a (widthBytes w) := by
  cases r <;> simp [spoil, spoilReg, spoilBytes, mem_markWritten]

section AccessError

variable {s : State} {c : AsyncCode} {a : Word} {p : Spoilt} {nextPc : Word}

/-- The data after an access error are the spoilt ones, whichever way it is reported. -/
theorem State.accessError_data : (∀ i, (s.accessError c a p nextPc).reg i = ((s.drew 1).spoil p).reg i)
    ∧ (s.accessError c a p nextPc).mem = ((s.drew 1).spoil p).mem
    ∧ (s.accessError c a p nextPc).written = ((s.drew 1).spoil p).written := by
  simp only [accessError]
  split
  · exact ⟨fun _ => rfl, rfl, rfl⟩
  · exact ⟨State.post_reg _ _, State.post_mem _ _, State.post_written _ _⟩

theorem State.accessError_reg {j : RegIx} (unspoilt : p.reg ≠ some j) :
    (s.accessError c a p nextPc).reg j = s.reg j := (accessError_data.1 j).trans (spoil_reg unspoilt)

theorem State.accessError_mem_read {b : Nat} (unspoilt : ∀ q, p.bytes = some q → b ∉ s.addrs q.1 (widthBytes q.2)) :
    (s.accessError c a p nextPc).mem.read b = s.mem.read b :=
  (congrArg (Memory.read · b) accessError_data.2.1).trans (spoil_mem_read (s := s.drew 1) unspoilt)

theorem State.mem_accessError_written {r : Option RegIx} {d : Word} {w : Width} {b : Nat} :
    b ∈ (s.accessError c a ⟨r, some (d, w)⟩ nextPc).written ↔ b ∈ s.written ∨ b ∈ s.addrs d (widthBytes w) := by
  rw [accessError_data.2.2]
  exact mem_spoil_written

/-- An access error is taken at the access, or posted while the instruction completes. -/
theorem State.accessError_reported :
    (TookTrap s (s.accessError c a p nextPc) c.exc s.pc ∧ (s.accessError c a p nextPc).mtval = a
      ∧ (s.accessError c a p nextPc).pending = s.pending)
    ∨ (Reaches s (s.accessError c a p nextPc) nextPc ∧ SameControl s (s.accessError c a p nextPc)
      ∧ ∀ f, f ∈ (s.accessError c a p nextPc).pendingFaults ↔ f ∈ s.pendingFaults ∨ f = ⟨c, a⟩) := by
  have spoilt : SameControl s ((s.drew 1).spoil p) := (s.drew_sameControl 1).trans (spoil_sameControl _ p)
  have pending : ((s.drew 1).spoil p).pending = s.pending := spoil_pending _ p
  simp only [accessError]
  split
  · exact .inl ⟨raise_tookTrap spoilt (spoil_pc _ p) _ _, rfl, pending⟩
  · have posted := spoilt.trans (post_sameControl _ ⟨c, a⟩)
    have before : ((s.drew 1).spoil p).pendingFaults = s.pendingFaults := pendingFaults_congr pending
    exact .inr ⟨goto_reaches posted.cfg nextPc, posted.trans (goto_sameControl _ _), fun _ => before ▸ mem_post⟩

end AccessError

/-! The three classes. -/

/-- Settles O31: the tests in their order, an access error that spoils `rd` alone, and a register write. -/
theorem loadClass : Obligations.LoadClass := by
  intro s op
  rw [State.loadClass_eq_access]
  refine ⟨State.access_of_break, fun clear => ⟨State.access_of_misaligned clear, fun aligned => ⟨fun fault => ?_,
    fun noFault => ?_⟩⟩⟩
  · rw [State.access_of_fault clear aligned fault]
    exact ⟨fun j other => State.accessError_reg fun e => other (Option.some.inj e).symm,
      fun b => State.accessError_mem_read nofun, State.accessError_reported⟩
  · rw [State.access_of_noFault clear aligned noFault]
    have control := s.setReg_sameControl op.rd (op.result (s.load op.addr (widthBytes op.width)))
    have memory := s.setReg_sameMemory op.rd (op.result (s.load op.addr (widthBytes op.width)))
    exact ⟨State.goto_reaches control.cfg _, control.trans (State.goto_sameControl _ _), { memory with },
      fun nonzero => s.reg_setReg_same _ nonzero, fun j other => s.reg_setReg_ne _ other⟩

/-- Settles O32: the tests in their order, an access error that spoils the addressed bytes, and a store. -/
theorem storeClass : Obligations.StoreClass := by
  intro s op
  rw [State.storeClass_eq_access]
  refine ⟨State.access_of_break, fun clear => ⟨State.access_of_misaligned clear, fun aligned => ?_⟩⟩
  cases fault : s.accessFault .store op.addr (widthBytes op.width) with
  | true =>
    rw [State.access_of_fault clear aligned fault]
    refine ⟨fun j => State.accessError_reg nofun, fun b outside => State.accessError_mem_read ?_,
      fun b => State.mem_accessError_written, fun _ => State.accessError_reported, nofun⟩
    rintro _ ⟨⟩
    exact outside
  | false =>
    rw [State.access_of_noFault clear aligned fault]
    obtain ⟨outside, control, regs, -, pending, written⟩ := storeFrame s op.addr op.width op.value
    exact ⟨regs, outside, written, nofun, fun _ => ⟨State.goto_reaches control.cfg _,
      control.trans (State.goto_sameControl _ _), pending, rfl⟩⟩

/-- Settles O33: the tests in their order, an access error that spoils `rd` and the addressed bytes, and a register
write with a store. -/
theorem amoClass : Obligations.AmoClass := by
  intro s op
  rw [State.amoClass_eq_access]
  refine ⟨State.access_of_break, fun clear => ⟨State.access_of_misaligned clear, fun aligned => ?_⟩⟩
  cases fault : s.accessFault .amo op.addr (widthBytes op.width) with
  | true =>
    rw [State.access_of_fault clear aligned fault]
    refine ⟨fun j other => State.accessError_reg fun e => other (Option.some.inj e).symm,
      fun b outside => State.accessError_mem_read ?_, fun b => State.mem_accessError_written,
      fun _ => State.accessError_reported, nofun⟩
    rintro _ ⟨⟩
    exact outside
  | false =>
    rw [State.access_of_noFault clear aligned fault]
    have read := s.setReg_sameControl op.rd (op.result (s.load op.addr (widthBytes op.width)))
    obtain ⟨outside, stored, regs, -, pending, written⟩ :=
      storeFrame (s.setReg op.rd (op.result (s.load op.addr (widthBytes op.width)))) op.addr op.width
        (op.stored (s.load op.addr (widthBytes op.width)))
    rw [State.setReg_addrs, State.setReg_mem] at outside
    rw [State.setReg_addrs, State.setReg_written] at written
    have control := read.trans stored
    exact ⟨fun j other => (regs j).trans (s.reg_setReg_ne _ other), outside, written, nofun, fun _ =>
      ⟨State.goto_reaches control.cfg _, control.trans (State.goto_sameControl _ _),
        pending.trans (s.setReg_pending _ _), fun nonzero => (regs op.rd).trans (s.reg_setReg_same _ nonzero), by simp⟩⟩

end Sys2Proof.Machine
end

section
/-! PROOF. A fetch that traps, and a breakpoint at the fetch (spec 42 rules R140, R146, 60 rule R174; O41). -/

namespace Sys2Proof.Machine

open Sys2Proof.Safety

/-! Steps that take an exception. -/

/-- A step that raises at the pc, whether or not the base set has run, takes the exception. -/
theorem stepTakes_of_raise {s u : State} {e : ExcCode} {v : Word} (at' : u = s.tick ∨ u = s.tick.countBase)
    (next : step s = .next (u.raise e v)) : StepTakes s e v := by
  have control : SameControl s u := by obtain rfl | rfl := at' <;> constructor <;> rfl
  have pc : u.pc = s.pc := by obtain rfl | rfl := at' <;> rfl
  have context : SameContext s.tick u := by
    obtain rfl | rfl := at'
    exacts [.refl _, State.countBase_sameContext _]
  have pending : u.pendingFaults = s.pendingFaults :=
    (State.pendingFaults_congr context.memory.pending).trans s.tick_pendingFaults
  exact ⟨_, next, State.raise_tookTrap control pc e v, rfl, context.regs, context.memory.bytes, context.mtvec, pending⟩

/-- A fetch that traps is a step that takes the exception, with the pc in `mtval` (42 R140). -/
theorem stepTakes_of_fetch_trap {s : State} {e : ExcCode} {v : Word} (quiet : NoInterrupts s)
    (waits : s.reports = false) (fetch : s.fetch = .trap e v) : StepTakes s e s.pc := by
  obtain ⟨rfl, -⟩ := State.fetch_trap fetch
  have run : runAt s.tick = .next (s.tick.raise e s.pc) := by simp only [runAt, s.fetch_tick, fetch]
  exact stepTakes_of_raise (.inl rfl) ((step_of_waits quiet waits).trans run)

/-- A breakpoint at the pc is taken where the instruction there takes no smaller code (60 R174). -/
theorem stepTakes_breakpoint {s : State} {bs : List Byte} (quiet : NoInterrupts s) (waits : s.reports = false)
    (hit : s.hwBreak .fetch s.pc = true) (fetch : s.fetch = .bytes bs) (larger : s.beforeBreakpoint bs = false) :
    StepTakes s .breakpoint s.pc := by
  have taken : s.takesBreakpoint bs = true := by rw [State.takesBreakpoint, hit, larger]; rfl
  have run : runAt s.tick = .next (s.tick.raise .breakpoint s.pc) := by
    simp only [runAt, s.fetch_tick, fetch, s.takesBreakpoint_tick, taken, if_true]
    rfl
  exact stepTakes_of_raise (.inl rfl) ((step_of_waits quiet waits).trans run)

/-! What is at the pc against the breakpoint (60 R174). -/

/-- Bytes that no store wrote are fetched, unless the fetch traps (20 R71). -/
theorem State.fetch_ne_modified {s : State} (fresh : ∀ a ∈ s.addrs s.pc s.fetchLen, a ∉ s.written) :
    s.fetch ≠ .modified := by
  have unwritten : ¬ (s.addrs s.pc s.fetchLen).any (fun a => s.written.contains a) = true := by simpa using fresh
  rw [fetch, if_neg unwritten]
  repeat' split
  all_goals nofun

theorem State.beforeBreakpoint_of_decoded {s : State} {bs rest : List Byte} {i : Instr}
    (decoded : decode bs = .ok (i, rest)) : s.beforeBreakpoint bs = s.instrBeforeBreakpoint i := by
  simp only [beforeBreakpoint, decoded]

theorem State.beforeBreakpoint_of_error {s : State} {bs : List Byte} {err : DecodeError}
    (decoded : decode bs = .error err) : s.beforeBreakpoint bs = s.otherBeforeBreakpoint (wordOfBytes bs) := by
  simp only [beforeBreakpoint, decoded]

/-- Where the bytes at the pc win over a breakpoint, running them takes the smaller code. -/
theorem runAt_beforeBreakpoint {s : State} {bs : List Byte} (fetch : s.fetch = .bytes bs)
    (smaller : s.beforeBreakpoint bs = true) : s.TakesBelow 3 (runAt s) := by
  have clear : s.takesBreakpoint bs = false := State.takesBreakpoint_eq_false (.inr smaller)
  cases decoded : decode bs with
  | ok r =>
    rw [runAt_of_decoded fetch clear decoded]
    exact exec_beforeBreakpoint (State.beforeBreakpoint_of_decoded decoded ▸ smaller)
  | error err =>
    rw [runAt_of_other fetch clear decoded]
    exact stepOther_beforeBreakpoint (State.beforeBreakpoint_of_error decoded ▸ smaller)

/-- A CSR instruction for one of the six CSRs wins over a breakpoint where its access is denied (41 R120). -/
theorem State.instrBeforeBreakpoint_of_csr {s : State} {i : Instr} {csr : BitVec 12} {c : Csr}
    (operand : csrOperand i = some csr) (at' : csrAt s.cfg.layout csr = some c) :
    s.instrBeforeBreakpoint i = !csrAccessOk s.cfg csr s.priv (writesCsr i) := by
  have access : s.instrBeforeBreakpoint i = s.csrBeforeBreakpoint i csr (writesCsr i) := by
    cases i <;> cases operand <;> rfl
  simp only [access, csrBeforeBreakpoint, at']

/-- A breakpoint at bytes that no store wrote: the step takes it, or a smaller code. -/
theorem stepTakes_atMost_breakpoint {s : State} (quiet : NoInterrupts s) (waits : s.reports = false)
    (hit : s.hwBreak .fetch s.pc = true) (fresh : ∀ a ∈ s.addrs s.pc s.fetchLen, a ∉ s.written) :
    ∃ e v, (codeBits e).toNat ≤ 3 ∧ StepTakes s e v := by
  cases fetch : s.fetch with
  | modified => exact absurd fetch (State.fetch_ne_modified fresh)
  | trap e v =>
    refine ⟨e, s.pc, ?_, stepTakes_of_fetch_trap quiet waits fetch⟩
    obtain ⟨-, ⟨rfl, -⟩ | rfl⟩ := State.fetch_trap fetch <;> decide
  | bytes bs =>
    cases smaller : s.beforeBreakpoint bs with
    | false => exact ⟨.breakpoint, s.pc, by decide, stepTakes_breakpoint quiet waits hit fetch smaller⟩
    | true =>
      obtain ⟨e, v, u, below, at', next⟩ := runAt_beforeBreakpoint (s.fetch_tick.trans fetch) smaller
      exact ⟨e, v, Nat.le_of_lt below, stepTakes_of_raise at' ((step_of_waits quiet waits).trans next)⟩

/-- Settles O41: a trap of the fetch, then a breakpoint against each instruction that may stand there. -/
theorem stepTakesFetchException : Obligations.StepTakesFetchException := by
  intro s quiet waits
  refine ⟨fun _ _ => stepTakes_of_fetch_trap quiet waits, stepTakes_atMost_breakpoint quiet waits,
    fun hit bs fetch => ?_⟩
  have breakpoint := stepTakes_breakpoint quiet waits hit fetch
  have runs : ∀ {i rest}, decode bs = .ok (i, rest) → s.instrBeforeBreakpoint i = true → step s = exec i s.tick :=
    fun decoded smaller => (stepRunsDecoded s bs _ _ quiet waits fetch decoded
      (.inr ((State.beforeBreakpoint_of_decoded decoded).trans smaller))).1
  refine ⟨breakpoint, fun err decoded long illegal => ?_, fun rest decoded user => ?_,
    fun i rest csr c decoded operand at' valid user => ?_, fun i rest decoded which => breakpoint ?_⟩
  · have smaller : s.otherBeforeBreakpoint (wordOfBytes bs) = true := by
      simp [State.otherBeforeBreakpoint, isCompressedBreakpoint_eq_false_iff.mpr long, illegal]
    exact stepTakes_of_raise (.inl rfl) ((stepRunsOther s bs err quiet waits fetch decoded
      (.inr ((State.beforeBreakpoint_of_error decoded).trans smaller)) long).1 illegal)
  · have word : encode .mret = 0x30200073#32 := by decide
    have smaller : s.instrBeforeBreakpoint .mret = true := beq_iff_eq.mpr user
    exact word ▸ stepTakes_of_raise (.inl rfl) ((runs decoded smaller).trans (exec_mret_of_user user))
  · have denied : csrAccessOk s.cfg csr s.priv (writesCsr i) = false := user ▸ csrAccessOk_user valid at' _
    have smaller : s.instrBeforeBreakpoint i = true := by
      rw [State.instrBeforeBreakpoint_of_csr operand at', denied, Bool.not_false]
    obtain ⟨rd, reads, f, -, access⟩ := exec_eq_csrAccess operand s.tick
    exact stepTakes_of_raise (.inl rfl)
      ((runs decoded smaller).trans (access.trans (State.csrAccess_of_denied at' denied)))
  · rw [State.beforeBreakpoint_of_decoded decoded]
    obtain rfl | rfl | ⟨machine, rfl | ⟨valid, csr, c, operand, at'⟩⟩ := which
    · rfl
    · rfl
    · rw [State.instrBeforeBreakpoint, machine]
      rfl
    · rw [State.instrBeforeBreakpoint_of_csr operand at', machine, csrAccessOk_machine valid at', Bool.not_true]

end Sys2Proof.Machine
end

section
/-! PROOF. What a step does to the mode, the sub-mode and the CSRs (spec 60 rules R200, R201, 10 rules R35, R41; O49 to
O52). -/

namespace Sys2Proof.Machine

open Sys2Proof.Safety

/-! What `mstatus.MPP` names (10 R28). -/

/-- A mode that a value of `mstatus.MPP` names has that value as its encoding. -/
theorem modeBits_of_configuredMode {cfg : Platform} {mpp : BitVec PRIV_BITS} {m : Mode}
    (h : configuredMode cfg mpp = some m) : modeBits cfg m = mpp := by
  simp only [configuredMode] at h
  split at h
  · rename_i named
    cases h
    exact named.symm
  · split at h
    · rename_i named
      cases h
      exact (beq_iff_eq.mp (Bool.and_eq_true _ _ ▸ named).2).symm
    · cases h

/-! The ways the control state moves. -/

/-- What any instruction but an `mret` that returns, and any delivery, does to the control state: it keeps the mode and
the sub-mode, and in User Mode the CSRs too, or it takes one exception at the pc. -/
inductive ControlEffect (s t : State) : Prop where
  | kept (priv : t.priv = s.priv) (typ : t.typ = s.typ) (ptyp : t.ptyp = s.ptyp)
      (user : s.cfg.Valid → s.priv = .user → SameControl s t)
  | trap (u : State) (e : ExcCode) (v : Word) (control : SameControl s u) (pc : u.pc = s.pc)
      (code : s.mayRaise e = true) (eq : t = u.raise e v)

theorem ControlEffect.of_sameControl {s t : State} (h : SameControl s t) : ControlEffect s t :=
  .kept h.priv h.typ h.ptyp fun _ _ => h

theorem State.raise_control {s : State} {e : ExcCode} (code : s.mayRaise e = true) (v : Word) :
    ControlEffect s (s.raise e v) := .trap s e v (.refl s) rfl code rfl

/-- A base instruction reaches no CSR from User Mode (10 R35; log 11). -/
theorem BaseEffect.control {w : BitVec 32} {s t : State} (eff : BaseEffect w s t) : ControlEffect s t := by
  cases eff with
  | done v control data pc =>
    obtain same | ⟨reached, -, priv, typ, ptyp⟩ := control
    · exact .of_sameControl same
    · exact .kept priv typ ptyp fun _ user => by
        cases user.symm.trans (State.reachesCsrs_iff.mp reached).2
  | trap u e v control data pc code illegal sync eq => exact .trap u e v control pc code eq

/-- A CSR access that is made keeps the mode and the sub-mode, and is not made in User Mode (41 R120). -/
theorem CsrEffect.control {s t : State} {i : Instr} {rd : RegIx} {csr : BitVec 12} {reads writes : Bool}
    {f : Word → Word} (eff : CsrEffect s i rd csr reads writes f t) : ControlEffect s t := by
  cases eff with
  | base _ eq => exact eq ▸ (s.runBase_effect _).control
  | illegal _ _ _ eq => exact eq ▸ State.raise_control rfl _
  | done c w at' allowed write eq =>
    rw [State.write_afterRead] at write
    obtain ⟨u, written, rfl⟩ := Option.map_eq_some_iff.mp write
    have frame := State.csrWrite_frame_of_writes written
    have after : t.priv = u.priv ∧ t.typ = u.typ ∧ t.ptyp = u.ptyp := by
      subst eq
      cases reads with
      | false => exact ⟨rfl, rfl, rfl⟩
      | true =>
        have same := (u.drew 1).setReg_sameControl rd (s.csrValue c (s.draw 0))
        exact ⟨same.priv, same.typ, same.ptyp⟩
    obtain ⟨priv, typ, ptyp⟩ := after
    exact .kept (priv.trans frame.priv) (typ.trans frame.typ) (ptyp.trans frame.ptyp) fun valid user => by
      cases user.symm.trans (machine_of_allowed valid at' allowed)

/-- The same of every instruction of the table but an `mret` that returns. -/
theorem ExecEffect.control {s t : State} {i : Instr} (eff : ExecEffect s i t) :
    ControlEffect s t
      ∨ i = .mret ∧ s.priv = .machine ∧ ∃ m, configuredMode s.cfg s.mpp = some m ∧ t = s.trapReturn m := by
  cases eff with
  | ecall _ eq => exact .inl (.trap (s.drew 1) _ _ (s.drew_sameControl 1) rfl s.mayRaise_ecall eq)
  | ebreak _ eq => exact .inl (.trap (s.drew 1) _ _ (s.drew_sameControl 1) rfl rfl eq)
  | mretUser _ _ eq => exact .inl (eq ▸ State.raise_control rfl _)
  | mret m is machine mode eq => exact .inr ⟨is, machine, m, mode, eq⟩
  | csr _ _ _ _ _ _ _ _ _ eff => exact .inl eff.control

/-- The waits of the reporter are no control state. -/
theorem ControlEffect.of_tick {s t : State} (eff : ControlEffect s.tick t) : ControlEffect s t := by
  have same := s.tick_sameControl
  cases eff with
  | kept priv typ ptyp user => exact .kept priv typ ptyp fun valid hu => same.trans (user valid hu)
  | trap u e v control pc code eq =>
    exact .trap u e v (same.trans control) pc (State.mayRaise_congr same e ▸ code) eq

theorem State.unpost_sameControl (s : State) (f : PendingFault) : SameControl s (s.unpost f) := by constructor <;> rfl

/-- Of a step, only an `mret` that returns does anything else to the control state (60 R200, R201). -/
theorem step_control {s t : State} (h : step s = .next t) :
    ControlEffect s t
      ∨ s.priv = .machine ∧ (∃ bs rest, s.fetch = .bytes bs ∧ decode bs = .ok (.mret, rest))
        ∧ ∃ m, configuredMode s.cfg s.mpp = some m ∧ t = s.tick.trapReturn m := by
  cases step_next h with
  | deliver _ eq =>
    have code : ∀ c : AsyncCode, s.mayRaise c.exc = true := fun c => by cases c <;> rfl
    exact .inl (.trap _ _ _ (s.unpost_sameControl _) rfl (code _) eq)
  | fetchTrap e v _ fetch eq => exact .inl (.trap _ e v s.tick_sameControl rfl (State.fetch_trap_code fetch) eq)
  | breakpoint _ _ _ _ eq => exact .inl (.trap _ _ _ s.tick_sameControl rfl rfl eq)
  | other _ _ _ _ _ eq => exact .inl (eq ▸ (s.tick.runOther_effect _).control).of_tick
  | instr bs rest i _ fetch decoded eff =>
    obtain effect | ⟨rfl, machine, returned⟩ := eff.control
    · exact .inl effect.of_tick
    · exact .inr ⟨machine, ⟨bs, rest, fetch, decoded⟩, returned⟩

/-! The statements. -/

/-- Settles O49: an `mret` does not return in User Mode, and everything else keeps the control state there or takes an
exception. -/
theorem userModeLeftOnlyByTrap : Obligations.UserModeLeftOnlyByTrap := by
  intro s t valid user _ h
  obtain effect | ⟨machine, -⟩ := step_control h
  · cases effect with
    | kept _ _ _ same => exact .inl (same valid user)
    | trap u e v control pc _ eq =>
      subst eq
      exact .inr ⟨e, State.raise_tookTrap control pc e v, control.mtvec, control.cfg⟩
  · cases user.symm.trans machine

/-- Settles O51: everything but an `mret` that returns keeps Machine Mode or enters it. -/
theorem userModeEnteredOnlyByMret : Obligations.UserModeEnteredOnlyByMret := by
  intro s t machine _ h user
  obtain effect | ⟨-, fetched, m, mode, rfl⟩ := step_control h
  · have stays : t.priv = .machine := by
      cases effect with
      | kept priv => exact priv.trans machine
      | trap u e v _ _ _ eq => exact eq ▸ u.raise_priv e v
    cases user.symm.trans stays
  · obtain rfl : m = .user := user
    exact ⟨hasU_of_configuredMode mode, (modeBits_of_configuredMode mode).symm,
      State.reaches_of_target (s.tick.trapReturn_pc .user), fetched⟩

/-- The codes that User Mode can raise: not 11, and 0 only without "C" (60 R162, R171). -/
theorem State.codeBits_of_mayRaise {s : State} {e : ExcCode} (user : s.priv = .user) (code : s.mayRaise e = true) :
    (codeBits e).toNat ≤ 8 ∧ (s.cfg.hasC = true → codeBits e ≠ 0) := by
  cases e with
  | instrAddrMisaligned => exact ⟨by decide, fun hasC => by cases hasC.symm.trans (noC_of_mayRaise code)⟩
  | ecallFromM => cases user.symm.trans (machine_of_mayRaise code)
  | _ => exact ⟨by decide, fun _ => by decide⟩

/-- Settles O50: the mode changes only where an exception is taken, of a code that User Mode can raise. -/
theorem codesFromUserMode : Obligations.CodesFromUserMode := by
  intro s t user _ h left
  obtain effect | ⟨machine, -⟩ := step_control h
  · cases effect with
    | kept priv => cases left.symm.trans (priv.trans user)
    | trap u e v _ _ code eq =>
      subst eq
      exact State.codeBits_of_mayRaise user code
  · cases user.symm.trans machine

/-- Settles O52, along the ways a step moves the control state. -/
theorem subModeMoves : Obligations.SubModeMoves := by
  intro s t _ h
  obtain effect | ⟨-, fetched, m, -, rfl⟩ := step_control h
  · cases effect with
    | kept _ typ ptyp => exact .inl ⟨typ, ptyp⟩
    | trap u e v control pc _ eq => exact .inr (.inl ⟨e, eq ▸ State.raise_tookTrap control pc e v⟩)
  · exact .inr (.inr ⟨s.tick.trapReturn_typ m, fetched⟩)

end Sys2Proof.Machine
end

section
/-! PROOF. Trap entry and trap return (spec 60 rules R162 to R199, 10 rule R33; O9 to O12, O15, O16, O20). -/

namespace Sys2Proof.Machine

open Sys2Proof.Safety

/-! The codes (60 R162 to R171). -/

/-- The exception of a code of Table 3-1; any other number is read as the last. -/
def excOfCode (c : Word) : ExcCode :=
  match c.toNat with
  | 0 => .instrAddrMisaligned
  | 1 => .instrAccessFault
  | 2 => .illegalInstruction
  | 3 => .breakpoint
  | 4 => .loadAddrMisaligned
  | 5 => .loadAccessFault
  | 6 => .storeAddrMisaligned
  | 7 => .storeAccessFault
  | 8 => .ecallFromU
  | _ => .ecallFromM

theorem excOfCode_codeBits : Function.LeftInverse excOfCode codeBits := fun e => by cases e <;> rfl

/-- Settles O9: a code names its exception, so no two have the same. -/
theorem exceptionCodeTable : Obligations.ExceptionCodeTable :=
  ⟨rfl, rfl, rfl, rfl, rfl, rfl, rfl, rfl, rfl, rfl, fun _ _ h => excOfCode_codeBits.injective h⟩

/-! Trap entry (60 R184). -/

/-- Trap entry at any `epc` is taking the exception there. -/
theorem State.trapEntry_tookTrap (s : State) (e : ExcCode) (epc tval : Word) :
    TookTrap s (s.trapEntry e epc tval) e epc where
  pc := reaches_of_target rfl
  code := rfl
  intFlag := rfl
  mepc := rfl
  mpie := rfl
  mie := rfl
  mpp := rfl
  priv := rfl
  ptyp := rfl
  typ := rfl

/-- Where the low 6 bits of `mtvec` are zero, its exceptions enter at `mtvec` itself (10 R33). -/
theorem State.target_excEntryPc {s : State} (aligned : s.mtvec.extractLsb' 0 6 = 0#6) :
    s.target (excEntryPc s.cfg s.mtvec) = s.mtvec := by
  have even : s.mtvec.getLsbD 0 = false := by simpa using congrArg (·.getLsbD 0) aligned
  have entry : excEntryPc s.cfg s.mtvec = s.mtvec := if_pos aligned
  rw [entry, target_of_even s fun _ => even]

/-- Settles O10, field by field. -/
theorem trapEntryStatus : Obligations.TrapEntryStatus := by
  intro s e epc tval
  have took := s.trapEntry_tookTrap e epc tval
  exact ⟨took.code, took.intFlag, took.mpie, took.mie, took.mpp, took.priv, took.ptyp, took.typ⟩

/-- Settles O11: the updates, and that bit 0 of an aligned `mtvec` is already clear. -/
theorem trapEntryUpdates : Obligations.TrapEntryUpdates := fun s e epc tval =>
  ⟨s.trapEntry_tookTrap e epc tval, s.trapEntry_mtval e epc tval, State.target_excEntryPc⟩

/-- Settles O12, field by field. -/
theorem trapEntryKeepsContext : Obligations.TrapEntryKeepsContext := fun _ _ _ _ =>
  ⟨fun _ => rfl, ⟨fun _ => rfl, rfl, rfl⟩, rfl, rfl⟩

/-- Settles O20: the inner exception saves what the outer one left, Machine Mode with interrupts off. -/
theorem nestedTrapOverwrites : Obligations.NestedTrapOverwrites := by
  intro s e f v w
  have outer : TookTrap s (s.raise e v) e s.pc := s.trapEntry_tookTrap e s.pc v
  have inner : TookTrap (s.raise e v) ((s.raise e v).raise f w) f (s.raise e v).pc :=
    (s.raise e v).trapEntry_tookTrap f _ w
  exact ⟨inner.mepc, inner.code, (s.raise e v).raise_mtval f w, inner.mpie.trans outer.mie,
    inner.mpp.trans (congrArg (modeBits s.cfg) outer.priv), inner.ptyp.trans outer.typ⟩

/-! Trap return (60 R195). -/

/-- Trap return leaves the context alone (60 R196, R199). -/
theorem State.trapReturn_sameContext (s : State) (m : Mode) : SameContext s (s.trapReturn m) :=
  ⟨fun _ => rfl, ⟨fun _ => rfl, rfl, rfl⟩, rfl, rfl⟩

/-- In Machine Mode with a configured mode in `mstatus.MPP`, `mret` returns to that mode (40 R102). -/
theorem exec_mret_of_configured {s : State} (machine : s.priv = .machine)
    (configured : s.mpp = s.cfg.privM ∨ (s.cfg.hasU = true ∧ s.mpp = s.cfg.privU)) :
    ∃ m, exec .mret s = .next (s.trapReturn m) ∧ modeBits s.cfg m = s.mpp := by
  have named : configuredMode s.cfg s.mpp ≠ none := fun none => by
    obtain ⟨notM, notU⟩ := configuredMode_eq_none_iff.mp none
    exact configured.elim notM fun ⟨hasU, isU⟩ => notU hasU isU
  obtain ⟨m, mode⟩ := Option.ne_none_iff_exists'.mp named
  exact ⟨m, exec_mret_of_mode machine mode, modeBits_of_configuredMode mode⟩

/-- Settles O15: the fields of a trap return, to the mode that `mstatus.MPP` named. -/
theorem mretRestoresStatus : Obligations.MretRestoresStatus := by
  intro s machine configured
  obtain ⟨m, returns, encoding⟩ := exec_mret_of_configured machine configured
  exact ⟨_, returns, s.trapReturn_mie m, s.trapReturn_mpie m, encoding, s.trapReturn_mpp m, s.trapReturn_typ m⟩

/-- Settles O16: a trap return is a control transfer to `mepc`. -/
theorem mretReturnsToMepc : Obligations.MretReturnsToMepc := by
  intro s machine configured
  obtain ⟨m, returns, -⟩ := exec_mret_of_configured machine configured
  exact ⟨_, returns, State.reaches_of_target (s.trapReturn_pc m), s.trapReturn_sameContext m⟩

end Sys2Proof.Machine
end

section
/-! PROOF. The fault reporter: what it delivers, when, and that it delivers every fault (spec 60 rules R161, R174, R175;
O36 to O38). -/

namespace Sys2Proof.Machine

open Sys2Proof.Safety

/-- While the reporter delivers, the step is a delivery (60 R175). -/
theorem step_of_reports {s : State} (quiet : NoInterrupts s) (reports : s.reports = true) :
    step s = .next s.deliver := by
  have hq : s.interrupted = false := quiet
  rw [step, if_neg (by simp [hq]), if_pos reports]

/-- A delivery takes the exception of the chosen fault at the instruction not yet executed (60 R175). -/
theorem State.deliver_tookTrap (s : State) : TookTrap s s.deliver s.chosenFault.code.exc s.pc :=
  raise_tookTrap (s.unpost_sameControl _) rfl _ _

/-- The chosen fault leaves `pending_faults`, and no other does. -/
theorem State.mem_deliver {s : State} {g : PendingFault} :
    g ∈ s.deliver.pendingFaults ↔ g ∈ s.pendingFaults ∧ g ≠ s.chosenFault := mem_unpost

/-- No pending fault has a smaller code than the chosen one (60 R174). -/
theorem State.chosenFault_smallest {s : State} {g : PendingFault} (hg : g ∈ s.pendingFaults) :
    (codeBits s.chosenFault.code.exc).toNat ≤ (codeBits g.code.exc).toNat := by
  have due := chosenFault_mem_due (List.ne_nil_of_mem hg)
  cases code : g.code with
  | load => rw [dueFaults_smallest due hg code]
  | store => cases s.chosenFault.code <;> decide

/-- Settles O36: the fault delivered is the chosen one. -/
theorem reporterDeliversSmallestCode : Obligations.ReporterDeliversSmallestCode := fun s quiet reports =>
  ⟨_, s.chosenFault, step_of_reports quiet reports,
    State.chosenFault_mem (State.pendingFaults_ne_nil_of_reports reports), fun _ => State.chosenFault_smallest,
    s.deliver_tookTrap, s.deliver_mtval, fun _ => State.mem_deliver, fun _ => rfl, fun _ => rfl, rfl⟩

/-- Settles O37: no fault has waited to its end, so the reporter lets the step pass. -/
theorem reporterWaits : Obligations.ReporterWaits := by
  intro s quiet waiting
  have waits : s.reports = false := Bool.eq_false_iff.mpr fun reports => by
    obtain ⟨q, pending, ended⟩ := s.reports_iff.mp reports
    exact waiting q pending ended
  exact step_of_waits quiet waits

/-! Every fault is delivered (60 R161, R175). -/

/-- The step from `s` delivers `f` itself. -/
def Delivers (f : PendingFault) (s t : State) : Prop :=
  f ∈ s.pendingFaults ∧ step s = .next t ∧ TookTrap s t f.code.exc s.pc ∧ t.mtval = f.addr ∧ f ∉ t.pendingFaults

theorem delivers_of_chosen {s : State} {f : PendingFault} (quiet : NoInterrupts s) (reports : s.reports = true)
    (chosen : s.chosenFault = f) : Delivers f s s.deliver := by
  subst chosen
  exact ⟨State.chosenFault_mem (State.pendingFaults_ne_nil_of_reports reports), step_of_reports quiet reports,
    s.deliver_tookTrap, s.deliver_mtval, fun mem => (State.mem_deliver.mp mem).2 rfl⟩

/-- What an instruction posts keeps what was pending and adds at most one fault. -/
theorem State.Posts.length_le {s : State} {p : List PostedFault} (h : s.Posts p) : p.length ≤ s.pending.length + 1 := by
  obtain rfl | ⟨_, _, rfl⟩ := h
  · exact Nat.le_succ _
  · simp

theorem State.Posts.mem {s : State} {p : List PostedFault} (h : s.Posts p) {q : PostedFault} (hq : q ∈ s.pending) :
    q ∈ p := by
  obtain rfl | ⟨_, _, rfl⟩ := h
  exacts [hq, List.mem_append_left _ hq]

/-- A delivery of another fault leaves `f` and its wait, with fewer faults pending. -/
theorem State.deliver_keeps {s : State} {f : PendingFault} {k : Nat} (pending : ⟨f, k⟩ ∈ s.pending)
    (reports : s.reports = true) (other : s.chosenFault ≠ f) :
    ⟨f, k⟩ ∈ s.deliver.pending ∧ s.deliver.pending.length < s.pending.length := by
  rw [deliver_pending]
  refine ⟨List.mem_filter.mpr ⟨pending, bne_iff_ne.mpr other.symm⟩, ?_⟩
  obtain ⟨q, hq, chosen⟩ := List.mem_map.mp (chosenFault_mem (pendingFaults_ne_nil_of_reports reports))
  exact List.length_filter_lt_length_iff_exists.mpr ⟨q, hq, by simp [chosen]⟩

/-- A step the reporter lets pass makes the wait of `f` one shorter and adds at most one fault. -/
theorem step_shortens_wait {s t : State} {f : PendingFault} {k : Nat} (pending : ⟨f, k⟩ ∈ s.pending)
    (waits : s.reports = false) (h : step s = .next t) :
    0 < k ∧ ⟨f, k - 1⟩ ∈ t.pending ∧ t.pending.length ≤ s.pending.length + 1 := by
  have posts := step_pending h waits
  have ticked : (⟨f, k - 1⟩ : PostedFault) ∈ s.tick.pending := List.mem_map_of_mem pending
  refine ⟨Nat.pos_of_ne_zero fun ended => ?_, posts.mem ticked, by simpa using posts.length_le⟩
  exact Bool.eq_false_iff.mp waits (s.reports_iff.mpr ⟨_, pending, ended⟩)

/-- A step that does not deliver `f` lowers the number of pending faults plus twice the wait of `f`, so a run of that
many steps delivers `f`. -/
theorem delivers_of_runs {n : Nat} {s t : State} {f : PendingFault} {k : Nat} (pending : ⟨f, k⟩ ∈ s.pending)
    (long : s.pending.length + 2 * k ≤ n) (run : Runs n s t) : ∃ m u v, m < n ∧ Runs m s u ∧ Delivers f u v := by
  induction n generalizing s k with
  | zero =>
    have := List.length_pos_of_mem pending
    omega
  | succ n ih =>
    obtain ⟨s', first, rest⟩ := runs_succ.mp run
    have later : ∀ j, ⟨f, j⟩ ∈ s'.pending → s'.pending.length + 2 * j ≤ n →
        ∃ m u v, m < n + 1 ∧ Runs m s u ∧ Delivers f u v := fun j pending' long' => by
      obtain ⟨m, u, v, before, run', delivers⟩ := ih pending' long' rest
      exact ⟨m + 1, u, v, Nat.succ_lt_succ before, runs_succ.mpr ⟨s', first, run'⟩, delivers⟩
    have quiet := noInterrupts_of_next first
    cases reports : s.reports with
    | false =>
      obtain ⟨waiting, pending', length⟩ := step_shortens_wait pending reports first
      exact later (k - 1) pending' (by omega)
    | true =>
      by_cases chosen : s.chosenFault = f
      · exact ⟨0, s, s.deliver, Nat.succ_pos n, runs_zero.mpr rfl, delivers_of_chosen quiet reports chosen⟩
      · obtain rfl : s' = s.deliver := next_inj (first.symm.trans (step_of_reports quiet reports))
        obtain ⟨pending', length⟩ := State.deliver_keeps pending reports chosen
        exact later k pending' (by omega)

/-- Settles O38: the run is as long as the steps it takes to deliver `f`. -/
theorem pendingFaultIsDelivered : Obligations.PendingFaultIsDelivered := fun _ _ _ _ pending _ run =>
  delivers_of_runs pending (Nat.le_refl _) run

end Sys2Proof.Machine
end

section
/-! PROOF. An interrupt stops a step (spec 10 rule R26, 60 rules R203 to R205; O59), and code 0 no fetch with "C" (60
rule R162; O40). -/

namespace Sys2Proof.Machine

open Sys2Proof.Safety

/-- A CSR access stops only where it would write `msubm` (41 R129). -/
theorem State.csrAccess_refused {s : State} {i : Instr} {rd : RegIx} {csr : BitVec 12} {reads writes : Bool}
    {f : Word → Word} {r : Refusal} (h : s.csrAccess i rd csr reads writes f = .refused r) : r = .msubmWrite := by
  simp only [csrAccess] at h
  repeat' split at h
  all_goals cases h
  rfl

theorem exec_refused {s : State} {i : Instr} {r : Refusal} (h : exec i s = .refused r) : r = .msubmWrite := by
  cases operand : csrOperand i with
  | some csr =>
    obtain ⟨rd, reads, f, -, access⟩ := exec_eq_csrAccess operand s
    exact State.csrAccess_refused (access.symm.trans h)
  | none =>
    cases i with
    | ecall => cases h
    | ebreak => cases h
    | mret =>
      simp only [exec, execMret] at h
      repeat' split at h
      all_goals cases h
    | _ => cases operand

theorem stepOther_refused {s : State} {w : BitVec 32} {r : Refusal} (h : stepOther w s = .refused r) :
    r = .compressedBreakpoint := by
  simp only [stepOther] at h
  split at h <;> cases h
  rfl

/-- An instruction that is fetched, decoded and run is never refused for an interrupt. -/
theorem runAt_ne_interruptTaken (s : State) : runAt s ≠ .refused .interruptTaken := by
  intro h
  simp only [runAt] at h
  split at h
  · cases h
  · cases h
  · split at h
    · cases h
    · split at h
      · cases exec_refused h
      · cases stepOther_refused h

/-- The core would take an NMI, or an interrupt while `mstatus.MIE` is 1 (10 R26, 60 R203, R204). -/
theorem State.interrupted_iff (s : State) :
    s.interrupted = true ↔ s.nmiLine = true ∨ (s.irqLine = true ∧ s.mie = true) := by
  simp [interrupted]

theorem step_refused_interruptTaken_iff (s : State) : step s = .refused .interruptTaken ↔ s.interrupted = true := by
  constructor
  · intro h
    by_contra quiet
    rw [step, if_neg quiet] at h
    split at h
    · cases h
    · exact runAt_ne_interruptTaken _ h
  · exact fun interrupted => if_pos interrupted

/-- Settles O59: the step tests the lines first, and nothing else gives that refusal. -/
theorem interruptsRefusedUnlessMasked : Obligations.InterruptsRefusedUnlessMasked := by
  intro s
  have quiet_iff : NoInterrupts s ↔ ¬ (s.nmiLine = true ∨ (s.irqLine = true ∧ s.mie = true)) := by
    rw [← s.interrupted_iff, NoInterrupts, Bool.eq_false_iff]
  refine ⟨(step_refused_interruptTaken_iff s).trans s.interrupted_iff, quiet_iff, fun ⟨masked, noNmi⟩ => ?_⟩
  exact quiet_iff.mpr (by simp [masked, noNmi])

/-- Settles O40: a fetch traps with code 0 only without "C". -/
theorem noCode0WithC : Obligations.NoCode0WithC := by
  intro s hasC v trap
  cases hasC.symm.trans (State.noC_of_mayRaise (State.fetch_trap_code trap))

end Sys2Proof.Machine
end

section
/-! PROOF. An `mret` straight after an exception, and the end of a run (spec 60 rules R161, R175, R191 to R195, 70 rules
R224, R229; O19, O60). -/

namespace Sys2Proof.Machine

open Sys2Proof.Safety

/-! A return from the exception just taken (70 R224). -/

/-- The encoding of a configured mode names that mode, the two encodings being different (10 R22, R28). -/
theorem configuredMode_modeBits {cfg : Platform} {m : Mode} (modes : cfg.privU ≠ cfg.privM)
    (configured : m = .user → cfg.hasU = true) : configuredMode cfg (modeBits cfg m) = some m := by
  cases m with
  | user => simp [configuredMode, modeBits, modes, configured rfl]
  | machine => simp [configuredMode, modeBits]

/-- An `mret` where an exception was just taken is a trap return to the mode it was taken in (60 R182, R195). -/
theorem exec_mret_of_tookTrap {s t : State} {e : ExcCode} {epc : Word} (took : TookTrap s t e epc) (cfg : t.cfg = s.cfg)
    (modes : s.cfg.privU ≠ s.cfg.privM) (mode : ModeConfigured s) : exec .mret t = .next (t.trapReturn s.priv) := by
  refine exec_mret_of_mode took.priv ?_
  rw [cfg, took.mpp]
  exact configuredMode_modeBits modes mode

/-- That trap return undoes the exception: the pc is back at `mepc`, and the mode, the sub-mode and `mstatus.MIE` are
those that trap entry saved. -/
theorem trapReturn_restores_of_tookTrap {s t : State} {e : ExcCode} (took : TookTrap s t e s.pc)
    (context : SameContext s t) (even : PcEven s) :
    (t.trapReturn s.priv).pc = s.pc ∧ (t.trapReturn s.priv).priv = s.priv ∧ (t.trapReturn s.priv).typ = s.typ
      ∧ (t.trapReturn s.priv).mie = s.mie ∧ SameContext s (t.trapReturn s.priv) := by
  have pc : t.target t.mepc = s.pc := by
    rw [took.mepc]
    exact t.target_of_even fun hasC => even (context.cfg ▸ hasC)
  exact ⟨pc, rfl, took.ptyp, took.mpie, context.trans (t.trapReturn_sameContext _)⟩

/-- Settles O19: both instructions raise at their own pc, and the `mret` undoes that. -/
theorem trapThenReturnRestores : Obligations.TrapThenReturnRestores := by
  intro s i call mode even valid
  obtain ⟨e, raises⟩ : ∃ e, exec i s = .next (s.raiseDraw e) := by
    obtain rfl | rfl := call
    exacts [⟨_, exec_ecall s⟩, ⟨_, exec_ebreak s⟩]
  have took := s.raiseDraw_tookTrap e
  exact ⟨_, _, raises, exec_mret_of_tookTrap took (s.raiseDraw_cfg e) valid.modes mode,
    trapReturn_restores_of_tookTrap took (s.raiseDraw_sameContext e) even⟩

/-! The end of a run (70 R229). -/

/-- A fault leaves `pending_faults` only by its own delivery (10 R37, 60 R175). -/
theorem delivers_or_keeps {s t : State} {f : PendingFault} (pending : f ∈ s.pendingFaults) (h : step s = .next t) :
    Delivers f s t ∨ f ∈ t.pendingFaults := by
  cases reports : s.reports with
  | false =>
    obtain ⟨q, hq, rfl⟩ := List.mem_map.mp (s.tick_pendingFaults ▸ pending)
    exact .inr (List.mem_map_of_mem ((step_pending h reports).mem hq))
  | true =>
    have quiet := noInterrupts_of_next h
    obtain rfl : t = s.deliver := next_inj (h.symm.trans (step_of_reports quiet reports))
    by_cases chosen : s.chosenFault = f
    · exact .inl (delivers_of_chosen quiet reports chosen)
    · exact .inr (State.mem_deliver.mpr ⟨pending, Ne.symm chosen⟩)

/-- A run at the end of which a fault is no longer pending holds the delivery of that fault. -/
theorem delivers_of_runs_to_gone {n : Nat} {s t : State} {f : PendingFault} (pending : f ∈ s.pendingFaults)
    (gone : f ∉ t.pendingFaults) (run : Runs n s t) : ∃ m u v, m < n ∧ Runs m s u ∧ Delivers f u v := by
  induction n generalizing s with
  | zero => exact absurd (runs_zero.mp run ▸ pending) gone
  | succ n ih =>
    obtain ⟨s', first, rest⟩ := runs_succ.mp run
    obtain now | pending' := delivers_or_keeps pending first
    · exact ⟨0, s, s', Nat.succ_pos n, runs_zero.mpr rfl, now⟩
    · obtain ⟨m, u, v, before, run', later⟩ := ih pending' rest
      exact ⟨m + 1, u, v, Nat.succ_lt_succ before, runs_succ.mpr ⟨s', first, run'⟩, later⟩

/-- Settles O60: nothing is pending where a run ends, so each fault has been delivered before. -/
theorem runEndsAfterEveryDelivery : Obligations.RunEndsAfterEveryDelivery := by
  intro e s t n f pending _ ⟨run, ⟨_, nothingPending⟩, _⟩
  exact delivers_of_runs_to_gone pending (nothingPending ▸ List.not_mem_nil) run

end Sys2Proof.Machine
end
